-- ==== Sys2Proof/Word.lean ====
section
/-! DEFINITION. The word types of HUFF-CORE and the names of its byte-wide host spaces. Rule R9 of 00_scope.md:
every quantity is an unsigned integer, a byte is 8 bits, a bit sequence is a finite list of bits, first bit first. -/

namespace Sys2Proof

/-- One byte (R9): a symbol, a buffer element, a wire field's byte. -/
abbrev Byte := BitVec 8

/-- A 32-bit word: the command word, the length registers, an Alphabet frequency (R7, R11). -/
abbrev Word := BitVec 32

/-- A bit sequence (R9): head of the list = first bit produced or consumed. `true` is 1. -/
abbrev Bits := List Bool

/-- What one host read returns: an element of any space, at most 35 bits wide (R40), zero-extended. -/
abbrev Datum := BitVec 35

/-- The four host spaces whose element is a byte (R40). REG and ALPHA_FREQ are reached by moves of their own. -/
inductive ByteSpace where
  | ibuf
  | obuf
  | pbuf
  | alphaSym
  deriving DecidableEq, Repr

end Sys2Proof
end

