-- ==== Sys2Proof/Config.lean ====
section
/-! DEFINITION. What one instance of the block fixes (the open parameters of R7 and of 92_eei_decisions.md), the
constants of R7, and the free values: contents nobody has written (R47) and reads made while BUSY (R41). -/

namespace Sys2Proof

/-- Which end of a payload byte receives the first bit (R44; 93_implementation_defined.md U3). -/
inductive PackOrder where
  | msbFirst
  | lsbFirst
  deriving DecidableEq, Repr

/-- The parameters of one instance (R7, R44). Log 1 and log 2: held in the state as data that no step changes. -/
structure Config where
  ibufCap   : Nat
  obufCap   : Nat
  pbufCap   : Nat
  packOrder : PackOrder
  deriving DecidableEq, Repr

/-- The instance State.reset stands for (log 1, log 2): capacities 1024, MSB-first. DESIGN CHOICE. -/
def Config.standard : Config := { ibufCap := 1024, obufCap := 1024, pbufCap := 1024, packOrder := .msbFirst }

/-- `BITBUF_CAP = 8 × PBUF_CAP` (R7). -/
def Config.bitbufCap (c : Config) : Nat := 8 * c.pbufCap

/-- `ALPHA_CAP` (R7): entries of the Alphabet table. -/
def Config.alphaCap : Nat := 256

/-- `NODE_CAP` (R7): nodes of the tree memory. -/
def Config.nodeCap : Nat := 511

/-- `WL_CAP` (R7): entries of the working list. -/
def Config.wlCap : Nat := 256

/-- `STK_CAP` (R7): entries of the code-map generator's stack. -/
def Config.stkCap : Nat := 256

/-- `CODE_MAX` (R7): the longest code, in bits. -/
def Config.codeMax : Nat := 255

/-- FREE VALUE (R26, R47, U6; log 4). What byte `i` of space `sp` holds after the RESET number `epoch` while nothing has
written it: arbitrary, drawn once at reset, the same at every read. -/
opaque Config.unwrittenByte (epoch : Nat) (sp : ByteSpace) (i : Nat) : Byte

/-- FREE VALUE (R26, R47, U6; log 4). What `ALPHA_FREQ[i]` holds after the RESET number `epoch` while nothing has
written it. -/
opaque Config.unwrittenFreq (epoch : Nat) (i : Nat) : Word

/-- FREE VALUE (R41, U8; log 6). What the unspecified read number `draw` made while BUSY returns, before it is cut to
the width of the element read. -/
opaque Config.busyRead (draw : Nat) : Datum

end Sys2Proof
end

