-- ==== Sys2Proof/Syntax.lean ====
section
/-! DEFINITION. The instructions: the four commands of rule R71 of 30_encoding.md, which R215 of 47_host_interface.md
says are all the engine executes. A command has no operands (R70). -/

namespace Sys2Proof

/-- One constructor per row of spec/opcode_table.json. -/
inductive Instr where
  /-- ENCODE, `encode(bytes) -> Container` (R155, R156). -/
  | encode
  /-- DECODE, `decode(Container) -> bytes` (R170, R171). -/
  | decode
  /-- SERIALIZE, `Container.serialize() -> bytes` (R190, R191). -/
  | serialize
  /-- DESERIALIZE, `Container.deserialize(bytes) -> Container` (R195). -/
  | deserialize
  deriving DecidableEq, Repr

end Sys2Proof
end

