-- ==== Sys2Proof/WellFormed.lean ====
section
/-! DEFINITION. What is well formed: an instruction, a command word (R70, R71), an instance's parameters (R7), and an index
into a host space (R40, R48). -/

namespace Sys2Proof

/-- A command has no operands and no immediates (R70), so there is nothing in an `Instr` to check. -/
def Instr.wellFormed : Instr → Bool
  | .encode => true
  | .decode => true
  | .serialize => true
  | .deserialize => true

/-- R70, R71: bits 31:8 are 0 and the opcode is one of the four of the opcode map. -/
def commandWordWellFormed (w : Word) : Bool :=
  w.toNat / 256 == 0 && (1 ≤ w.toNat % 256 && w.toNat % 256 ≤ 4)

/-- R7: each open capacity is between 1 and 2^32 − 1. -/
def Config.wellFormed (c : Config) : Bool :=
  (1 ≤ c.ibufCap && c.ibufCap < 2 ^ 32) && (1 ≤ c.obufCap && c.obufCap < 2 ^ 32) &&
    (1 ≤ c.pbufCap && c.pbufCap < 2 ^ 32)

/-- How many elements a byte-wide host space has (R40). -/
def ByteSpace.size (c : Config) : ByteSpace → Nat
  | .ibuf => c.ibufCap
  | .obuf => c.obufCap
  | .pbuf => c.pbufCap
  | .alphaSym => Config.alphaCap

/-- R48: the index names an element of the space. -/
def ByteSpace.indexWellFormed (c : Config) (sp : ByteSpace) (i : Nat) : Bool := i < sp.size c

end Sys2Proof
end

