-- ==== Sys2Proof/Decode.lean ====
section
/-! DEFINITION. The command word (R70, R71 of 30_encoding.md): decoder, encoder, and the host's table entry point. A command
word is ONE 32-bit value written whole to CMD (R43, R46), so it has no byte order and no stored image. Log 17. -/

namespace Sys2Proof

/-- Why a word is no command (R71). Both reasons end in ERR_BAD_CMD (R217). -/
inductive BadWord where
  /-- bits 31:8 are not 0 -/
  | zeroField
  /-- bits 7:0 are no opcode of the map -/
  | opcode
  deriving DecidableEq, Repr

/-- Field `zero`, bits 31:8 (R70). -/
def wordZero (w : Word) : BitVec 24 := w.extractLsb' 8 24

/-- Field `op`, bits 7:0 (R70). -/
def wordOp (w : Word) : Byte := w.extractLsb' 0 8

/-- The opcode map (R71), opcode to command. -/
def commandOfOpcode (op : Byte) : Option Instr :=
  if op = 0x01#8 then some .encode
  else if op = 0x02#8 then some .decode
  else if op = 0x03#8 then some .serialize
  else if op = 0x04#8 then some .deserialize
  else none

/-- R70, R71: the command a word names, or the reason it names none. Total on all 2^32 words. -/
def decodeWord (w : Word) : Except BadWord Instr :=
  if wordZero w = 0#24 then
    match commandOfOpcode (wordOp w) with
    | some i => .ok i
    | none => .error .opcode
  else .error .zeroField

/-- The opcode map (R71), command to opcode; also what CMDR holds while the command runs (R216). -/
def opcodeOf : Instr → Byte
  | .encode => 0x01#8
  | .decode => 0x02#8
  | .serialize => 0x03#8
  | .deserialize => 0x04#8

/-- The command word of an instruction: the opcode in bits 7:0, zeros above (R70). -/
def encodeWord (i : Instr) : Word := (0#24) ++ opcodeOf i

/-- The command word laid out from a table row of `nbits` bits with value `w`: bits above `nbits` are 0. A value that does
not fit the 32 bits of CMD is no command word. -/
def tableWord (nbits w : Nat) : Option Word :=
  if w % 2 ^ nbits < 2 ^ 32 then some (BitVec.ofNat 32 (w % 2 ^ nbits)) else none

/-- The instruction the decoder reads from a table row's bits (bit 0 the least significant bit of the command word). -/
def decodeTableWord (nbits w : Nat) : Option Instr :=
  match tableWord nbits w with
  | some v =>
    match decodeWord v with
    | .ok i => some i
    | .error _ => none
  | none => none

/-! The words of R71's table, written out bit by bit. -/

theorem decodeWord_encode : decodeWord 0b00000000000000000000000000000001#32 = .ok .encode := by decide

theorem decodeWord_decode : decodeWord 0b00000000000000000000000000000010#32 = .ok .decode := by decide

theorem decodeWord_serialize : decodeWord 0b00000000000000000000000000000011#32 = .ok .serialize := by decide

theorem decodeWord_deserialize : decodeWord 0b00000000000000000000000000000100#32 = .ok .deserialize := by decide

end Sys2Proof
end

