-- ==== Sys2Proof/Machine/State.lean ====
section
/-! DEFINITION. The state of HUFF-CORE (10_state.md), the reasons a model step can stop, and the state after reset (R26).
Host-visible memories are lists of (index, element) pairs with strictly rising indices that list exactly what has been
written since reset; hidden tables are dense lists whose cells past the end read as blank (log 12). -/

namespace Sys2Proof.Machine

/-- PHASE (R12): the stage of the running command. -/
inductive Phase where
  | scan | build | genmap | emit | pack          -- ENCODE
  | unpack | walk                                -- DECODE, after BUILD
  | hdr | alpha | payload                        -- SERIALIZE
  | check | commit                               -- DESERIALIZE
  deriving DecidableEq, Repr

/-- A node's tag, 2 bits (R18, R73): 0 EMPTY, 1 LEAF, 2 INTERNAL, 3 reserved and treated as EMPTY. -/
inductive NodeTag where
  | empty
  | leaf
  | internal
  | reserved
  deriving DecidableEq, Repr

/-- One entry of the tree memory NODE (R18, R73). Fields a tag does not use keep what they held. -/
structure NodeEntry where
  tag   : NodeTag
  byte  : Byte
  left  : BitVec 9
  right : BitVec 9
  freq  : BitVec 40
  deriving DecidableEq, Repr

/-- A node cell nothing has written (log 10). -/
def NodeEntry.blank : NodeEntry := { tag := .empty, byte := 0, left := 0, right := 0, freq := 0 }

/-- The tree builder's registers and memories (R18, R19), all hidden. -/
structure TreeBuilder where
  node   : List NodeEntry
  nnodes : BitVec 10
  root   : BitVec 9
  rootv  : Bool
  wl     : List (BitVec 9)
  wln    : BitVec 9
  deriving DecidableEq, Repr

/-- One entry of the code map CMAP (R20, R74). -/
structure CodeEntry where
  valid : Bool
  len   : BitVec 8
  code  : Bits
  deriving DecidableEq, Repr

/-- A code-map cell nothing has written (log 10). -/
def CodeEntry.blank : CodeEntry := { valid := false, len := 0, code := [] }

/-- One entry of the generator's stack STK (R22). -/
structure StkEntry where
  node  : BitVec 9
  depth : BitVec 8
  bit   : Bool
  deriving DecidableEq, Repr

/-- A stack cell nothing has written (log 10). -/
def StkEntry.blank : StkEntry := { node := 0, depth := 0, bit := false }

/-- The code-map generator: its result CMAP (R20) and its scratch STK, SP, PATH (R22), all hidden. -/
structure CodeMapGen where
  cmap : List CodeEntry
  stk  : List StkEntry
  sp   : BitVec 9
  path : Bits
  deriving DecidableEq, Repr

/-- The BitBuffer (R21, R90): cells, number of valid bits (register 8, host-readable), read position. -/
structure BitBuffer where
  bits  : Bits
  nbits : BitVec 35
  rp    : BitVec 35
  deriving DecidableEq, Repr

/-- The cursors (R23), all hidden: next IBUF byte, bytes produced into OBUF, the walker's node, next bit of the code being
emitted, Alphabet entry index. -/
structure Cursors where
  ip  : BitVec 32
  oc  : BitVec 32
  cur : BitVec 9
  cb  : BitVec 8
  j   : BitVec 9
  deriving DecidableEq, Repr

/-- One move from outside the block (R76, R77, R219, R265). Numbers and indices are plain numbers so that a move at an
element that does not exist can be written down; it is refused (R48). -/
inductive HostAct where
  /-- `RD reg`: read register number `reg` (R11, R76). -/
  | rd (reg : Nat)
  /-- `WR reg, v`: write `v`, cut to the register's width, to register number `reg`; number 0 is CMD (R11, R76). -/
  | wr (reg : Nat) (v : Nat)
  /-- `RDB space[i]`: read one byte (R76). -/
  | rdb (sp : ByteSpace) (i : Nat)
  /-- `WRB space[i], v`: write one byte (R76). -/
  | wrb (sp : ByteSpace) (i : Nat) (v : Byte)
  /-- read of `ALPHA_FREQ[i]` (R40). -/
  | rdf (i : Nat)
  /-- `WRF i, v`: write `ALPHA_FREQ[i]` (R76). -/
  | wrf (i : Nat) (v : Word)
  /-- `CMD #w`: write the word `w` to CMD (R76, R216); if a command is accepted, `turns` further moves of the script land
  while it is BUSY (R218; log 9). -/
  | cmd (w : Word) (turns : Nat)
  /-- `WAIT`: read STATUS until STATE is not BUSY (R77). -/
  | wait
  /-- `COPY OBUF -> IBUF` (R77): read OLEN, then one `move` per byte, then write ILEN. -/
  | copy
  /-- one byte of `COPY`: read `OBUF[i]`, write that byte to `IBUF[i]` (R77). -/
  | move (i : Nat)
  /-- the platform's RESET event (R265). -/
  | reset
  deriving DecidableEq, Repr

/-- The host agent (R215): moves still to be made, values its reads returned (newest first), and how many further moves
land in the present BUSY interval (log 8, log 9). -/
structure HostAgent where
  script : List HostAct
  reads  : List Datum
  turns  : Nat
  deriving DecidableEq, Repr

/-- The whole machine. INVENTORY.md lists every field with its rule and its reset value. -/
structure State where
  status    : BitVec 32
  ilen      : BitVec 32
  olen      : BitVec 32
  cnt       : BitVec 32
  poff      : BitVec 16
  k         : BitVec 9
  plen      : BitVec 32
  ibuf      : List Host.Cell
  obuf      : List Host.Cell
  pbuf      : List Host.Cell
  alphaSym  : List Host.Cell
  alphaFreq : List (Nat × BitVec 32)
  cmdr      : BitVec 8
  phase     : Phase
  tree      : TreeBuilder
  gen       : CodeMapGen
  bb        : BitBuffer
  cursors   : Cursors
  cfg       : Config
  host      : HostAgent
  epoch     : Nat
  draws     : Nat
  deriving DecidableEq, Repr

/-- Why the machine stops with a fault. -/
inductive Fault where
  /-- Raised by the engine's turn when STATE = BUSY and CMDR holds no opcode: no rule gives a step there. No run reaches it
  (acceptance writes CMDR, R216). SAFE: the model stops (log 15). -/
  | cmdrHoldsNoOpcode
  deriving DecidableEq, Repr

/-- Why a step has no meaning. -/
inductive Refusal where
  /-- An instruction rejected by name because the model gives it no meaning. Nothing raises it. SAFE: the model stops. -/
  | notModelled (mnemonic : String)
  /-- Raised by a host move at an index or register number that names no element: "The host has no such access: a model gives
  it no move" (R48, U10). SAFE: the model stops (log 14). -/
  | noSuchElement
  deriving DecidableEq, Repr

/-- R26: STATUS and the data registers are 0; memories list nothing (their contents are free values, log 4); hidden state,
unspecified by R26 and never read before it is written (R24), is blank (log 10). -/
def State.reset : State where
  status    := 0x00000000#32
  ilen      := 0
  olen      := 0
  cnt       := 0
  poff      := 0
  k         := 0
  plen      := 0
  ibuf      := []
  obuf      := []
  pbuf      := []
  alphaSym  := []
  alphaFreq := []
  cmdr      := 0
  phase     := .scan
  tree      := { node := [], nnodes := 0, root := 0, rootv := false, wl := [], wln := 0 }
  gen       := { cmap := [], stk := [], sp := 0, path := [] }
  bb        := { bits := [], nbits := 0, rp := 0 }
  cursors   := { ip := 0, oc := 0, cur := 0, cb := 0, j := 0 }
  cfg       := Config.standard
  host      := { script := [], reads := [], turns := 0 }
  epoch     := 0
  draws     := 0

end Sys2Proof.Machine
end

