-- ==== Sys2Proof/Machine/Flags.lean ====
section
/-! DEFINITION. STATUS (R13 of 10_state.md): its three fields, their updates, the error codes (R240 of 60_exceptions.md), and
the FTRUNC computation (R192 of 46_container.md). The block has no arithmetic condition codes (R14). -/

namespace Sys2Proof.Machine

/-- STATE = 0 (R13). -/
def stIdle : BitVec 2 := 0#2
/-- STATE = 1 (R13). -/
def stBusy : BitVec 2 := 1#2
/-- STATE = 2 (R13). -/
def stDone : BitVec 2 := 2#2
/-- STATE = 3 (R13). -/
def stError : BitVec 2 := 3#2

/-- The error codes (R240); 9 to 15 are never produced and have no constructor. -/
inductive ErrCode where
  | none          -- ERR_NONE
  | fmtMagic      -- ERR_FMT_MAGIC
  | fmtRange      -- ERR_FMT_RANGE
  | fmtOdd        -- ERR_FMT_ODD
  | decExhausted  -- ERR_DEC_EXHAUSTED
  | decNode       -- ERR_DEC_NODE
  | internal      -- ERR_INTERNAL
  | capacity      -- ERR_CAPACITY
  | badCmd        -- ERR_BAD_CMD
  deriving DecidableEq, Repr

/-- The number of an error code (R240). -/
def errNumber : ErrCode → BitVec 4
  | .none => 0#4
  | .fmtMagic => 1#4
  | .fmtRange => 2#4
  | .fmtOdd => 3#4
  | .decExhausted => 4#4
  | .decNode => 5#4
  | .internal => 6#4
  | .capacity => 7#4
  | .badCmd => 8#4

/-- STATUS.STATE, bits 1:0 (R13). -/
def statusState (w : BitVec 32) : BitVec 2 := w.extractLsb' 0 2

/-- STATUS.ERR, bits 7:4 (R13). -/
def statusErr (w : BitVec 32) : BitVec 4 := w.extractLsb' 4 4

/-- STATUS.FTRUNC, bit 8 (R13). -/
def statusFtrunc (w : BitVec 32) : Bool := w.getLsbD 8

/-- STATUS bits 3:2 and 31:9, which R13 says are always 0. -/
def statusZero (w : BitVec 32) : BitVec 32 := w &&& 0xFFFFFE0C#32

/-- `STATE <- v` (R13). -/
def setStatusState (w : BitVec 32) (v : BitVec 2) : BitVec 32 := (w &&& ~~~0x3#32) ||| v.setWidth 32

/-- `STATUS.ERR <- v` (R13). -/
def setStatusErr (w : BitVec 32) (v : BitVec 4) : BitVec 32 := (w &&& ~~~0xF0#32) ||| (v.setWidth 32 <<< 4)

/-- `STATUS.FTRUNC <- b` (R13). -/
def setStatusFtrunc (w : BitVec 32) (b : Bool) : BitVec 32 :=
  (w &&& ~~~0x100#32) ||| (if b then 0x100#32 else 0#32)

/-- `STATE = BUSY` (R41): the engine has the next move, the host may only read STATUS. -/
def State.isBusy (s : State) : Bool := statusState s.status == stBusy

/-- The value SERIALIZE gives FTRUNC (R192): some frequency of the Alphabet is 256 or more. -/
def ftruncOf (alphabet : List (Byte × Word)) : Bool := alphabet.any (fun e => 256 ≤ e.2.toNat)

end Sys2Proof.Machine
end

