-- ==== Sys2Proof/Machine/Ops.lean ====
section
/-! DEFINITION. The named operations over memory and registers: sparse memories, hidden tables, one update per piece of
state, and the shared entries and exits of a command: acceptance (R216), error entry (R249), completion (R218), RESET (R265). -/

namespace Sys2Proof.Machine

/-! ### Host-visible memories: sorted lists of written elements -/

/-- The canonical form: indices strictly rise. An index that is not listed has no stored value (log 4). -/
abbrev Memory.wf {α : Type} (m : List (Nat × α)) : Prop := (m.map Prod.fst).Pairwise (· < ·)

/-- Every listed index is below `cap`: the memory lists only elements that exist (R48). -/
abbrev Memory.below {α : Type} (m : List (Nat × α)) (cap : Nat) : Prop := ∀ c ∈ m, c.1 < cap

/-- The value last written to index `i` since reset, if any. -/
def Memory.read? {α : Type} : List (Nat × α) → Nat → Option α
  | [], _ => none
  | (a, v) :: m, i => if i = a then some v else Memory.read? m i

/-- Write one element (R46), keeping the canonical form. -/
def Memory.write {α : Type} : List (Nat × α) → Nat → α → List (Nat × α)
  | [], i, v => [(i, v)]
  | (a, w) :: m, i, v =>
    if i < a then (i, v) :: (a, w) :: m
    else if i = a then (i, v) :: m
    else (a, w) :: Memory.write m i v

/-- Write consecutive elements from index `i` on, lowest index first. -/
def Memory.writeMany {α : Type} : List (Nat × α) → Nat → List α → List (Nat × α)
  | m, _, [] => m
  | m, i, v :: vs => Memory.writeMany (Memory.write m i v) (i + 1) vs

/-! ### Hidden tables: dense lists, cells past the end read as `blank` -/

/-- Cell `i`. -/
def Table.get {α : Type} (blank : α) (t : List α) (i : Nat) : α := t.getD i blank

/-- Write cell `i`, filling with blank cells up to it. -/
def Table.put {α : Type} (blank : α) : List α → Nat → α → List α
  | [], 0, v => [v]
  | [], i + 1, v => blank :: Table.put blank [] i v
  | _ :: t, 0, v => v :: t
  | c :: t, i + 1, v => c :: Table.put blank t i v

/-- Write consecutive cells from cell 0 on. -/
def Table.putFirst {α : Type} (t : List α) (vs : List α) : List α := vs ++ t.drop vs.length

/-- The first `n` cells. -/
def Table.first {α : Type} (blank : α) : Nat → List α → List α
  | 0, _ => []
  | n + 1, [] => blank :: Table.first blank n []
  | n + 1, c :: t => c :: Table.first blank n t

/-- Apply `f` to each of the first `n` cells. -/
def Table.mapFirst {α : Type} (blank : α) (f : α → α) (n : Nat) (t : List α) : List α :=
  Table.putFirst t ((Table.first blank n t).map f)

/-! ### One update per piece of state -/

@[simps] def State.withStatus (s : State) (v : BitVec 32) : State := { s with status := v }
@[simps] def State.withIlen (s : State) (v : BitVec 32) : State := { s with ilen := v }
@[simps] def State.withOlen (s : State) (v : BitVec 32) : State := { s with olen := v }
@[simps] def State.withCnt (s : State) (v : BitVec 32) : State := { s with cnt := v }
@[simps] def State.withPoff (s : State) (v : BitVec 16) : State := { s with poff := v }
@[simps] def State.withK (s : State) (v : BitVec 9) : State := { s with k := v }
@[simps] def State.withPlen (s : State) (v : BitVec 32) : State := { s with plen := v }
@[simps] def State.withIbuf (s : State) (v : List Host.Cell) : State := { s with ibuf := v }
@[simps] def State.withObuf (s : State) (v : List Host.Cell) : State := { s with obuf := v }
@[simps] def State.withPbuf (s : State) (v : List Host.Cell) : State := { s with pbuf := v }
@[simps] def State.withAlphaSym (s : State) (v : List Host.Cell) : State := { s with alphaSym := v }
@[simps] def State.withAlphaFreq (s : State) (v : List (Nat × BitVec 32)) : State := { s with alphaFreq := v }
@[simps] def State.withCmdr (s : State) (v : BitVec 8) : State := { s with cmdr := v }
@[simps] def State.withPhase (s : State) (v : Phase) : State := { s with phase := v }
@[simps] def State.withTree (s : State) (v : TreeBuilder) : State := { s with tree := v }
@[simps] def State.withGen (s : State) (v : CodeMapGen) : State := { s with gen := v }
@[simps] def State.withBb (s : State) (v : BitBuffer) : State := { s with bb := v }
@[simps] def State.withCursors (s : State) (v : Cursors) : State := { s with cursors := v }
@[simps] def State.withHost (s : State) (v : HostAgent) : State := { s with host := v }
@[simps] def State.withDraws (s : State) (v : Nat) : State := { s with draws := v }

@[simps] def Cursors.withIp (c : Cursors) (v : BitVec 32) : Cursors := { c with ip := v }
@[simps] def Cursors.withOc (c : Cursors) (v : BitVec 32) : Cursors := { c with oc := v }
@[simps] def Cursors.withCur (c : Cursors) (v : BitVec 9) : Cursors := { c with cur := v }
@[simps] def Cursors.withCb (c : Cursors) (v : BitVec 8) : Cursors := { c with cb := v }
@[simps] def Cursors.withJ (c : Cursors) (v : BitVec 9) : Cursors := { c with j := v }

/-- `IP <- v` (R23). -/
def State.withIp (s : State) (v : BitVec 32) : State := s.withCursors (s.cursors.withIp v)
/-- `OC <- v` (R23). -/
def State.withOc (s : State) (v : BitVec 32) : State := s.withCursors (s.cursors.withOc v)
/-- `CUR <- v` (R23). -/
def State.withCur (s : State) (v : BitVec 9) : State := s.withCursors (s.cursors.withCur v)
/-- `CB <- v` (R23). -/
def State.withCb (s : State) (v : BitVec 8) : State := s.withCursors (s.cursors.withCb v)
/-- `J <- v` (R23). -/
def State.withJ (s : State) (v : BitVec 9) : State := s.withCursors (s.cursors.withJ v)

/-! ### A stretch of a command: it goes on, or it raises an error -/

/-- How a stretch of a command ends: in the state it leaves, or at a `raise` (R249) with the state at the raise, every write
before the raise done and none after it. -/
inductive Run (σ : Type) where
  | ok (s : σ)
  | raised (e : ErrCode) (s : σ)
  deriving DecidableEq, Repr

/-- Go on with the next stretch unless an error was raised (R249). -/
def Run.bind {σ : Type} (r : Run σ) (f : σ → Run σ) : Run σ :=
  match r with
  | .ok s => f s
  | .raised e s => .raised e s

/-- Put a unit's result back into the state around it. -/
def Run.map {σ τ : Type} (f : σ → τ) : Run σ → Run τ
  | .ok s => .ok (f s)
  | .raised e s => .raised e (f s)

/-- The error-path writes a command makes before the error entry (R250). -/
def Run.onRaise {σ : Type} (f : σ → σ) : Run σ → Run σ
  | .ok s => .ok s
  | .raised e s => .raised e (f s)

/-! ### Acceptance, completion, error entry, RESET -/

/-- Acceptance (R216): `STATUS.ERR <- 0; CMDR <- w[7:0]; STATE <- BUSY`. -/
def accept (i : Instr) (s : State) : State :=
  (s.withCmdr (opcodeOf i)).withStatus (setStatusState (setStatusErr s.status 0#4) stBusy)

/-- Error entry (R249): `STATUS.ERR <- ERR_X`, then `STATE <- ERROR`; nothing is saved and nothing is vectored. -/
def raiseError (e : ErrCode) (s : State) : State :=
  s.withStatus (setStatusState (setStatusErr s.status (errNumber e)) stError)

/-- Success (R218): `STATE <- DONE`. -/
def finish (s : State) : State := s.withStatus (setStatusState s.status stDone)

/-- Completion of a command (R218): DONE, or the error entry. Both are next states. -/
def complete (r : Run State) : Host.Outcome State Fault Refusal :=
  match r with
  | .ok s => .next (finish s)
  | .raised e s => .next (raiseError e s)

/-- RESET (R265, R266), in any state: the state of R26. Log 16: never-written contents are drawn anew (`epoch`), the instance's
parameters and the host's own data stay, and a BUSY interval ends. -/
def resetEvent (s : State) : State :=
  { State.reset with
    cfg := s.cfg
    host := { s.host with turns := 0 }
    epoch := s.epoch + 1
    draws := s.draws }

end Sys2Proof.Machine
end

