-- ==== Sys2Proof/Machine/Operands.lean ====
section
/-! DEFINITION. The operands of commands and of host moves: elements of the memories (R40, R47), the Alphabet (R17), container
integers (R43), wire bytes (R61), and the register port (R11). -/

namespace Sys2Proof.Machine

/-- The stored list of a byte-wide space (R40). -/
def State.bytesOf (s : State) : ByteSpace → List Host.Cell
  | .ibuf => s.ibuf
  | .obuf => s.obuf
  | .pbuf => s.pbuf
  | .alphaSym => s.alphaSym

/-- Byte `i` of a space: what was last written there, or the free value of a never-written element (R47; log 4). -/
def State.byteAt (s : State) (sp : ByteSpace) (i : Nat) : Byte :=
  (Memory.read? (s.bytesOf sp) i).getD (Config.unwrittenByte s.epoch sp i)

/-- `ALPHA[j].freq` (R17), or the free value of a never-written element (R47; log 4). -/
def State.freqAt (s : State) (j : Nat) : Word :=
  (Memory.read? s.alphaFreq j).getD (Config.unwrittenFreq s.epoch j)

/-- `S[i] <- v` (R9, R46). -/
def State.putByte (s : State) (sp : ByteSpace) (i : Nat) (v : Byte) : State :=
  match sp with
  | .ibuf => s.withIbuf (Memory.write s.ibuf i v)
  | .obuf => s.withObuf (Memory.write s.obuf i v)
  | .pbuf => s.withPbuf (Memory.write s.pbuf i v)
  | .alphaSym => s.withAlphaSym (Memory.write s.alphaSym i v)

/-- `ALPHA[j].freq <- v` (R17). -/
def State.putFreq (s : State) (j : Nat) (v : Word) : State := s.withAlphaFreq (Memory.write s.alphaFreq j v)

/-- `n` bytes of a space from index `i` on, lowest index first. -/
def State.bytesFrom (s : State) (sp : ByteSpace) (i n : Nat) : List Byte :=
  (List.range n).map (fun t => s.byteAt sp (i + t))

/-- The Alphabet `ALPHA[0..K−1]` (R16, R17): symbol and full 32-bit frequency, in order. -/
def State.alphabet (s : State) : List (Byte × Word) :=
  (List.range s.k.toNat).map (fun j => (s.byteAt .alphaSym j, s.freqAt j))

/-- The magic tag "HUFF" (R62). -/
def magicTag : List Byte := [0x48#8, 0x55#8, 0x46#8, 0x46#8]

/-- `BE16` (R9, R43). -/
def be16 (b0 b1 : Byte) : BitVec 16 := b0 ++ b1

/-- `BE32` (R9, R43). -/
def be32 (b0 b1 b2 b3 : Byte) : BitVec 32 := b0 ++ b1 ++ b2 ++ b3

/-- The two bytes of a 16-bit container integer, more significant first (R43, R61). -/
def bytes16 (v : BitVec 16) : List Byte := [v.extractLsb' 8 8, v.extractLsb' 0 8]

/-- The four bytes of a 32-bit container integer, most significant first (R43, R61). -/
def bytes32 (v : BitVec 32) : List Byte :=
  [v.extractLsb' 24 8, v.extractLsb' 16 8, v.extractLsb' 8 8, v.extractLsb' 0 8]

/-- The two bytes of an Alphabet entry on the wire (R65): the symbol, the frequency modulo 256. -/
def wireEntry (e : Byte × Word) : List Byte := [e.1, e.2.extractLsb' 0 8]

/-- `ceil8(n)` (R9). -/
def ceil8 (n : Nat) : Nat := (n + 7) / 8

/-! ### The register port -/

/-- The nine registers of REG (R11). -/
inductive Reg where
  | cmd | status | ilen | olen | cnt | poff | k | plen | nbits
  deriving DecidableEq, Repr

/-- Register numbers 0 to 8; 9 and above name none (R11, R48). -/
def regOfNumber : Nat → Option Reg
  | 0 => some .cmd
  | 1 => some .status
  | 2 => some .ilen
  | 3 => some .olen
  | 4 => some .cnt
  | 5 => some .poff
  | 6 => some .k
  | 7 => some .plen
  | 8 => some .nbits
  | _ => none

/-- What the register holds, zero-extended (R11: bits above a register's width read as 0; CMD reads 0). -/
def State.regValue (s : State) : Reg → Datum
  | .cmd => 0
  | .status => s.status.setWidth 35
  | .ilen => s.ilen.setWidth 35
  | .olen => s.olen.setWidth 35
  | .cnt => s.cnt.setWidth 35
  | .poff => s.poff.setWidth 35
  | .k => s.k.setWidth 35
  | .plen => s.plen.setWidth 35
  | .nbits => s.bb.nbits

/-- The register's width in bits (R11). -/
def regWidth : Reg → Nat
  | .cmd => 32
  | .status => 32
  | .ilen => 32
  | .olen => 32
  | .cnt => 32
  | .poff => 16
  | .k => 9
  | .plen => 32
  | .nbits => 35

/-- A host write to a register other than CMD while not BUSY (R11, R219): the value cut to the register's width, with no
check; a write to a read-only register is ignored. (A write to CMD issues a command: `hostMove`.) -/
def State.putReg (s : State) (r : Reg) (v : Nat) : State :=
  match r with
  | .ilen => s.withIlen (BitVec.ofNat 32 v)
  | .cnt => s.withCnt (BitVec.ofNat 32 v)
  | .k => s.withK (BitVec.ofNat 9 v)
  | .plen => s.withPlen (BitVec.ofNat 32 v)
  | .cmd => s
  | .status => s
  | .olen => s
  | .poff => s
  | .nbits => s

end Sys2Proof.Machine
end

