-- ==== Sys2Proof/Machine/ContainerCmd.lean ====
section
/-! DEFINITION. The container unit (46_container.md): SERIALIZE (R190 to R194) and DESERIALIZE (R195 to R199), over the image
format of R60 to R66. -/

namespace Sys2Proof.Machine

/-! ### SERIALIZE -/

/-- `10 + 2 × K` (R64), the offset of the payload in the image. -/
def payloadOffsetOf (k : Nat) : Nat := 10 + 2 * k

/-- The ten header bytes (R61): the tag, CNT, the payload offset. -/
def headerBytes (s : State) : List Byte :=
  magicTag ++ bytes32 s.cnt ++ bytes16 (BitVec.ofNat 16 (payloadOffsetOf s.k.toNat))

/-- The 2K bytes of the Alphabet on the wire (R61, R65). -/
def alphabetBytes (s : State) : List Byte := s.alphabet.flatMap wireEntry

/-- The whole image (R60, R61): header, Alphabet, payload. -/
def imageBytes (s : State) : List Byte := headerBytes s ++ alphabetBytes s ++ s.bytesFrom .pbuf 0 s.plen.toNat

/-- SERIALIZE's three phases HDR, ALPHA, PAYLOAD (R191): they write the image to OBUF from index 0 on, lowest index first, then
the report registers. -/
def serializeWrites (s : State) : State :=
  let off := payloadOffsetOf s.k.toNat
  let n := off + s.plen.toNat
  let s1 := (s.withPhase .payload).withObuf (Memory.writeMany s.obuf 0 (imageBytes s))
  let s2 := ((s1.withPoff (BitVec.ofNat 16 off)).withOlen (BitVec.ofNat 32 n)).withJ s.k
  (s2.withOc (BitVec.ofNat 32 n)).withStatus (setStatusFtrunc s.status (ftruncOf s.alphabet))

/-- SERIALIZE from the acceptance on (R191, R193). -/
def serializeBody (s : State) : Run State :=
  if Config.alphaCap < s.k.toNat ∨ s.cfg.pbufCap < s.plen.toNat ∨
      s.cfg.obufCap < payloadOffsetOf s.k.toNat + s.plen.toNat then .raised .capacity s
  else .ok (serializeWrites s)

/-- SERIALIZE (R190, R191, R216, R218): acceptance, the command, completion. -/
def execSerialize (s : State) : Host.Outcome State Fault Refusal := complete (serializeBody (accept .serialize s))

/-! ### DESERIALIZE -/

/-- P, the image's payload offset (R64): `BE16(IBUF[8], IBUF[9])`. -/
def imageOffset (s : State) : Nat := (be16 (s.byteAt .ibuf 8) (s.byteAt .ibuf 9)).toNat

/-- k, the image's entry count (R64): `(P − 10) div 2`. -/
def imageEntries (s : State) : Nat := (imageOffset s - 10) / 2

/-- CHECK (R196): the six tests in order; the first that fails gives the error, `ERR_NONE` says that all passed. -/
def checkImage (s : State) : ErrCode :=
  let len := s.ilen.toNat
  if s.cfg.ibufCap < len then .capacity
  else if len < 4 then .fmtMagic
  else if s.bytesFrom .ibuf 0 4 ≠ magicTag then .fmtMagic
  else if len < 10 then .fmtRange
  else if ¬ (10 < imageOffset s ∧ imageOffset s < len) then .fmtRange
  else if (imageOffset s - 10) % 2 = 1 then .fmtOdd
  else if Config.alphaCap < imageEntries s ∨ s.cfg.pbufCap < len - imageOffset s then .capacity
  else .none

/-- The image's symbol bytes (R197): `IBUF[10 + 2J]` for `J < k`. -/
def imageSyms (s : State) : List Byte := (List.range (imageEntries s)).map (fun j => s.byteAt .ibuf (10 + 2 * j))

/-- The image's frequencies (R197): `zext_32(IBUF[11 + 2J])` for `J < k`. -/
def imageFreqs (s : State) : List Word :=
  (List.range (imageEntries s)).map (fun j => (s.byteAt .ibuf (11 + 2 * j)).setWidth 32)

/-- COMMIT (R197), reached only when every test passed. -/
def commitImage (s : State) : State :=
  let p := imageOffset s
  let n := s.ilen.toNat - p
  let s1 := (s.withPhase .commit).withCnt
    (be32 (s.byteAt .ibuf 4) (s.byteAt .ibuf 5) (s.byteAt .ibuf 6) (s.byteAt .ibuf 7))
  let s2 := (s1.withPoff (BitVec.ofNat 16 p)).withK (BitVec.ofNat 9 (imageEntries s))
  let s3 := (s2.withAlphaSym (Memory.writeMany s.alphaSym 0 (imageSyms s))).withAlphaFreq
    (Memory.writeMany s.alphaFreq 0 (imageFreqs s))
  let s4 := (s3.withPlen (BitVec.ofNat 32 n)).withPbuf (Memory.writeMany s.pbuf 0 (s.bytesFrom .ibuf p n))
  (s4.withJ (BitVec.ofNat 9 (imageEntries s))).withIp s.ilen

/-- DESERIALIZE from the acceptance on (R195): CHECK, then COMMIT. -/
def deserializeBody (s : State) : Run State :=
  let s := s.withPhase .check
  match checkImage s with
  | .none => .ok (commitImage s)
  | e => .raised e s

/-- DESERIALIZE (R195, R216, R218): acceptance, the command, completion. -/
def execDeserialize (s : State) : Host.Outcome State Fault Refusal :=
  complete (deserializeBody (accept .deserialize s))

end Sys2Proof.Machine
end

