-- ==== Sys2Proof/Machine/BitBuffer.lean ====
section
/-! DEFINITION. The BitBuffer unit (40_bitbuffer.md, R90 to R98). -/

namespace Sys2Proof.Machine

/-- BB_CLEAR (R91): `NBITS <- 0; RP <- 0`; the cells keep what they hold. -/
def bbClear (b : BitBuffer) : BitBuffer := { b with nbits := 0, rp := 0 }

/-- BB_PUSH_BIT (R92, R98), `cap` = BITBUF_CAP. -/
def bbPushBit (cap : Nat) (v : Bool) (b : BitBuffer) : Run BitBuffer :=
  if b.nbits.toNat = cap then .raised .capacity b
  else .ok { b with bits := Table.put false b.bits b.nbits.toNat v, nbits := b.nbits + 1 }

/-- BB_PUSH_SEQ (R93): push the bits in order, first bit first, up to the first that does not fit. -/
def bbPushSeq (cap : Nat) : Bits → BitBuffer → Run BitBuffer
  | [], b => .ok b
  | v :: vs, b => (bbPushBit cap v b).bind (bbPushSeq cap vs)

/-- The buffer's abstract value (R90): `[BITS[0], ..., BITS[NBITS−1]]`. -/
def bbValue (b : BitBuffer) : Bits := Table.first false b.nbits.toNat b.bits

/-- One payload byte from at most eight bits, the first bit at bit 7 under MSB_FIRST and at bit 0 under LSB_FIRST (R44); missing
bits are 0 (R94). -/
def packByte (order : PackOrder) (bits : Bits) : Byte :=
  let weight (t : Nat) : Nat := match order with
    | .msbFirst => 2 ^ (7 - t)
    | .lsbFirst => 2 ^ t
  BitVec.ofNat 8 (((List.range 8).map (fun t => if bits.getD t false then weight t else 0)).sum)

/-- The payload bytes of a bit sequence (R94): byte `j` holds bits `8j` to `8j + 7`, the last byte zero-padded. `n` is the
number of bytes, `ceil8` of the length. -/
def packBytes (order : PackOrder) : Nat → Bits → List Byte
  | 0, _ => []
  | n + 1, bits => packByte order bits :: packBytes order n (bits.drop 8)

/-- The eight bits of a payload byte in stream order (R95). -/
def unpackByte (order : PackOrder) (v : Byte) : Bits :=
  (List.range 8).map (fun t => match order with
    | .msbFirst => v.getLsbD (7 - t)
    | .lsbFirst => v.getLsbD t)

/-- BB_PACK (R94): `PLEN` and `PBUF[0..PLEN−1]`; bytes of PBUF at and above PLEN keep what they hold. -/
def bbPack (s : State) : State :=
  let n := ceil8 s.bb.nbits.toNat
  let bytes := packBytes s.cfg.packOrder n (bbValue s.bb)
  (s.withPbuf (Memory.writeMany s.pbuf 0 bytes)).withPlen (BitVec.ofNat 32 n)

/-- BB_UNPACK (R95): clear, write eight cells per payload byte, `NBITS <- 8 × PLEN`. -/
def bbUnpack (s : State) : State :=
  let bits := (s.bytesFrom .pbuf 0 s.plen.toNat).flatMap (unpackByte s.cfg.packOrder)
  let b := bbClear s.bb
  s.withBb { b with bits := Table.putFirst b.bits bits, nbits := BitVec.ofNat 35 (8 * s.plen.toNat) }

/-- BB_POP_BIT (R96): the next bit and the buffer with RP advanced, or `none` for the signal `empty`, RP unchanged. -/
def bbPopBit (b : BitBuffer) : Option (Bool × BitBuffer) :=
  if b.rp = b.nbits then none
  else some (Table.get false b.bits b.rp.toNat, { b with rp := b.rp + 1 })

end Sys2Proof.Machine
end

