-- ==== Sys2Proof/Machine/CodeTree.lean ====
section
/-! DEFINITION. The tree builder (42_codetree.md, R120 to R125): BT_INIT, BT_MERGE, BT_FINISH and BUILD, in the source's own
form, a stably sorted working list (R122). -/

namespace Sys2Proof.Machine

/-- `NODE[n]`. -/
def nodeAt (t : TreeBuilder) (n : Nat) : NodeEntry := Table.get NodeEntry.blank t.node n

/-- `stable_sort_desc(L, key)` (R9): by key descending, equal keys in the order they had. Insertion sort: an element goes
before the first later one whose key is not greater, so never behind an equal one that followed it. -/
def stableSortDesc {α : Type} (key : α → Nat) (l : List α) : List α :=
  l.insertionSort (fun a b => key b ≤ key a)

/-- The leaves of BT_INIT (R121): `NODE[j]` becomes the LEAF of Alphabet entry `j`. -/
def btLeaves : List (Byte × Word) → Nat → List NodeEntry → List NodeEntry
  | [], _, node => node
  | e :: es, j, node =>
    let cell := { Table.get NodeEntry.blank node j with tag := .leaf, byte := e.1, freq := e.2.setWidth 40 }
    btLeaves es (j + 1) (Table.put NodeEntry.blank node j cell)

/-- BT_INIT (R121): all 511 tags EMPTY, one leaf per entry, the working list `[0, ..., K−1]`. -/
def btInit (alphabet : List (Byte × Word)) (t : TreeBuilder) : TreeBuilder :=
  let cleared := Table.mapFirst NodeEntry.blank (fun c => { c with tag := .empty }) Config.nodeCap t.node
  { t with
    node := btLeaves alphabet 0 cleared
    wl := Table.putFirst t.wl ((List.range alphabet.length).map (BitVec.ofNat 9))
    wln := BitVec.ofNat 9 alphabet.length
    nnodes := BitVec.ofNat 10 alphabet.length
    rootv := false }

/-- The sort key of R122: the node's full 40-bit frequency. -/
def nodeKey (t : TreeBuilder) (i : BitVec 9) : Nat := (nodeAt t i.toNat).freq.toNat

/-- The working list sorted for a merge (R122, first line). -/
def btSorted (t : TreeBuilder) : List (BitVec 9) :=
  stableSortDesc (nodeKey t) (Table.first 0 t.wln.toNat t.wl)

/-- BT_MERGE (R122), for `WLN ≥ 2`: sort, take the last two as left and right child of a new node, put it in their place. -/
def btMerge (t : TreeBuilder) : TreeBuilder :=
  let n := t.wln.toNat
  let sorted := btSorted t
  let x := sorted.getD (n - 2) 0
  let y := sorted.getD (n - 1) 0
  let m := t.nnodes
  let sum := (nodeAt t x.toNat).freq + (nodeAt t y.toNat).freq
  let cell := { nodeAt t m.toNat with tag := .internal, left := x, right := y, freq := sum }
  { t with
    node := Table.put NodeEntry.blank t.node m.toNat cell
    nnodes := m + 1
    wl := Table.put 0 (Table.putFirst t.wl sorted) (n - 2) (m.setWidth 9)
    wln := t.wln - 1 }

/-- BT_MERGE while `WLN > 1` (R120); each merge shortens the list, so `n ≥ WLN` rounds suffice (R123). -/
def btReduce : Nat → TreeBuilder → TreeBuilder
  | 0, t => t
  | n + 1, t => if 2 ≤ t.wln.toNat then btReduce n (btMerge t) else t

/-- BT_FINISH (R123, R124). -/
def btFinish (t : TreeBuilder) : TreeBuilder :=
  if t.wln = 1 then { t with root := Table.get 0 t.wl 0, rootv := true } else { t with rootv := false }

/-- BUILD as a function of the Alphabet (R120). -/
def buildTree (alphabet : List (Byte × Word)) (t : TreeBuilder) : TreeBuilder :=
  btFinish (btReduce alphabet.length (btInit alphabet t))

/-- BUILD (R120): reads ALPHA and K, writes only tree-builder state. -/
def build (s : State) : State := s.withTree (buildTree s.alphabet s.tree)

end Sys2Proof.Machine
end

