-- ==== Sys2Proof/Machine/DecodeCmd.lean ====
section
/-! DEFINITION. DECODE and the tree walker (45_decode.md, R170 to R179). -/

namespace Sys2Proof.Machine

/-- `raise e` on an error path of DECODE: `OLEN <- 0` first (R171, R179). -/
def decodeFail (e : ErrCode) (s : State) : Run State := .raised e (s.withOlen 0)

/-- The child a bit leads to: "0→left, 1→right" (R172). -/
def childOf (c : NodeEntry) (b : Bool) : BitVec 9 := if b then c.right else c.left

/-- R172's loop. Each round consumes one bit; `n` is the number of bits left, so with `n = 0` a wanted bit is missing
(R176). The test `OC < CNT` comes before the bit. -/
def walkLoop : Nat → State → Run State
  | 0, s => if s.cursors.oc.toNat < s.cnt.toNat then decodeFail .decExhausted s else .ok s
  | n + 1, s =>
    if s.cursors.oc.toNat < s.cnt.toNat then
      match bbPopBit s.bb with
      | none => decodeFail .decExhausted s
      | some (b, bb) =>
        let cur := childOf (nodeAt s.tree s.cursors.cur.toNat) b
        let s := (s.withBb bb).withCur cur
        let c := nodeAt s.tree cur.toNat
        match c.tag with
        | .leaf =>
          walkLoop n (((s.putByte .obuf s.cursors.oc.toNat c.byte).withOc (s.cursors.oc + 1)).withCur s.tree.root)
        | .internal => walkLoop n s
        | .empty => decodeFail .decNode s
        | .reserved => decodeFail .decNode s
    else .ok s

/-- WALK (R172), for K ≥ 2 and CNT ≥ 1, after UNPACK has set RP = 0 and NBITS. -/
def walk (s : State) : Run State :=
  walkLoop s.bb.nbits.toNat ((s.withOc 0).withCur s.tree.root)

/-- The single-symbol branch (R174): CNT copies of `ALPHA[0].sym`; the payload is not read. -/
def fillSingle (s : State) : State :=
  ((s.withObuf (Memory.writeMany s.obuf 0 (List.replicate s.cnt.toNat (s.byteAt .alphaSym 0)))).withOc s.cnt).withOlen
    s.cnt

/-- DECODE from the acceptance on (R171). -/
def decodeBody (s : State) : Run State :=
  if Config.alphaCap < s.k.toNat ∨ s.cfg.pbufCap < s.plen.toNat ∨ s.cfg.obufCap < s.cnt.toNat then
    decodeFail .capacity s
  else
    let built := build (s.withPhase .build)
    if built.cnt = 0 then .ok (built.withOlen 0)
    else if built.k = 0 then decodeFail .decNode built
    else if built.k = 1 then .ok (fillSingle built)
    else
      (walk ((bbUnpack (built.withPhase .unpack)).withPhase .walk)).bind (fun s => .ok (s.withOlen s.cnt))

/-- DECODE (R170, R171, R216, R218): acceptance, the command, completion. -/
def execDecode (s : State) : Host.Outcome State Fault Refusal := complete (decodeBody (accept .decode s))

end Sys2Proof.Machine
end

