-- ==== Sys2Proof/Machine/Alphabet.lean ====
section
/-! DEFINITION. The Alphabet scanner (41_alphabet.md, R110 to R114): the SCAN phase of ENCODE. -/

namespace Sys2Proof.Machine

/-- The lookup of R110: the least `j` with `from ≤ j < from + n` and `ALPHA[j].sym = b`. -/
def findSym (s : State) (b : Byte) : Nat → Nat → Option Nat
  | 0, _ => none
  | n + 1, j => if s.byteAt .alphaSym j = b then some j else findSym s b n (j + 1)

/-- One byte of the scan (R110): count a byte already met, or append a new entry with count 1. J is left at the entry. -/
def scanByte (b : Byte) (s : State) : State :=
  match findSym s b s.k.toNat 0 with
  | some j => (s.putFreq j (s.freqAt j + 1)).withJ (BitVec.ofNat 9 j)
  | none =>
    let j := s.k.toNat
    (((s.putByte .alphaSym j b).putFreq j 1).withK (s.k + 1)).withJ s.k

/-- The loop of R110, `n` bytes left, the next one at IP. -/
def scanLoop : Nat → State → State
  | 0, s => s
  | n + 1, s =>
    let b := s.byteAt .ibuf s.cursors.ip.toNat
    scanLoop n ((scanByte b s).withIp (s.cursors.ip + 1))

/-- SCAN (R110): `K <- 0`, then one pass over `IBUF[0..ILEN−1]`. -/
def scan (s : State) : State :=
  scanLoop s.ilen.toNat ((s.withK 0).withIp 0)

end Sys2Proof.Machine
end

