-- ==== Sys2Proof/Machine/CodeMap.lean ====
section
/-! DEFINITION. The code-map generator (43_codemap.md, R140 to R145): GENMAP, in the explicit-stack form of R142. -/

namespace Sys2Proof.Machine

/-- `SINGLE_CODE` (R7, R143; log 3): the code of the only symbol of a one-symbol Alphabet. -/
def singleCode : Bits := [false]

/-- `CMAP[b]`. -/
def codeOf (g : CodeMapGen) (b : Byte) : CodeEntry := Table.get CodeEntry.blank g.cmap b.toNat

/-- `CMAP[b] <- e`. -/
def putCode (g : CodeMapGen) (b : Byte) (e : CodeEntry) : CodeMapGen :=
  { g with cmap := Table.put CodeEntry.blank g.cmap b.toNat e }

/-- The first line of R141: every one of the 256 entries is invalidated. -/
def invalidateAll (g : CodeMapGen) : CodeMapGen :=
  { g with cmap := Table.mapFirst CodeEntry.blank (fun e => { e with valid := false }) 256 g.cmap }

/-- `push` of R142. -/
def stkPush (g : CodeMapGen) (e : StkEntry) : CodeMapGen :=
  { g with stk := Table.put StkEntry.blank g.stk g.sp.toNat e, sp := g.sp + 1 }

/-- One round of R142's loop: pop an entry, set its edge in PATH, and record a code, push two children, or raise
ERR_INTERNAL (R144). -/
def genStep (t : TreeBuilder) (g : CodeMapGen) : Run CodeMapGen :=
  let sp := g.sp - 1
  let e := Table.get StkEntry.blank g.stk sp.toNat
  let d := e.depth.toNat
  let path := if 0 < d then Table.put false g.path (d - 1) e.bit else g.path
  let g := { g with sp := sp, path := path }
  let c := nodeAt t e.node.toNat
  match c.tag with
  | .leaf => .ok (putCode g c.byte { valid := true, len := e.depth, code := Table.first false d path })
  | .internal =>
    .ok (stkPush (stkPush g { node := c.right, depth := e.depth + 1, bit := true })
      { node := c.left, depth := e.depth + 1, bit := false })
  | .empty => .raised .internal g
  | .reserved => .raised .internal g

/-- R142's loop, at most `n` rounds. A built tree needs `2K − 1 ≤ 511` (R142); running out of rounds with entries left means a
corrupted tree and is ERR_INTERNAL too (log 13). -/
def genLoop (t : TreeBuilder) : Nat → CodeMapGen → Run CodeMapGen
  | 0, g => if g.sp = 0 then .ok g else .raised .internal g
  | n + 1, g => if g.sp = 0 then .ok g else (genStep t g).bind (genLoop t n)

/-- GENMAP as a function of the Alphabet and the tree (R141 to R143). -/
def genCodes (alphabet : List (Byte × Word)) (t : TreeBuilder) (g : CodeMapGen) : Run CodeMapGen :=
  match alphabet with
  | [] => .ok (invalidateAll g)
  | [e] => .ok (putCode (invalidateAll g) e.1 { valid := true, len := BitVec.ofNat 8 singleCode.length, code := singleCode })
  | _ =>
    let g := { invalidateAll g with sp := 0 }
    genLoop t Config.nodeCap (stkPush g { node := t.root, depth := 0, bit := false })

/-- GENMAP (R140): changes no host-visible state. -/
def genmap (s : State) : Run State := (genCodes s.alphabet s.tree s.gen).map s.withGen

end Sys2Proof.Machine
end

