-- ==== Sys2Proof/Machine/EncodeCmd.lean ====
section
/-! DEFINITION. ENCODE and the bit-serial encoder (44_encode.md, R155 to R161). -/

namespace Sys2Proof.Machine

/-- The inner loop of R157: push the bits of one code, CB the index of the next one. -/
def emitBits : Bits → State → Run State
  | [], s => .ok s
  | v :: vs, s =>
    match bbPushBit s.cfg.bitbufCap v s.bb with
    | .ok b => emitBits vs ((s.withBb b).withCb (s.cursors.cb + 1))
    | .raised e b => .raised e (s.withBb b)

/-- The outer loop of R157, `n` bytes left, the next one at IP. -/
def emitLoop : Nat → State → Run State
  | 0, s => .ok s
  | n + 1, s =>
    let e := codeOf s.gen (s.byteAt .ibuf s.cursors.ip.toNat)
    if e.valid then
      (emitBits (Table.first false e.len.toNat e.code) (s.withCb 0)).bind
        (fun s => emitLoop n (s.withIp (s.cursors.ip + 1)))
    else .raised .internal s

/-- EMIT (R157): BB_CLEAR, then the code of each input byte in order. -/
def emit (s : State) : Run State :=
  emitLoop s.ilen.toNat ((s.withBb (bbClear s.bb)).withIp 0)

/-- The error-path writes of R161: the Container becomes the empty Container, `NBITS <- 0; RP <- 0`. -/
def emptyContainer (s : State) : State :=
  (((s.withK 0).withCnt 0).withPlen 0).withBb (bbClear s.bb)

/-- ENCODE from the acceptance on (R156). -/
def encodeBody (s : State) : Run State :=
  if s.cfg.ibufCap < s.ilen.toNat then .raised .capacity s
  else
    let scanned := scan (s.withPhase .scan)
    let built := build ((scanned.withCnt scanned.ilen).withPhase .build)
    (((genmap (built.withPhase .genmap)).bind (fun s => emit (s.withPhase .emit))).onRaise emptyContainer).bind
      (fun s => .ok (bbPack (s.withPhase .pack)))

/-- ENCODE (R155, R156, R216, R218): acceptance, the command, completion. -/
def execEncode (s : State) : Host.Outcome State Fault Refusal := complete (encodeBody (accept .encode s))

end Sys2Proof.Machine
end

