-- ==== Sys2Proof/Machine/HostPort.lean ====
section
/-! DEFINITION. The host's side (47_host_interface.md): reads and writes by STATE (R41), command issue (R216, R217), the
remaining moves of a host script (R76, R77), RESET (R265), and the engine's turn in a BUSY interval (R218). -/

namespace Sys2Proof.Machine

/-- Record what a read returned (newest first). -/
def logRead (v : Datum) (s : State) : State := s.withHost { s.host with reads := v :: s.host.reads }

/-- Put moves before the rest of the script. -/
def pushMoves (acts : List HostAct) (s : State) : State :=
  s.withHost { s.host with script := acts ++ s.host.script }

/-- The host's read of an element of `w` bits holding `v`, other than STATUS (R41): its value, or while BUSY an unspecified value
of that width, different from read to read. -/
def portRead (w : Nat) (v : Datum) (s : State) : Datum × State :=
  if s.isBusy then (((Config.busyRead s.draws).setWidth w).setWidth 35, s.withDraws (s.draws + 1)) else (v, s)

/-- The host's write (R41): done, or ignored while BUSY. -/
def portWrite (f : State → State) (s : State) : State := if s.isBusy then s else f s

/-- `RD reg` (R11, R41): STATUS reads as it is in any state. -/
def readReg (r : Reg) (s : State) : Datum × State :=
  match r with
  | .status => (s.regValue .status, s)
  | r => portRead (regWidth r) (s.regValue r) s

/-- A host write of the word `w` to CMD (R216, R217): ignored while BUSY; a legal word is accepted and run, at once or after
`turns` host moves of its BUSY interval (log 9); any other word sets ERROR and ERR_BAD_CMD and nothing else. -/
def issue (w : Word) (turns : Nat) (s : State) : Host.Outcome State Fault Refusal :=
  if s.isBusy then .next s
  else
    match decodeWord w with
    | .error _ => .next (raiseError .badCmd s)
    | .ok i =>
      match turns with
      | 0 => exec i s
      | n + 1 => .next ((accept i s).withHost { s.host with turns := n + 1 })

/-- One host move (R219), the script already without it. A move at an element that does not exist is refused (R48). -/
def hostMove (a : HostAct) (s : State) : Host.Outcome State Fault Refusal :=
  match a with
  | .rd n =>
    match regOfNumber n with
    | some r => .next (logRead (readReg r s).1 (readReg r s).2)
    | none => .refused .noSuchElement
  | .wr n v =>
    match regOfNumber n with
    | some .cmd => issue (BitVec.ofNat 32 v) 0 s
    | some r => .next (portWrite (fun s => s.putReg r v) s)
    | none => .refused .noSuchElement
  | .rdb sp i =>
    if sp.indexWellFormed s.cfg i then
      let r := portRead 8 ((s.byteAt sp i).setWidth 35) s
      .next (logRead r.1 r.2)
    else .refused .noSuchElement
  | .wrb sp i v =>
    if sp.indexWellFormed s.cfg i then .next (portWrite (fun s => s.putByte sp i v) s) else .refused .noSuchElement
  | .rdf i =>
    if i < Config.alphaCap then
      let r := portRead 32 ((s.freqAt i).setWidth 35) s
      .next (logRead r.1 r.2)
    else .refused .noSuchElement
  | .wrf i v =>
    if i < Config.alphaCap then .next (portWrite (fun s => s.putFreq i v) s) else .refused .noSuchElement
  | .cmd w turns => issue w turns s
  | .wait =>
    let s := logRead (s.regValue .status) s
    .next (if s.isBusy then pushMoves [.wait] s else s)
  | .copy =>
    let r := readReg .olen s
    let moves := (List.range r.1.toNat).map HostAct.move
    .next (pushMoves (moves ++ [.wr 2 r.1.toNat]) (logRead r.1 r.2))
  | .move i =>
    if ByteSpace.obuf.indexWellFormed s.cfg i && ByteSpace.ibuf.indexWellFormed s.cfg i then
      let r := portRead 8 ((s.byteAt .obuf i).setWidth 35) s
      .next (portWrite (fun s => s.putByte .ibuf i (r.1.setWidth 8)) (logRead r.1 r.2))
    else .refused .noSuchElement
  | .reset => .next (resetEvent s)

/-- The engine completes the command CMDR names (R216, R218). Acceptance is part of `exec`; on an accepted state it changes nothing
(log 7). -/
def engineTurn (s : State) : Host.Outcome State Fault Refusal :=
  match commandOfOpcode s.cmdr with
  | some i => exec i s
  | none => .fault .cmdrHoldsNoOpcode

/-- The move an agent makes next (R215, R49): while BUSY the engine completes its command, after as many host moves as land in the
interval; otherwise the host makes its next move; with no move left the block idles (R224, R258). -/
def nextMove (s : State) : Host.Outcome State Fault Refusal :=
  if s.isBusy then
    match s.host.script, s.host.turns with
    | a :: rest, n + 1 => hostMove a (s.withHost { s.host with script := rest, turns := n })
    | _, _ => engineTurn (s.withHost { s.host with turns := 0 })
  else
    match s.host.script with
    | a :: rest => hostMove a (s.withHost { s.host with script := rest })
    | [] => .next s

/-- The command word placed as the host's next move, with the BUSY interval of an earlier command ended (log 17). -/
def placeWord (s : State) (w : Option Word) : State :=
  let s := if s.isBusy then s.withStatus (setStatusState s.status stIdle) else s
  match w with
  | some v => s.withHost { s.host with script := .cmd v 0 :: s.host.script }
  | none => s

/-! ### The host script's pseudo-instructions (R77) as lists of moves -/

/-- Byte writes to a space from index `i` on. -/
def writesFrom (sp : ByteSpace) : Nat → List Byte → List HostAct
  | _, [] => []
  | i, v :: vs => .wrb sp i v :: writesFrom sp (i + 1) vs

/-- `LOAD space, b0 b1 ...` (R77): the bytes, then ILEN for IBUF, PLEN for PBUF. -/
def loadMoves (sp : ByteSpace) (bytes : List Byte) : List HostAct :=
  writesFrom sp 0 bytes ++
    match sp with
    | .ibuf => [.wr 2 bytes.length]
    | .pbuf => [.wr 7 bytes.length]
    | .obuf => []
    | .alphaSym => []

/-- The entry writes of `ALPHA` from entry `j` on. -/
def entryMovesFrom : Nat → List (Byte × Word) → List HostAct
  | _, [] => []
  | j, e :: es => .wrb .alphaSym j e.1 :: .wrf j e.2 :: entryMovesFrom (j + 1) es

/-- `ALPHA (s0,f0) (s1,f1) ...` (R77). -/
def alphabetMoves (es : List (Byte × Word)) : List HostAct := entryMovesFrom 0 es ++ [.wr 6 es.length]

/-- `RUN mnemonic` (R77). -/
def runMoves (i : Instr) : List HostAct := [.cmd (encodeWord i) 0, .wait]

end Sys2Proof.Machine
end

