-- ==== Sys2Proof/Machine/Step.lean ====
section
/-! DEFINITION. One step of the machine, and where it finds its next command. -/

namespace Sys2Proof.Machine

/-- One step: the next move of the agent that has it (`nextMove`). -/
def step (s : State) : Host.Outcome State Fault Refusal := nextMove s

/-- The state with a command word as the host's next move, so that the very next step accepts and runs it (log 17). -/
def State.withFetchWord (s : State) (nbits w : Nat) : State := placeWord s (tableWord nbits w)

end Sys2Proof.Machine
end

