-- ==== Sys2Proof/Safety.lean ====
section
/-! DEFINITION. The terms claims are stated in: what the host sees (R24), what a command leaves alone, how it ended (R218, R249), whose move a step makes (R49), what CHECK accepts (R196),
the invariants of a state (R11, R21, R27, R48), and reference readings of the tree walk (R172) and the traversal (R141). -/

namespace Sys2Proof.Machine

/-! ### What is the same in two states -/

/-- Everything outside the block and the parameters of the instance: no command touches these. -/
def SameWorld (s t : State) : Prop :=
  t.cfg = s.cfg ∧ t.host = s.host ∧ t.epoch = s.epoch ∧ t.draws = s.draws

/-- Every byte of a space reads as before. -/
def SameBytes (sp : ByteSpace) (s t : State) : Prop := ∀ i, t.byteAt sp i = s.byteAt sp i

/-- Every byte of a space from index `n` on reads as before. -/
def SameBytesFrom (sp : ByteSpace) (n : Nat) (s t : State) : Prop := ∀ i, n ≤ i → t.byteAt sp i = s.byteAt sp i

/-- Every entry of the Alphabet table from entry `n` on reads as before. -/
def SameEntriesFrom (n : Nat) (s t : State) : Prop :=
  ∀ j, n ≤ j → t.byteAt .alphaSym j = s.byteAt .alphaSym j ∧ t.freqAt j = s.freqAt j

/-- Equality of Containers (R16): CNT, K, the K entries with full frequencies, PLEN and the PLEN payload bytes. -/
def SameContainer (s t : State) : Prop :=
  t.cnt = s.cnt ∧ t.k = s.k ∧ t.plen = s.plen ∧
    (∀ j, j < s.k.toNat → t.byteAt .alphaSym j = s.byteAt .alphaSym j ∧ t.freqAt j = s.freqAt j) ∧
    (∀ i, i < s.plen.toNat → t.byteAt .pbuf i = s.byteAt .pbuf i)

/-- The host-visible state (R24): the registers of R11 and every element of the memories. -/
def SameHostView (s t : State) : Prop :=
  t.status = s.status ∧ t.ilen = s.ilen ∧ t.olen = s.olen ∧ t.cnt = s.cnt ∧ t.poff = s.poff ∧ t.k = s.k ∧
    t.plen = s.plen ∧ t.bb.nbits = s.bb.nbits ∧ (∀ sp, SameBytes sp s t) ∧ (∀ j, t.freqAt j = s.freqAt j)

/-! ### How a command ended -/

/-- The bits of STATUS that R13 says nothing writes, and FTRUNC, are as before. -/
def StatusRestKept (s t : State) : Prop :=
  statusZero t.status = statusZero s.status ∧ statusFtrunc t.status = statusFtrunc s.status

/-- Success (R218): STATE = DONE, ERR = ERR_NONE. -/
def EndedDone (t : State) : Prop := statusState t.status = stDone ∧ statusErr t.status = errNumber .none

/-- Failure (R218, R249): STATE = ERROR, ERR the code. -/
def EndedError (e : ErrCode) (t : State) : Prop := statusState t.status = stError ∧ statusErr t.status = errNumber e

/-! ### Whose move a step makes -/

/-- The step makes the host move `a` (R41, R49): it heads the script, and the block is not BUSY or a host move still lands. -/
def HostMakes (a : HostAct) (s : State) : Prop :=
  (s.isBusy = false ∨ s.host.turns ≠ 0) ∧ ∃ rest, s.host.script = a :: rest

/-- The step is the engine's (R49): the block is BUSY and no host move is left to land. -/
def EngineMoves (s : State) : Prop := s.isBusy = true ∧ (s.host.script = [] ∨ s.host.turns = 0)

/-- The move writes the word `w` to CMD (R11, R216): by name, or through register number 0. -/
def WritesCmd (a : HostAct) (w : Word) : Prop := (∃ n, a = .cmd w n) ∨ ∃ v, a = .wr 0 v ∧ BitVec.ofNat 32 v = w

/-- The move writes the word `w` to CMD, and no host move lands in the BUSY interval it may begin (log 9). -/
def IssuesAtOnce (a : HostAct) (w : Word) : Prop := a = .cmd w 0 ∨ ∃ v, a = .wr 0 v ∧ BitVec.ofNat 32 v = w

/-! ### The image DESERIALIZE reads -/

/-- The payload offset P the image names (R64). -/
def namedOffset (s : State) : Nat := 256 * (s.byteAt .ibuf 8).toNat + (s.byteAt .ibuf 9).toNat

/-- The image passes every test of CHECK (R196). -/
def PassesCheck (s : State) : Prop :=
  s.ilen.toNat ≤ s.cfg.ibufCap ∧ 4 ≤ s.ilen.toNat ∧ s.byteAt .ibuf 0 = 0x48#8 ∧ s.byteAt .ibuf 1 = 0x55#8 ∧
    s.byteAt .ibuf 2 = 0x46#8 ∧ s.byteAt .ibuf 3 = 0x46#8 ∧ 10 ≤ s.ilen.toNat ∧
    10 < namedOffset s ∧ namedOffset s < s.ilen.toNat ∧ (namedOffset s - 10) % 2 = 0 ∧
    (namedOffset s - 10) / 2 ≤ 256 ∧ s.ilen.toNat - namedOffset s ≤ s.cfg.pbufCap

/-! ### Invariants -/

/-- R27 (a) and (b), R14. -/
def StatusInv (s : State) : Prop :=
  statusZero s.status = 0#32 ∧ (statusState s.status = stError ↔ statusErr s.status ≠ 0#4)

/-- Every host-visible memory is in its canonical form and lists only elements that exist (R40, R48). -/
def MemoriesInv (s : State) : Prop :=
  (Memory.wf s.ibuf ∧ Memory.below s.ibuf s.cfg.ibufCap) ∧ (Memory.wf s.obuf ∧ Memory.below s.obuf s.cfg.obufCap) ∧
    (Memory.wf s.pbuf ∧ Memory.below s.pbuf s.cfg.pbufCap) ∧
    (Memory.wf s.alphaSym ∧ Memory.below s.alphaSym Config.alphaCap) ∧
    (Memory.wf s.alphaFreq ∧ Memory.below s.alphaFreq Config.alphaCap)

/-- The registers only the engine writes hold legal values (R11), and `RP ≤ NBITS` (R21), on a legal instance (R7). -/
def RegistersInv (s : State) : Prop :=
  s.cfg.wellFormed = true ∧ s.olen.toNat ≤ s.cfg.obufCap ∧ s.poff.toNat ≤ 522 ∧
    s.bb.nbits.toNat ≤ s.cfg.bitbufCap ∧ s.bb.rp.toNat ≤ s.bb.nbits.toNat

/-- While BUSY, CMDR holds the opcode of a command (R216). -/
def SequencerInv (s : State) : Prop := s.isBusy = true → ∃ i : Instr, s.cmdr = opcodeOf i

/-! ### Reference readings of the loops -/

/-- How a walk over a bit sequence ends. -/
inductive WalkEnd where
  | allOut      -- the wanted bytes are out (R172)
  | exhausted   -- a bit is wanted and none is left (R176)
  | badNode     -- a child is neither LEAF nor INTERNAL (R177)
  deriving DecidableEq, Repr

/-- The walk of R172 over a bit sequence: `n` bytes still wanted, the walker at node `cur`; how it ends and the bytes it gives. -/
def walkBits (t : TreeBuilder) : Bits → BitVec 9 → Nat → WalkEnd × List Byte
  | _, _, 0 => (.allOut, [])
  | [], _, _ + 1 => (.exhausted, [])
  | b :: bs, cur, n + 1 =>
    let c := childOf (nodeAt t cur.toNat) b
    match (nodeAt t c.toNat).tag with
    | .leaf =>
      let r := walkBits t bs t.root n
      (r.1, (nodeAt t c.toNat).byte :: r.2)
    | .internal => walkBits t bs c (n + 1)
    | .empty => (.badNode, [])
    | .reserved => (.badNode, [])

/-- The traversal of R141 from node `n` with the given prefix: the code-map writes in order. `fuel` bounds the depth. -/
def visit (t : TreeBuilder) : Nat → BitVec 9 → Bits → List (Byte × Bits)
  | 0, _, _ => []
  | fuel + 1, n, p =>
    match (nodeAt t n.toNat).tag with
    | .leaf => [((nodeAt t n.toNat).byte, p)]
    | .internal =>
      visit t fuel (nodeAt t n.toNat).left (p ++ [false]) ++ visit t fuel (nodeAt t n.toNat).right (p ++ [true])
    | .empty => []
    | .reserved => []

/-- The distinct bytes of an input in order of first occurrence (R111 (a)). -/
def firstOccurrences : List Byte → List Byte → List Byte
  | seen, [] => seen
  | seen, b :: bs => if b ∈ seen then firstOccurrences seen bs else firstOccurrences (seen ++ [b]) bs

/-- The Alphabet of an input (R110, R111): each distinct byte, in order of first occurrence, with its number of occurrences. -/
def alphabetOf (input : List Byte) : List (Byte × Nat) :=
  (firstOccurrences [] input).map (fun b => (b, input.count b))

/-- The bytes ENCODE reads, `IBUF[0..ILEN−1]`. -/
def inputOf (s : State) : List Byte := s.bytesFrom .ibuf 0 s.ilen.toNat

/-- The Alphabet ENCODE builds from the input, with 32-bit counts (R113). -/
def scannedAlphabet (s : State) : List (Byte × Word) :=
  (alphabetOf (inputOf s)).map (fun e => (e.1, BitVec.ofNat 32 e.2))

/-- The bits of a payload, in stream order (R95). -/
def payloadBits (s : State) : Bits :=
  (s.bytesFrom .pbuf 0 s.plen.toNat).flatMap (unpackByte s.cfg.packOrder)

end Sys2Proof.Machine
end

