-- ==== Sys2Proof/Certificates/Slice0/Obligations.lean ====
section
/-! DEFINITION. The statements for the provers. Each docstring names the rule of spec/ it formalises. -/

open Sys2Proof Sys2Proof.Machine

/-! ### Reset, decoding, dispatch -/

/-- R26 (10_state.md section 4): STATUS and the seven data registers are 0, the memories hold the contents drawn at reset (free
values), and the Container is the empty one. -/
def Obligations.ResetLeavesTheStatedValues : Prop :=
  State.reset.status = 0x00000000#32 ∧ State.reset.ilen = 0 ∧ State.reset.olen = 0 ∧ State.reset.cnt = 0 ∧
    State.reset.poff = 0 ∧ State.reset.k = 0 ∧ State.reset.plen = 0 ∧ State.reset.bb.nbits = 0 ∧
    (∀ sp i, State.reset.byteAt sp i = Config.unwrittenByte 0 sp i) ∧
    (∀ j, State.reset.freqAt j = Config.unwrittenFreq 0 j)

/-- R71 (30_encoding.md section 2): the four words of the opcode map, and words with a wrong opcode or a non-zero bit above. -/
def Obligations.CommandWordsReadAsTheMapSays : Prop :=
  decodeWord 0x00000001#32 = .ok .encode ∧ decodeWord 0x00000002#32 = .ok .decode ∧
    decodeWord 0x00000003#32 = .ok .serialize ∧ decodeWord 0x00000004#32 = .ok .deserialize ∧
    decodeWord 0x00000000#32 = .error .opcode ∧ decodeWord 0x00000005#32 = .error .opcode ∧
    decodeWord 0x00000101#32 = .error .zeroField ∧ decodeWord 0xFFFFFFFF#32 = .error .zeroField

/-- R70, R71: over all 2^32 words, a word decodes to a command exactly when it is that command's word, and decodes at all exactly
when its bits 31:8 are zero and its opcode is listed. -/
def Obligations.DecodeInvertsEncodeOnAllWords : Prop :=
  (∀ (w : Word) (i : Instr), decodeWord w = .ok i ↔ w = encodeWord i) ∧
    (∀ w : Word, (∃ i, decodeWord w = .ok i) ↔ commandWordWellFormed w = true) ∧
    (∀ (i : Instr) (nbits : Nat), 8 ≤ nbits → decodeTableWord nbits (encodeWord i).toNat = some i)

/-- R216: when the host's next move writes a command's word to CMD, by name or through register number 0, and no host move lands in
its BUSY interval, the step is `exec` of that command on the state without the move; a table word placed by `withFetchWord` is
run by the very next step. -/
def Obligations.StepRunsTheDecodedCommand : Prop :=
  (∀ (s : State) (a : HostAct) (w : Word) (i : Instr) (rest : List HostAct), s.isBusy = false →
      s.host.script = a :: rest → IssuesAtOnce a w → decodeWord w = .ok i →
      step s = exec i (s.withHost { s.host with script := rest })) ∧
    (∀ (s : State) (nbits w : Nat) (i : Instr), s.isBusy = false → decodeTableWord nbits w = some i →
      step (s.withFetchWord nbits w) = exec i s)

/-- R217: a word that is no command's, written to CMD, by name or through register number 0, while STATE is not BUSY, sets STATE = ERROR and ERR = ERR_BAD_CMD; nothing
else changes, FTRUNC included, and STATE does not pass through BUSY (one step ends it); the next command clears the error. -/
def Obligations.IllegalWordSetsBadCmdOnly : Prop :=
  ∀ (s : State) (a : HostAct) (w : Word) (rest : List HostAct), s.isBusy = false →
    s.host.script = a :: rest → WritesCmd a w → (∀ i : Instr, w ≠ encodeWord i) →
    ∃ t, step s = .next t ∧ EndedError .badCmd t ∧ StatusRestKept s t ∧
      t = (s.withHost { s.host with script := rest }).withStatus t.status ∧
      ∀ i : Instr, ∃ u, exec i t = .next u ∧ statusErr u.status ≠ errNumber .badCmd

/-- R216, first half: acceptance sets ERR = 0, CMDR to the opcode and STATE = BUSY, and reads and writes nothing else (here with host
moves landing in the BUSY interval, so that the interval is seen). -/
def Obligations.AcceptanceSetsBusy : Prop :=
  ∀ (s : State) (i : Instr) (n : Nat) (rest : List HostAct), s.isBusy = false →
    s.host.script = .cmd (encodeWord i) (n + 1) :: rest →
    ∃ t, step s = .next t ∧ statusState t.status = stBusy ∧ statusErr t.status = errNumber .none ∧
      StatusRestKept s t ∧ t.cmdr = (encodeWord i).setWidth 8 ∧
      t = ((s.withHost { script := rest, reads := s.host.reads, turns := n + 1 }).withCmdr t.cmdr).withStatus t.status

/-- R216, R218, R49 (the split of a BUSY interval into moves is the model's, log 9): with no host move left to land, the engine
completes the command CMDR names; and acceptance before completion changes nothing, since `exec` starts with it. -/
def Obligations.EngineCompletesTheAcceptedCommand : Prop :=
  (∀ (s : State) (i : Instr), s.isBusy = true → s.cmdr = opcodeOf i → (s.host.script = [] ∨ s.host.turns = 0) →
      step s = exec i (s.withHost { s.host with turns := 0 })) ∧
    (∀ (s : State) (i : Instr), exec i (accept i s) = exec i s)

/-- R224, R258 (that a step exists is the model's, log 8): with no move left and no command running the block holds its state. -/
def Obligations.IdleBlockHoldsItsState : Prop :=
  ∀ s : State, s.isBusy = false → s.host.script = [] → step s = .next s

/-- R218: every command ends, in exactly one of two ways: DONE with ERR = 0, or ERROR with a code that is not 0. -/
def Obligations.EveryCommandEnds : Prop :=
  ∀ (i : Instr) (s : State), ∃ t, exec i s = .next t ∧
    (EndedDone t ∨ ∃ e : ErrCode, e ≠ .none ∧ EndedError e t)

/-! ### The host's moves -/

/-- R41, while BUSY: a host write of any element, or to CMD, changes nothing; a STATUS read returns STATUS; a read of any other
element returns some value of the element's width (R11) and changes nothing in the block. -/
def Obligations.BusyBlockIgnoresTheHost : Prop :=
  ∀ s : State, s.isBusy = true →
    (∀ r v, r < 9 → hostMove (.wr r v) s = .next s) ∧
    (∀ sp i v, i < sp.size s.cfg → hostMove (.wrb sp i v) s = .next s) ∧
    (∀ j v, j < 256 → hostMove (.wrf j v) s = .next s) ∧
    (∀ w n, hostMove (.cmd w n) s = .next s) ∧
    hostMove (.rd 1) s = .next (logRead (s.status.setWidth 35) s) ∧
    (∀ n, n < 9 → n ≠ 1 → ∃ (r : Reg) (v : Datum), regOfNumber n = some r ∧ v.toNat < 2 ^ regWidth r ∧
      hostMove (.rd n) s = .next (logRead v (s.withDraws (s.draws + 1)))) ∧
    (∀ sp i, i < sp.size s.cfg →
      ∃ v : Byte, hostMove (.rdb sp i) s = .next (logRead (v.setWidth 35) (s.withDraws (s.draws + 1)))) ∧
    (∀ j, j < 256 →
      ∃ v : Word, hostMove (.rdf j) s = .next (logRead (v.setWidth 35) (s.withDraws (s.draws + 1))))

/-- R11, R41, R46: while not BUSY a read returns the element, bits above its width 0, CMD reading 0, and changes nothing: the new
state differs from the old only in the host's record of the value. -/
def Obligations.HostReadsReturnTheElement : Prop :=
  ∀ s : State, s.isBusy = false →
    hostMove (.rd 0) s = .next (logRead 0#35 s) ∧
    hostMove (.rd 1) s = .next (logRead (s.status.setWidth 35) s) ∧
    hostMove (.rd 2) s = .next (logRead (s.ilen.setWidth 35) s) ∧
    hostMove (.rd 3) s = .next (logRead (s.olen.setWidth 35) s) ∧
    hostMove (.rd 4) s = .next (logRead (s.cnt.setWidth 35) s) ∧
    hostMove (.rd 5) s = .next (logRead (s.poff.setWidth 35) s) ∧
    hostMove (.rd 6) s = .next (logRead (s.k.setWidth 35) s) ∧
    hostMove (.rd 7) s = .next (logRead (s.plen.setWidth 35) s) ∧
    hostMove (.rd 8) s = .next (logRead s.bb.nbits s) ∧
    (∀ sp i, i < sp.size s.cfg → hostMove (.rdb sp i) s = .next (logRead ((s.byteAt sp i).setWidth 35) s)) ∧
    (∀ j, j < 256 → hostMove (.rdf j) s = .next (logRead ((s.freqAt j).setWidth 35) s))

/-- R11, R219: while not BUSY a write to ILEN, CNT, K or PLEN stores the value cut to the register's width, with no check and no
other change; a write to STATUS, OLEN, POFF or NBITS is ignored. -/
def Obligations.HostRegisterWritesAreCutToWidth : Prop :=
  ∀ (s : State) (v : Nat), s.isBusy = false →
    (∃ t, hostMove (.wr 2 v) s = .next t ∧ t.ilen.toNat = v % 2 ^ 32 ∧ t = s.withIlen t.ilen) ∧
    (∃ t, hostMove (.wr 4 v) s = .next t ∧ t.cnt.toNat = v % 2 ^ 32 ∧ t = s.withCnt t.cnt) ∧
    (∃ t, hostMove (.wr 6 v) s = .next t ∧ t.k.toNat = v % 2 ^ 9 ∧ t = s.withK t.k) ∧
    (∃ t, hostMove (.wr 7 v) s = .next t ∧ t.plen.toNat = v % 2 ^ 32 ∧ t = s.withPlen t.plen) ∧
    (∀ r, r = 1 ∨ r = 3 ∨ r = 5 ∨ r = 8 → hostMove (.wr r v) s = .next s)

/-- R40, R41, R46: while not BUSY a write of one element of a byte space or of ALPHA_FREQ makes that element read as the value
written and changes no other element of any space and no register. -/
def Obligations.HostElementWritesMoveOneElement : Prop :=
  ∀ s : State, s.isBusy = false →
    (∀ sp i v, i < sp.size s.cfg → ∃ t, hostMove (.wrb sp i v) s = .next t ∧ t.byteAt sp i = v ∧
      (∀ sq j, ¬ (sq = sp ∧ j = i) → t.byteAt sq j = s.byteAt sq j) ∧ (∀ j, t.freqAt j = s.freqAt j) ∧
      (∀ r, t.regValue r = s.regValue r) ∧ SameWorld s t) ∧
    (∀ j v, j < 256 → ∃ t, hostMove (.wrf j v) s = .next t ∧ t.freqAt j = v ∧
      (∀ n, n ≠ j → t.freqAt n = s.freqAt n) ∧ (∀ sp, SameBytes sp s t) ∧
      (∀ r, t.regValue r = s.regValue r) ∧ SameWorld s t)

/-- R48: a move at a register number above 8, a byte index at or above the space's capacity or an Alphabet index above 255 names no
element: the model refuses it, in every STATE. -/
def Obligations.MovesOutsideASpaceAreRefused : Prop :=
  ∀ s : State,
    (∀ n, 9 ≤ n → hostMove (.rd n) s = .refused .noSuchElement) ∧
    (∀ n v, 9 ≤ n → hostMove (.wr n v) s = .refused .noSuchElement) ∧
    (∀ sp i, sp.size s.cfg ≤ i → hostMove (.rdb sp i) s = .refused .noSuchElement) ∧
    (∀ sp i v, sp.size s.cfg ≤ i → hostMove (.wrb sp i v) s = .refused .noSuchElement) ∧
    (∀ j, 256 ≤ j → hostMove (.rdf j) s = .refused .noSuchElement) ∧
    (∀ j v, 256 ≤ j → hostMove (.wrf j v) s = .refused .noSuchElement)

/-- R77: WAIT reads STATUS and stays while STATE is BUSY, and passes otherwise; COPY reads OLEN and then moves that many bytes of OBUF
to IBUF, one a move, before it writes ILEN; a byte's move changes no other byte, no Alphabet entry and no register. -/
def Obligations.WaitAndCopyFollowTheScriptNotation : Prop :=
  (∀ s : State, s.isBusy = true → hostMove .wait s = .next (pushMoves [.wait] (logRead (s.status.setWidth 35) s))) ∧
    (∀ s : State, s.isBusy = false → hostMove .wait s = .next (logRead (s.status.setWidth 35) s)) ∧
    (∀ s : State, s.isBusy = false → hostMove .copy s =
      .next (pushMoves ((List.range s.olen.toNat).map HostAct.move ++ [.wr 2 s.olen.toNat])
        (logRead (s.olen.setWidth 35) s))) ∧
    (∀ (s : State) (i : Nat), s.isBusy = false → i < s.cfg.obufCap → i < s.cfg.ibufCap →
      ∃ t, hostMove (.move i) s = .next t ∧ t.byteAt .ibuf i = s.byteAt .obuf i ∧
        (∀ j, j ≠ i → t.byteAt .ibuf j = s.byteAt .ibuf j) ∧ SameBytes .obuf s t ∧ SameBytes .pbuf s t ∧
        SameEntriesFrom 0 s t ∧ (∀ r, t.regValue r = s.regValue r))

/-- R265, R266: RESET in any state, BUSY included: STATE becomes IDLE with ERR and FTRUNC 0, the data registers become 0, and every
memory element holds the contents of a new draw. The instance's parameters stay. -/
def Obligations.ResetEventInAnyState : Prop :=
  ∀ s : State, ∃ t, hostMove .reset s = .next t ∧ t.status = 0x00000000#32 ∧ t.isBusy = false ∧ t.ilen = 0 ∧ t.olen = 0 ∧
    t.cnt = 0 ∧ t.poff = 0 ∧ t.k = 0 ∧ t.plen = 0 ∧ t.bb.nbits = 0 ∧ t.cfg = s.cfg ∧
    (∀ sp i, t.byteAt sp i = Config.unwrittenByte (s.epoch + 1) sp i) ∧
    (∀ j, t.freqAt j = Config.unwrittenFreq (s.epoch + 1) j)

/-! ### SERIALIZE -/

/-- R191, R193: SERIALIZE whole. Over capacity: ERR_CAPACITY and nothing written. Otherwise DONE, the image in OBUF (tag, CNT and the
payload offset big-endian, the entries with frequencies modulo 256, the payload) and the bytes from OLEN on unchanged, POFF, OLEN,
and FTRUNC = 1 exactly if some frequency is 256 or more. -/
def Obligations.SerializeWritesTheImage : Prop :=
  ∀ s : State, s.cfg.wellFormed = true →
    if 256 < s.k.toNat ∨ s.cfg.pbufCap < s.plen.toNat ∨ s.cfg.obufCap < 10 + 2 * s.k.toNat + s.plen.toNat then
      ∃ t, exec .serialize s = .next t ∧ EndedError .capacity t ∧ StatusRestKept s t ∧ SameBytes .obuf s t ∧
        t.olen = s.olen ∧ t.poff = s.poff
    else
      ∃ t, exec .serialize s = .next t ∧ EndedDone t ∧ statusZero t.status = statusZero s.status ∧
        (statusFtrunc t.status = true ↔ ∃ j, j < s.k.toNat ∧ 256 ≤ (s.freqAt j).toNat) ∧
        t.poff.toNat = 10 + 2 * s.k.toNat ∧ t.olen.toNat = 10 + 2 * s.k.toNat + s.plen.toNat ∧
        t.byteAt .obuf 0 = 0x48#8 ∧ t.byteAt .obuf 1 = 0x55#8 ∧ t.byteAt .obuf 2 = 0x46#8 ∧ t.byteAt .obuf 3 = 0x46#8 ∧
        t.byteAt .obuf 4 = s.cnt.extractLsb' 24 8 ∧ t.byteAt .obuf 5 = s.cnt.extractLsb' 16 8 ∧
        t.byteAt .obuf 6 = s.cnt.extractLsb' 8 8 ∧ t.byteAt .obuf 7 = s.cnt.extractLsb' 0 8 ∧
        t.byteAt .obuf 8 = t.poff.extractLsb' 8 8 ∧ t.byteAt .obuf 9 = t.poff.extractLsb' 0 8 ∧
        (∀ j, j < s.k.toNat → t.byteAt .obuf (10 + 2 * j) = s.byteAt .alphaSym j ∧
          (t.byteAt .obuf (11 + 2 * j)).toNat = (s.freqAt j).toNat % 256) ∧
        (∀ i, i < s.plen.toNat → t.byteAt .obuf (10 + 2 * s.k.toNat + i) = s.byteAt .pbuf i) ∧
        SameBytesFrom .obuf t.olen.toNat s t

/-- R190, R191, R193: what SERIALIZE leaves alone: the Container, IBUF, ILEN, NBITS, the tree builder, the code map, the BitBuffer, the
cursors IP, CUR and CB, and every byte of OBUF outside the image (from OLEN on when it succeeds, all when it fails). -/
def Obligations.SerializeFrame : Prop :=
  ∀ s t : State, s.cfg.wellFormed = true → exec .serialize s = .next t →
    SameWorld s t ∧ t.ilen = s.ilen ∧ t.cnt = s.cnt ∧ t.k = s.k ∧ t.plen = s.plen ∧
    SameBytes .ibuf s t ∧ SameBytes .pbuf s t ∧ SameEntriesFrom 0 s t ∧
    t.tree = s.tree ∧ t.gen = s.gen ∧ t.bb = s.bb ∧
    t.cursors.ip = s.cursors.ip ∧ t.cursors.cur = s.cursors.cur ∧ t.cursors.cb = s.cursors.cb ∧
    statusZero t.status = statusZero s.status ∧
    (EndedDone t → SameBytesFrom .obuf t.olen.toNat s t) ∧
    (¬ EndedDone t → SameBytes .obuf s t ∧ t.olen = s.olen ∧ t.poff = s.poff ∧ StatusRestKept s t)

/-! ### DESERIALIZE -/

/-- R196, R251: the six tests of CHECK in their order; the first that fails gives the error code, and if none fails the command ends
DONE. Test 2 compares all four bytes with the tag. -/
def Obligations.DeserializeTestsInOrder : Prop :=
  ∀ s : State,
    ∃ t, exec .deserialize s = .next t ∧
      (let len := s.ilen.toNat
       let p := 256 * (s.byteAt .ibuf 8).toNat + (s.byteAt .ibuf 9).toNat
       if len > s.cfg.ibufCap then EndedError .capacity t
       else if len < 4 ∨ s.byteAt .ibuf 0 ≠ 0x48#8 ∨ s.byteAt .ibuf 1 ≠ 0x55#8 ∨ s.byteAt .ibuf 2 ≠ 0x46#8 ∨
           s.byteAt .ibuf 3 ≠ 0x46#8 then EndedError .fmtMagic t
       else if len < 10 then EndedError .fmtRange t
       else if ¬ (10 < p ∧ p < len) then EndedError .fmtRange t
       else if (p - 10) % 2 = 1 then EndedError .fmtOdd t
       else if (p - 10) / 2 > 256 ∨ len - p > s.cfg.pbufCap then EndedError .capacity t
       else EndedDone t)

/-- R197: when every test of CHECK passes, DESERIALIZE ends DONE with CNT, POFF, K, the k entries (wire frequency zero-extended),
PLEN and the payload taken from the image, and with every element above them unchanged; when some test fails it does not end DONE
and commits nothing. -/
def Obligations.DeserializeCommitsTheImage : Prop :=
  ∀ s : State,
    let p := namedOffset s
    let k := (p - 10) / 2
    let n := s.ilen.toNat - p
    (PassesCheck s → ∃ t, exec .deserialize s = .next t ∧ EndedDone t ∧ StatusRestKept s t ∧
      t.cnt.toNat = 2 ^ 24 * (s.byteAt .ibuf 4).toNat + 2 ^ 16 * (s.byteAt .ibuf 5).toNat +
        2 ^ 8 * (s.byteAt .ibuf 6).toNat + (s.byteAt .ibuf 7).toNat ∧
      t.poff.toNat = p ∧ t.k.toNat = k ∧ t.plen.toNat = n ∧
      (∀ j, j < k → t.byteAt .alphaSym j = s.byteAt .ibuf (10 + 2 * j) ∧
        (t.freqAt j).toNat = (s.byteAt .ibuf (11 + 2 * j)).toNat) ∧
      (∀ i, i < n → t.byteAt .pbuf i = s.byteAt .ibuf (p + i)) ∧
      SameEntriesFrom k s t ∧ SameBytesFrom .pbuf n s t) ∧
    (¬ PassesCheck s → ∃ t, exec .deserialize s = .next t ∧ ¬ EndedDone t ∧ StatusRestKept s t ∧
      t.cnt = s.cnt ∧ t.poff = s.poff ∧ t.k = s.k ∧ t.plen = s.plen ∧ SameEntriesFrom 0 s t ∧ SameBytes .pbuf s t)

/-- R195, R250: what DESERIALIZE leaves alone: IBUF, ILEN, OBUF, OLEN, NBITS, FTRUNC, the tree builder, the code map, the BitBuffer, the
cursors OC, CUR and CB; entries and payload bytes above what it commits; and when it fails, the Container and POFF too. -/
def Obligations.DeserializeFrame : Prop :=
  ∀ s t : State, exec .deserialize s = .next t →
    SameWorld s t ∧ t.ilen = s.ilen ∧ t.olen = s.olen ∧ StatusRestKept s t ∧ SameBytes .ibuf s t ∧ SameBytes .obuf s t ∧
    t.tree = s.tree ∧ t.gen = s.gen ∧ t.bb = s.bb ∧
    t.cursors.oc = s.cursors.oc ∧ t.cursors.cur = s.cursors.cur ∧ t.cursors.cb = s.cursors.cb ∧
    (EndedDone t → SameEntriesFrom t.k.toNat s t ∧ SameBytesFrom .pbuf t.plen.toNat s t) ∧
    (¬ EndedDone t → t.cnt = s.cnt ∧ t.poff = s.poff ∧ t.k = s.k ∧ t.plen = s.plen ∧ SameBytes .pbuf s t ∧
      SameEntriesFrom 0 s t)

/-- R207, first half, "deserialize(serialize(C)) == C": a valid Container that fits is serialised with FTRUNC = 0, and from any state
of the same instance whose input is that image, whatever else it holds, DESERIALIZE gives an equal Container. -/
def Obligations.ContainerRoundTrip : Prop :=
  ∀ s : State, s.cfg.wellFormed = true → 1 ≤ s.k.toNat → s.k.toNat ≤ 256 → 1 ≤ s.plen.toNat →
    s.plen.toNat ≤ s.cfg.pbufCap → (∀ j, j < s.k.toNat → (s.freqAt j).toNat ≤ 255) →
    10 + 2 * s.k.toNat + s.plen.toNat ≤ s.cfg.obufCap → 10 + 2 * s.k.toNat + s.plen.toNat ≤ s.cfg.ibufCap →
    ∃ t, exec .serialize s = .next t ∧ EndedDone t ∧ statusFtrunc t.status = false ∧
      ∀ u : State, u.cfg = s.cfg → u.ilen = t.olen →
        (∀ i, i < t.olen.toNat → u.byteAt .ibuf i = t.byteAt .obuf i) →
        ∃ v, exec .deserialize u = .next v ∧ EndedDone v ∧ SameContainer s v

/-- R207, the converse: an image DESERIALIZE accepts is reproduced byte for byte, with OLEN = ILEN, by SERIALIZE of the Container it
gave, provided ILEN ≤ OBUF_CAP. -/
def Obligations.ImageRoundTrip : Prop :=
  ∀ s t : State, exec .deserialize s = .next t → EndedDone t →
    s.ilen.toNat ≤ s.cfg.obufCap →
    ∃ v, exec .serialize t = .next v ∧ EndedDone v ∧ v.olen = s.ilen ∧
      ∀ i, i < s.ilen.toNat → v.byteAt .obuf i = s.byteAt .ibuf i

/-! ### DECODE -/

/-- R178: the capacity checks come first, whatever else is wrong with the Container: ERR_CAPACITY, OLEN = 0, and nothing else the host
sees changes. -/
def Obligations.DecodeRefusesOverCapacity : Prop :=
  ∀ s : State, 256 < s.k.toNat ∨ s.cfg.pbufCap < s.plen.toNat ∨ s.cfg.obufCap < s.cnt.toNat →
    ∃ t, exec .decode s = .next t ∧ EndedError .capacity t ∧ StatusRestKept s t ∧ t.olen = 0 ∧ SameBytes .obuf s t ∧
      SameContainer s t ∧ t.bb.nbits = s.bb.nbits

/-- R175: with CNT = 0 DECODE ends DONE with OLEN = 0 for every K within capacity, the empty Alphabet included; with K = 0 and
CNT ≥ 1 it ends with ERR_DEC_NODE and OLEN = 0. In both cases no byte is written and the payload is not unpacked. -/
def Obligations.DecodeOfEmptyAlphabetOrCount : Prop :=
  ∀ s : State, s.k.toNat ≤ 256 → s.plen.toNat ≤ s.cfg.pbufCap → s.cnt.toNat ≤ s.cfg.obufCap →
    (s.cnt = 0 → ∃ t, exec .decode s = .next t ∧ EndedDone t ∧ t.olen = 0 ∧ SameBytes .obuf s t ∧
      t.bb.nbits = s.bb.nbits) ∧
    (s.k = 0 → s.cnt ≠ 0 → ∃ t, exec .decode s = .next t ∧ EndedError .decNode t ∧ t.olen = 0 ∧
      SameBytes .obuf s t ∧ t.bb.nbits = s.bb.nbits)

/-- R174: with K = 1 and CNT ≥ 1 DECODE ends DONE with OLEN = CNT and CNT copies of ALPHA[0].sym in OBUF, for every payload and
every frequency; the BitBuffer is not touched. -/
def Obligations.DecodeOfOneSymbolNeedsNoPayload : Prop :=
  ∀ s : State, s.k = 1 → s.cnt ≠ 0 → s.plen.toNat ≤ s.cfg.pbufCap → s.cnt.toNat ≤ s.cfg.obufCap →
    ∃ t, exec .decode s = .next t ∧ EndedDone t ∧ StatusRestKept s t ∧ t.olen = s.cnt ∧
      (∀ i, i < s.cnt.toNat → t.byteAt .obuf i = s.byteAt .alphaSym 0) ∧ SameBytesFrom .obuf s.cnt.toNat s t ∧
      t.bb = s.bb

/-- R171, R172, R176, R177, R179: for K ≥ 2 and CNT ≥ 1 within capacity, DECODE walks the rebuilt tree over the payload's bits: the bytes the
walk gives stand in OBUF from index 0 on and no other byte changes; if CNT bytes come out it ends DONE with OLEN = CNT, if the
bits run out it ends with ERR_DEC_EXHAUSTED and OLEN = 0; the walk never meets a bad node; NBITS = 8 × PLEN. -/
def Obligations.DecodeWalksTheRebuiltTree : Prop :=
  ∀ s : State, 2 ≤ s.k.toNat → s.k.toNat ≤ 256 → s.cnt ≠ 0 →
    s.plen.toNat ≤ s.cfg.pbufCap → s.cnt.toNat ≤ s.cfg.obufCap →
    let tree := buildTree s.alphabet s.tree
    let w := walkBits tree (payloadBits s) tree.root s.cnt.toNat
    w.1 ≠ .badNode ∧ ∃ t, exec .decode s = .next t ∧ StatusRestKept s t ∧ t.bb.nbits.toNat = 8 * s.plen.toNat ∧
      (∀ i, (h : i < w.2.length) → t.byteAt .obuf i = w.2[i]) ∧ SameBytesFrom .obuf w.2.length s t ∧
      (w.1 = .allOut → w.2.length = s.cnt.toNat ∧ EndedDone t ∧ t.olen = s.cnt) ∧
      (w.1 = .exhausted → EndedError .decExhausted t ∧ t.olen = 0)

/-- R177, R130 (h), R245: the bad-node arm of the walk is dead: with K ≥ 1 DECODE never ends with ERR_DEC_NODE, from any state
whatever its tree memory held before. -/
def Obligations.DecodeNeverMeetsABadNode : Prop :=
  ∀ s t : State, 1 ≤ s.k.toNat → exec .decode s = .next t → ¬ EndedError .decNode t

/-- R173, R275: what DECODE does not need it ignores: if it ends DONE, then so it does, with the same output, on every Container that
differs only in further payload bytes behind the payload. -/
def Obligations.DecodeIgnoresTrailingPayload : Prop :=
  ∀ s t u : State, exec .decode s = .next t → EndedDone t →
    u.cfg = s.cfg → u.cnt = s.cnt → u.k = s.k →
    (∀ j, j < s.k.toNat → u.byteAt .alphaSym j = s.byteAt .alphaSym j ∧ u.freqAt j = s.freqAt j) →
    s.plen.toNat ≤ u.plen.toNat → u.plen.toNat ≤ u.cfg.pbufCap →
    (∀ i, i < s.plen.toNat → u.byteAt .pbuf i = s.byteAt .pbuf i) →
    ∃ v, exec .decode u = .next v ∧ EndedDone v ∧ v.olen = t.olen ∧
      ∀ i, i < t.olen.toNat → v.byteAt .obuf i = t.byteAt .obuf i

/-- R170, R179: what DECODE leaves alone: the Container and the rest of the Alphabet and payload memories, IBUF, ILEN, POFF, FTRUNC, the
code map, the cursors IP, CB and J, and every byte of OBUF from CNT on. -/
def Obligations.DecodeFrame : Prop :=
  ∀ s t : State, exec .decode s = .next t →
    SameWorld s t ∧ t.ilen = s.ilen ∧ t.cnt = s.cnt ∧ t.poff = s.poff ∧ t.k = s.k ∧ t.plen = s.plen ∧
    StatusRestKept s t ∧ SameBytes .ibuf s t ∧ SameBytes .pbuf s t ∧ SameEntriesFrom 0 s t ∧ t.gen = s.gen ∧
    t.cursors.ip = s.cursors.ip ∧ t.cursors.cb = s.cursors.cb ∧ t.cursors.j = s.cursors.j ∧
    SameBytesFrom .obuf s.cnt.toNat s t

/-! ### ENCODE -/

/-- R161 (a): ILEN above IBUF_CAP ends ENCODE with ERR_CAPACITY before any write: no state but STATUS and CMDR changes. -/
def Obligations.EncodeRefusesALongInput : Prop :=
  ∀ s : State, s.cfg.ibufCap < s.ilen.toNat →
    ∃ t, exec .encode s = .next t ∧ EndedError .capacity t ∧ StatusRestKept s t ∧
      t = (s.withCmdr t.cmdr).withStatus t.status

/-- R159, R112: the empty input encodes, DONE, to the empty Container with NBITS = 0, and writes no payload byte and no entry. -/
def Obligations.EncodeOfTheEmptyInput : Prop :=
  ∀ s : State, s.ilen = 0 →
    ∃ t, exec .encode s = .next t ∧ EndedDone t ∧ StatusRestKept s t ∧ t.k = 0 ∧ t.cnt = 0 ∧ t.plen = 0 ∧
      t.bb.nbits = 0 ∧ SameBytes .pbuf s t ∧ SameEntriesFrom 0 s t

/-- R160: n ≥ 1 copies of one byte encode to one 0 bit each: K = 1, the entry (byte, n), NBITS = n, PLEN = ceil8(n), and every
payload byte 0, for every bit order. -/
def Obligations.EncodeOfOneDistinctByte : Prop :=
  ∀ (s : State) (b : Byte), s.cfg.wellFormed = true → s.ilen ≠ 0 → s.ilen.toNat ≤ s.cfg.ibufCap →
    s.ilen.toNat ≤ 8 * s.cfg.pbufCap → (∀ i, i < s.ilen.toNat → s.byteAt .ibuf i = b) →
    ∃ t, exec .encode s = .next t ∧ EndedDone t ∧ t.k = 1 ∧ t.byteAt .alphaSym 0 = b ∧ t.freqAt 0 = s.ilen ∧
      t.cnt = s.ilen ∧ t.bb.nbits.toNat = s.ilen.toNat ∧ t.plen.toNat = (s.ilen.toNat + 7) / 8 ∧
      ∀ i, i < t.plen.toNat → t.byteAt .pbuf i = 0#8

/-- R110, R111 (a), (f): SCAN leaves in K and ALPHA the distinct bytes of the input in order of first occurrence, each with its number
of occurrences; K ≤ 256; entries from K on and all other memories are unchanged. -/
def Obligations.ScanBuildsTheAlphabet : Prop :=
  ∀ s : State, (scan s).alphabet = scannedAlphabet s ∧ (scan s).k.toNat = (scannedAlphabet s).length ∧
    (scan s).k.toNat ≤ 256 ∧ (∀ e ∈ alphabetOf (inputOf s), e.2 < 2 ^ 32) ∧
    SameEntriesFrom (scannedAlphabet s).length s (scan s) ∧
    SameBytes .ibuf s (scan s) ∧ SameBytes .obuf s (scan s) ∧ SameBytes .pbuf s (scan s)

/-- R111 (b) to (e): the Alphabet of an input has distinct symbols and counts of at least 1 that sum to the input's length. -/
def Obligations.AlphabetOfAnInput : Prop :=
  ∀ input : List Byte, ((alphabetOf input).map Prod.fst).Nodup ∧ (∀ e ∈ alphabetOf input, 1 ≤ e.2) ∧
    ((alphabetOf input).map Prod.snd).sum = input.length ∧ (alphabetOf input).length ≤ 256 ∧
    (alphabetOf input).length ≤ input.length ∧ (∀ b, b ∈ input ↔ b ∈ (alphabetOf input).map Prod.fst)

/-- R156, R157, R158, R161 (b): ENCODE whole, for every input within IBUF_CAP. GENMAP never fails and every input byte has a code
(R144, R162 (a)); if the codes of the input fit the BitBuffer, ENCODE ends DONE with the Alphabet, CNT = ILEN, NBITS the number of
code bits, and the packed codes as payload; otherwise it ends with ERR_CAPACITY and the empty Container, PBUF untouched. -/
def Obligations.EncodePacksTheCodesOfTheInput : Prop :=
  ∀ s : State, s.cfg.wellFormed = true → s.ilen.toNat ≤ s.cfg.ibufCap →
    let a := scannedAlphabet s
    ∃ g, genCodes a (buildTree a s.tree) s.gen = .ok g ∧ (∀ b ∈ inputOf s, (codeOf g b).valid = true) ∧
      (let bits := (inputOf s).flatMap (fun b => (codeOf g b).code)
       if bits.length ≤ 8 * s.cfg.pbufCap then
         ∃ t, exec .encode s = .next t ∧ EndedDone t ∧ StatusRestKept s t ∧ t.alphabet = a ∧ t.cnt = s.ilen ∧
           t.bb.nbits.toNat = bits.length ∧ bbValue t.bb = bits ∧ t.plen.toNat = (bits.length + 7) / 8 ∧
           t.bytesFrom .pbuf 0 t.plen.toNat = packBytes s.cfg.packOrder t.plen.toNat bits
       else
         ∃ t, exec .encode s = .next t ∧ EndedError .capacity t ∧ StatusRestKept s t ∧ t.k = 0 ∧ t.cnt = 0 ∧ t.plen = 0 ∧
           t.bb.nbits = 0 ∧ t.bb.rp = 0 ∧ SameBytes .pbuf s t)

/-- R27 (c), R162 (b): after a successful ENCODE, K ≤ 256, CNT = ILEN, PLEN = ceil8(NBITS), the K entries have distinct symbols and
frequencies of at least 1 that sum to CNT, and ILEN ≤ NBITS ≤ 255 × ILEN. -/
def Obligations.SuccessfulEncodeContainer : Prop :=
  ∀ s t : State, s.cfg.wellFormed = true → exec .encode s = .next t → EndedDone t →
    t.k.toNat ≤ 256 ∧ t.cnt = s.ilen ∧ t.plen.toNat = (t.bb.nbits.toNat + 7) / 8 ∧
    (t.alphabet.map Prod.fst).Nodup ∧ (∀ e ∈ t.alphabet, 1 ≤ e.2.toNat) ∧
    (t.alphabet.map (fun e => e.2.toNat)).sum = t.cnt.toNat ∧
    s.ilen.toNat ≤ t.bb.nbits.toNat ∧ t.bb.nbits.toNat ≤ 255 * s.ilen.toNat

/-- R155, R161: what ENCODE leaves alone: OBUF, OLEN, POFF, IBUF, ILEN, FTRUNC, the cursors OC and CUR, every byte of PBUF from the new
PLEN on (all of PBUF when it fails), and every entry of ALPHA above those SCAN writes. -/
def Obligations.EncodeFrame : Prop :=
  ∀ s t : State, s.cfg.wellFormed = true → exec .encode s = .next t →
    SameWorld s t ∧ t.ilen = s.ilen ∧ t.olen = s.olen ∧ t.poff = s.poff ∧ StatusRestKept s t ∧
    SameBytes .ibuf s t ∧ SameBytes .obuf s t ∧ t.cursors.oc = s.cursors.oc ∧ t.cursors.cur = s.cursors.cur ∧
    SameEntriesFrom (scannedAlphabet s).length s t ∧
    (EndedDone t → SameBytesFrom .pbuf t.plen.toNat s t) ∧ (¬ EndedDone t → SameBytes .pbuf s t)

/-- R162 (d), "encoding the same buffer twice yields identical Alphabet order and identical packed payload bits": the Container is a
function of IBUF[0..ILEN−1] alone, whatever else the two states of one instance hold, hidden state included. -/
def Obligations.EncodeDependsOnTheInputAlone : Prop :=
  ∀ s s' t t' : State, s.cfg.wellFormed = true → s'.cfg = s.cfg → s'.ilen = s.ilen →
    (∀ i, i < s.ilen.toNat → s'.byteAt .ibuf i = s.byteAt .ibuf i) →
    exec .encode s = .next t → exec .encode s' = .next t' → EndedDone t →
    EndedDone t' ∧ SameContainer t t' ∧ t'.bb.nbits = t.bb.nbits

/-- R180, the round trip: if ENCODE ends DONE and CNT ≤ OBUF_CAP, DECODE of the Container it left ends DONE with OLEN = ILEN and the
input's bytes in OBUF, whatever the counts are. -/
def Obligations.DecodeInvertsEncode : Prop :=
  ∀ s t : State, s.cfg.wellFormed = true → exec .encode s = .next t → EndedDone t → t.cnt.toNat ≤ t.cfg.obufCap →
    ∃ v, exec .decode t = .next v ∧ EndedDone v ∧ v.olen = s.ilen ∧
      ∀ i, i < s.ilen.toNat → v.byteAt .obuf i = s.byteAt .ibuf i

/-! ### The units -/

/-- R92, R93, R98: pushing a sequence that fits appends it to the buffer's value; one that does not fit leaves the bits that did fit
appended and raises ERR_CAPACITY; RP is unchanged. -/
def Obligations.PushAppendsWhatFits : Prop :=
  ∀ (cap : Nat) (bits : Bits) (b : BitBuffer), cap < 2 ^ 35 → b.nbits.toNat ≤ cap →
    if b.nbits.toNat + bits.length ≤ cap then
      ∃ b', bbPushSeq cap bits b = .ok b' ∧ bbValue b' = bbValue b ++ bits ∧ b'.rp = b.rp
    else
      ∃ b', bbPushSeq cap bits b = .raised .capacity b' ∧ b'.nbits.toNat = cap ∧
        bbValue b' = bbValue b ++ bits.take (cap - b.nbits.toNat) ∧ b'.rp = b.rp

/-- R44, R94: under MSB_FIRST bit `i` of the stream is bit `7 − (i mod 8)` of payload byte `i div 8`, there are `ceil8` bytes, and the
unused low-order positions of the last byte are 0. -/
def Obligations.PackPlacesBitsMsbFirst : Prop :=
  ∀ (bits : Bits) (n : Nat), n = (bits.length + 7) / 8 →
    (packBytes .msbFirst n bits).length = n ∧
    (∀ i, (h : i < bits.length) → ((packBytes .msbFirst n bits).getD (i / 8) 0).getLsbD (7 - i % 8) = bits[i]) ∧
    (∀ i, bits.length ≤ i → i < 8 * n → ((packBytes .msbFirst n bits).getD (i / 8) 0).getLsbD (7 - i % 8) = false)

/-- R99 (a), (b), (e), for both bit orders: packing and unpacking a sequence gives it back followed by the zero bits of the padding;
unpacking bytes and packing gives the bytes back. -/
def Obligations.PackAndUnpackAreInverse : Prop :=
  ∀ order : PackOrder,
    (∀ bits : Bits, (packBytes order ((bits.length + 7) / 8) bits).flatMap (unpackByte order) =
      bits ++ List.replicate (8 * ((bits.length + 7) / 8) - bits.length) false) ∧
    (∀ bytes : List Byte, packBytes order bytes.length (bytes.flatMap (unpackByte order)) = bytes)

/-- R96: a pop at the end gives `empty` and changes nothing; any other pop gives the bit at RP and advances RP by one. -/
def Obligations.PopTakesTheNextBit : Prop :=
  ∀ b : BitBuffer, b.rp.toNat ≤ b.nbits.toNat →
    (b.rp = b.nbits → bbPopBit b = none) ∧
    (b.rp ≠ b.nbits → ∃ v b', bbPopBit b = some (v, b') ∧ (bbValue b)[b.rp.toNat]? = some v ∧
      b'.rp.toNat = b.rp.toNat + 1 ∧ b'.bits = b.bits ∧ b'.nbits = b.nbits)

/-- R9, stable sort: the result is a permutation, is ordered by key descending, and keeps the order of elements of equal key. -/
def Obligations.StableSortDescending : Prop :=
  ∀ (key : BitVec 9 → Nat) (l : List (BitVec 9)),
    (stableSortDesc key l).Perm l ∧ (stableSortDesc key l).Pairwise (fun a b => key b ≤ key a) ∧
    ∀ v, (stableSortDesc key l).filter (fun a => key a = v) = l.filter (fun a => key a = v)

/-- R130 (a) to (e): the tree of an Alphabet of 1 to 256 entries: 2K − 1 nodes, the leaves in Alphabet order, then internal nodes whose
children come earlier, left at least as frequent as right, with the exact sum as frequency; the root is the last node and
carries the sum of all frequencies. -/
def Obligations.BuiltTreeStructure : Prop :=
  ∀ (a : List (Byte × Word)) (t0 : TreeBuilder), 1 ≤ a.length → a.length ≤ 256 →
    let t := buildTree a t0
    t.nnodes.toNat = 2 * a.length - 1 ∧ t.rootv = true ∧ t.root.toNat = 2 * a.length - 2 ∧
    (∀ j, (h : j < a.length) → (nodeAt t j).tag = .leaf ∧ (nodeAt t j).byte = a[j].1 ∧
      (nodeAt t j).freq.toNat = a[j].2.toNat) ∧
    (∀ m, a.length ≤ m → m < 2 * a.length - 1 → (nodeAt t m).tag = .internal ∧
      (nodeAt t m).left.toNat < m ∧ (nodeAt t m).right.toNat < m ∧
      (nodeAt t m).freq.toNat =
        (nodeAt t (nodeAt t m).left.toNat).freq.toNat + (nodeAt t (nodeAt t m).right.toNat).freq.toNat ∧
      (nodeAt t (nodeAt t m).right.toNat).freq.toNat ≤ (nodeAt t (nodeAt t m).left.toNat).freq.toNat) ∧
    (nodeAt t t.root.toNat).freq.toNat = (a.map (fun e => e.2.toNat)).sum ∧
    (∀ m, 2 * a.length - 1 ≤ m → m < 511 → (nodeAt t m).tag = .empty)

/-- R130 (c), (f): in the tree of an Alphabet of 1 to 256 entries every node other than the root is a child of exactly one internal
node, on one side only, and the internal nodes are created in non-decreasing order of frequency. -/
def Obligations.EveryNodeHasOneParent : Prop :=
  ∀ (a : List (Byte × Word)) (t0 : TreeBuilder), 1 ≤ a.length → a.length ≤ 256 →
    let t := buildTree a t0
    (∀ n, n < 2 * a.length - 2 → ∃ m, a.length ≤ m ∧ m < 2 * a.length - 1 ∧
      (((nodeAt t m).left.toNat = n ∧ (nodeAt t m).right.toNat ≠ n) ∨
        ((nodeAt t m).right.toNat = n ∧ (nodeAt t m).left.toNat ≠ n)) ∧
      ∀ m', a.length ≤ m' → m' < 2 * a.length - 1 →
        ((nodeAt t m').left.toNat = n ∨ (nodeAt t m').right.toNat = n) → m' = m) ∧
    (∀ m, a.length ≤ m → m + 1 < 2 * a.length - 1 → (nodeAt t m).freq.toNat ≤ (nodeAt t (m + 1)).freq.toNat)

/-- R127, the tie-break: in every merge of BUILD the right child of the new node is the live node of least frequency and, among those,
of greatest index; the left child is the same of what remains. -/
def Obligations.MergeTakesLeastFrequencyGreatestIndex : Prop :=
  ∀ (a : List (Byte × Word)) (t0 : TreeBuilder) (n : Nat), a.length ≤ 256 → n + 2 ≤ a.length →
    let t := btMerge^[n] (btInit a t0)
    let live := Table.first 0 t.wln.toNat t.wl
    let x := (nodeAt (btMerge t) t.nnodes.toNat).left
    let y := (nodeAt (btMerge t) t.nnodes.toNat).right
    live.length = a.length - n ∧ live.Nodup ∧ x ∈ live ∧ y ∈ live ∧ x ≠ y ∧
    (∀ z ∈ live, z ≠ y → nodeKey t y < nodeKey t z ∨ (nodeKey t y = nodeKey t z ∧ z.toNat < y.toNat)) ∧
    (∀ z ∈ live, z ≠ y → z ≠ x → nodeKey t x < nodeKey t z ∨ (nodeKey t x = nodeKey t z ∧ z.toNat < x.toNat))

/-- R142 against R141: on the tree of an Alphabet of 2 to 256 entries the explicit-stack generator ends without error and leaves the
code map the recursive traversal writes, left before right, the later write staying (R145): an entry is valid exactly if some
leaf carries the byte, and then its code is the path of the last such leaf. -/
def Obligations.StackGeneratorIsTheTraversal : Prop :=
  ∀ (a : List (Byte × Word)) (t0 : TreeBuilder) (g0 : CodeMapGen), 2 ≤ a.length → a.length ≤ 256 →
    let t := buildTree a t0
    ∃ g, genCodes a t g0 = .ok g ∧
      ∀ b : Byte, match (visit t 256 t.root []).reverse.find? (fun w => w.1 = b) with
        | some w => codeOf g b = { valid := true, len := BitVec.ofNat 8 w.2.length, code := w.2 }
        | none => (codeOf g b).valid = false

/-- R146 (a) to (d): for an Alphabet of distinct symbols the valid entries are exactly the Alphabet's bytes, every code is non-empty
and at most K − 1 bits long for K ≥ 2, and no code is a prefix of another. -/
def Obligations.CodesArePrefixFree : Prop :=
  ∀ (a : List (Byte × Word)) (t0 : TreeBuilder) (g0 : CodeMapGen), (a.map Prod.fst).Nodup → a.length ≤ 256 →
    ∃ g, genCodes a (buildTree a t0) g0 = .ok g ∧
      (∀ b : Byte, (codeOf g b).valid = true ↔ b ∈ a.map Prod.fst) ∧
      (∀ b : Byte, (codeOf g b).valid = true → 1 ≤ (codeOf g b).code.length ∧
        (codeOf g b).len.toNat = (codeOf g b).code.length ∧ (codeOf g b).code.length ≤ max 1 (a.length - 1)) ∧
      (∀ b c : Byte, b ≠ c → (codeOf g b).valid = true → (codeOf g c).valid = true →
        ¬ (codeOf g b).code <+: (codeOf g c).code)

/-- R146 (e): for an Alphabet of 2 to 256 distinct symbols the Kraft sum is exactly 1 (here multiplied by 2^255, the longest code
having at most 255 bits). -/
def Obligations.KraftSumIsOne : Prop :=
  ∀ (a : List (Byte × Word)) (t0 : TreeBuilder) (g0 : CodeMapGen), (a.map Prod.fst).Nodup → 2 ≤ a.length → a.length ≤ 256 →
    ∃ g, genCodes a (buildTree a t0) g0 = .ok g ∧
      (a.map (fun e => 2 ^ (255 - (codeOf g e.1).len.toNat))).sum = 2 ^ 255

/-! ### The whole machine -/

/-- R27 (d), (e), (f): what holds after a successful DESERIALIZE, SERIALIZE and DECODE. -/
def Obligations.SuccessfulCommandsMeetTheInvariants : Prop :=
  (∀ s t : State, exec .deserialize s = .next t → EndedDone t →
    1 ≤ t.k.toNat ∧ t.k.toNat ≤ 256 ∧ 1 ≤ t.plen.toNat ∧ t.poff.toNat = 10 + 2 * t.k.toNat ∧
      ∀ j, j < t.k.toNat → (t.freqAt j).toNat ≤ 255) ∧
    (∀ s t : State, s.cfg.wellFormed = true → exec .serialize s = .next t → EndedDone t →
      t.poff.toNat = 10 + 2 * t.k.toNat ∧ t.olen.toNat = t.poff.toNat + t.plen.toNat) ∧
    (∀ s t : State, exec .decode s = .next t → EndedDone t → t.olen = t.cnt)


/-- R27 (a), (b), R14, from every state that has the property: no step sets a reserved bit of STATUS or breaks "STATE = ERROR exactly
when ERR ≠ 0". -/
def Obligations.StepKeepsStatusLegal : Prop :=
  ∀ s t : State, StatusInv s → step s = .next t → StatusInv t

/-- R40, R48: every step keeps every host-visible memory in its canonical form and inside its capacity: neither the host nor the engine
forms an index outside a space. -/
def Obligations.StepKeepsMemoriesCanonical : Prop :=
  ∀ s t : State, MemoriesInv s → step s = .next t → MemoriesInv t

/-- R11, R21: every step keeps OLEN ≤ OBUF_CAP, POFF ≤ 522, NBITS ≤ 8 × PBUF_CAP and RP ≤ NBITS, on a legal instance. Over a RESET
step, RP ≤ NBITS rests on RP = 0 after reset, the model's choice (log 10, log 16). -/
def Obligations.StepKeepsEngineRegistersLegal : Prop :=
  ∀ s t : State, RegistersInv s → step s = .next t → RegistersInv t

/-- R216, R282 (the fault is the model's, log 15): while CMDR holds an opcode whenever STATE is BUSY no step faults, and every step
keeps that so. -/
def Obligations.StepNeverFaults : Prop :=
  ∀ s : State, SequencerInv s → (∀ f, step s ≠ .fault f) ∧ (∀ t, step s = .next t → SequencerInv t)

/-- The reset state has every invariant above (R26, R27). RP ≤ NBITS rests on RP = 0 at reset, the model's choice (log 10), and the
capacities are those of log 1. -/
def Obligations.ResetHasTheInvariants : Prop :=
  StatusInv State.reset ∧ MemoriesInv State.reset ∧ RegistersInv State.reset ∧ SequencerInv State.reset

/-- R25, R7 (held in the state by the model, log 1): the parameters of the instance never change. -/
def Obligations.StepKeepsTheInstance : Prop :=
  ∀ s t : State, step s = .next t → t.cfg = s.cfg

/-- R14, R192, R265: a step changes FTRUNC only if its move is the host's RESET, or it runs SERIALIZE, issued in this step or accepted
before and completed by the engine in this step, and that SERIALIZE ends DONE. -/
def Obligations.OnlySerializeAndResetMoveFtrunc : Prop :=
  ∀ s t : State, step s = .next t → statusFtrunc t.status ≠ statusFtrunc s.status →
    HostMakes .reset s ∨
    (EndedDone t ∧ (∃ h, step s = exec .serialize (s.withHost h)) ∧
      ((s.isBusy = false ∧ ∃ a, HostMakes a s ∧ IssuesAtOnce a (encodeWord .serialize)) ∨
        (EngineMoves s ∧ s.cmdr = opcodeOf .serialize)))

/-- R221, R24: the host-visible state at completion is a function of the host-visible state at acceptance: two states of one instance
and one draw that the host cannot tell apart, whatever their hidden state, end a command in states it cannot tell apart. -/
def Obligations.HiddenStateReachesNoResult : Prop :=
  ∀ (i : Instr) (s s' t t' : State), s'.cfg = s.cfg → s'.epoch = s.epoch → SameHostView s s' →
    exec i s = .next t → exec i s' = .next t' → SameHostView t t'
end

