-- ==== Sys2Proof/Laws/Memory.lean ====
section
/-! SUPPORT. Laws of the sparse memories: read after write, a write leaves every other index alone, and every write keeps the
canonical form and the bound on listed indices. None needs the memory to be in canonical form already except where it says so. -/

namespace Sys2Proof.Machine

variable {α : Type}

@[simp] theorem Memory.read?_nil (i : Nat) : Memory.read? ([] : List (Nat × α)) i = none := rfl

@[simp] theorem Memory.read?_write_same (m : List (Nat × α)) (i : Nat) (v : α) :
    Memory.read? (Memory.write m i v) i = some v := by
  induction m with
  | nil => simp [Memory.write, Memory.read?]
  | cons c m ih =>
    obtain ⟨a, w⟩ := c
    simp only [Memory.write]
    split
    · simp [Memory.read?]
    · split
      · simp [Memory.read?]
      · next h1 h2 => simp [Memory.read?, h2, ih]

theorem Memory.read?_write_other (m : List (Nat × α)) {i j : Nat} (v : α) (h : j ≠ i) :
    Memory.read? (Memory.write m i v) j = Memory.read? m j := by
  induction m with
  | nil => simp [Memory.write, Memory.read?, h]
  | cons c m ih =>
    obtain ⟨a, w⟩ := c
    simp only [Memory.write]
    split
    · simp [Memory.read?, h]
    · split
      · next h1 h2 => subst h2; simp [Memory.read?, h]
      · simp [Memory.read?, ih]

theorem Memory.read?_write (m : List (Nat × α)) (i j : Nat) (v : α) :
    Memory.read? (Memory.write m i v) j = if j = i then some v else Memory.read? m j := by
  split
  · next h => subst h; simp
  · next h => exact Memory.read?_write_other m v h

/-- After consecutive writes from `i` on, index `j` holds the `(j − i)`-th value written, or what it held. -/
theorem Memory.read?_writeMany (m : List (Nat × α)) (i : Nat) (vs : List α) (j : Nat) :
    Memory.read? (Memory.writeMany m i vs) j =
      if h : i ≤ j ∧ j - i < vs.length then some vs[j - i] else Memory.read? m j := by
  induction vs generalizing m i with
  | nil => simp [Memory.writeMany]
  | cons v vs ih =>
    simp only [Memory.writeMany, ih, List.length_cons]
    by_cases hj : j = i
    · subst hj; simp
    · by_cases h : i ≤ j ∧ j - i < vs.length + 1
      · have h1 : i + 1 ≤ j ∧ j - (i + 1) < vs.length := by omega
        rw [dif_pos h1, dif_pos h]
        simp only [show j - i = (j - (i + 1)) + 1 by omega, List.getElem_cons_succ]
      · rw [dif_neg (by omega), dif_neg h, Memory.read?_write_other m v hj]

theorem Memory.read?_writeMany_outside (m : List (Nat × α)) (i : Nat) (vs : List α) {j : Nat}
    (h : ¬ (i ≤ j ∧ j < i + vs.length)) : Memory.read? (Memory.writeMany m i vs) j = Memory.read? m j := by
  rw [Memory.read?_writeMany, dif_neg (by omega)]

theorem Memory.mem_write {m : List (Nat × α)} {i : Nat} {v : α} {c : Nat × α} (h : c ∈ Memory.write m i v) :
    c = (i, v) ∨ c ∈ m := by
  induction m with
  | nil => simpa [Memory.write] using h
  | cons d m ih =>
    obtain ⟨a, w⟩ := d
    simp only [Memory.write] at h
    split at h
    · simpa using h
    · split at h
      · rcases List.mem_cons.1 h with h | h
        · exact .inl h
        · exact .inr (List.mem_cons_of_mem _ h)
      · rcases List.mem_cons.1 h with h | h
        · exact .inr (by simp [h])
        · rcases ih h with h | h
          · exact .inl h
          · exact .inr (List.mem_cons_of_mem _ h)

/-- A write keeps the canonical form. -/
theorem Memory.write_wf {m : List (Nat × α)} (i : Nat) (v : α) (h : Memory.wf m) : Memory.wf (Memory.write m i v) := by
  induction m with
  | nil => simp [Memory.wf, Memory.write]
  | cons d m ih =>
    obtain ⟨a, w⟩ := d
    have hm : Memory.wf m := by
      simp only [Memory.wf, List.map_cons, List.pairwise_cons] at h; exact h.2
    have ha : ∀ c ∈ m, a < c.1 := by
      simp only [Memory.wf, List.map_cons, List.pairwise_cons, List.mem_map, forall_exists_index, and_imp,
        forall_apply_eq_imp_iff₂] at h; exact h.1
    simp only [Memory.write]
    split
    · next hlt =>
      simp only [Memory.wf, List.map_cons, List.pairwise_cons, List.mem_cons, List.mem_map] at h ⊢
      refine ⟨?_, h⟩
      rintro x (rfl | ⟨c, hc, rfl⟩)
      · exact hlt
      · exact lt_trans hlt (ha c hc)
    · split
      · next _ heq =>
        subst heq
        simpa only [Memory.wf, List.map_cons] using h
      · next h1 h2 =>
        simp only [Memory.wf, List.map_cons, List.pairwise_cons, List.mem_map]
        refine ⟨?_, ih hm⟩
        rintro x ⟨c, hc, rfl⟩
        rcases Memory.mem_write hc with rfl | hc
        · show a < i
          omega
        · exact ha c hc

theorem Memory.writeMany_wf {m : List (Nat × α)} (i : Nat) (vs : List α) (h : Memory.wf m) :
    Memory.wf (Memory.writeMany m i vs) := by
  induction vs generalizing m i with
  | nil => exact h
  | cons v vs ih => exact ih _ (Memory.write_wf i v h)

theorem Memory.write_below {m : List (Nat × α)} {cap i : Nat} (v : α) (h : Memory.below m cap) (hi : i < cap) :
    Memory.below (Memory.write m i v) cap := by
  intro c hc
  rcases Memory.mem_write hc with rfl | hc
  · exact hi
  · exact h c hc

theorem Memory.writeMany_below {m : List (Nat × α)} {cap i : Nat} (vs : List α) (h : Memory.below m cap)
    (hi : i + vs.length ≤ cap) : Memory.below (Memory.writeMany m i vs) cap := by
  induction vs generalizing m i with
  | nil => exact h
  | cons v vs ih =>
    simp only [List.length_cons] at hi
    exact ih (Memory.write_below v h (by omega)) (by omega)

theorem Memory.writeMany_append (m : List (Nat × α)) (i : Nat) (vs ws : List α) :
    Memory.writeMany m i (vs ++ ws) = Memory.writeMany (Memory.writeMany m i vs) (i + vs.length) ws := by
  induction vs generalizing m i with
  | nil => simp [Memory.writeMany]
  | cons v vs ih =>
    simp only [List.cons_append, Memory.writeMany, ih, List.length_cons]
    congr 1
    omega

end Sys2Proof.Machine
end

