-- ==== Sys2Proof/Laws/Status.lean ====
section
/-! SUPPORT. Laws of STATUS: each field update sets its field and leaves the other fields and the zero bits alone. -/

namespace Sys2Proof.Machine

theorem bitvec2_ext {a b : BitVec 2} (h0 : a[0] = b[0]) (h1 : a[1] = b[1]) : a = b := by
  ext i hi
  have : i = 0 ∨ i = 1 := by omega
  rcases this with rfl | rfl
  · exact h0
  · exact h1

theorem bitvec4_ext {a b : BitVec 4} (h0 : a[0] = b[0]) (h1 : a[1] = b[1]) (h2 : a[2] = b[2]) (h3 : a[3] = b[3]) :
    a = b := by
  ext i hi
  have : i = 0 ∨ i = 1 ∨ i = 2 ∨ i = 3 := by omega
  rcases this with rfl | rfl | rfl | rfl <;> assumption

@[simp] theorem statusState_setState (w : BitVec 32) (v : BitVec 2) : statusState (setStatusState w v) = v := by
  apply bitvec2_ext <;> simp [statusState, setStatusState]

@[simp] theorem statusState_setErr (w : BitVec 32) (v : BitVec 4) :
    statusState (setStatusErr w v) = statusState w := by
  apply bitvec2_ext <;> simp [statusState, setStatusErr]

@[simp] theorem statusState_setFtrunc (w : BitVec 32) (b : Bool) :
    statusState (setStatusFtrunc w b) = statusState w := by
  apply bitvec2_ext <;> cases b <;> simp [statusState, setStatusFtrunc]

@[simp] theorem statusErr_setState (w : BitVec 32) (v : BitVec 2) : statusErr (setStatusState w v) = statusErr w := by
  apply bitvec4_ext <;> simp [statusErr, setStatusState]

@[simp] theorem statusErr_setErr (w : BitVec 32) (v : BitVec 4) : statusErr (setStatusErr w v) = v := by
  apply bitvec4_ext <;> simp [statusErr, setStatusErr]

@[simp] theorem statusErr_setFtrunc (w : BitVec 32) (b : Bool) : statusErr (setStatusFtrunc w b) = statusErr w := by
  apply bitvec4_ext <;> cases b <;> simp [statusErr, setStatusFtrunc]

@[simp] theorem statusFtrunc_setState (w : BitVec 32) (v : BitVec 2) :
    statusFtrunc (setStatusState w v) = statusFtrunc w := by
  simp [statusFtrunc, setStatusState]

@[simp] theorem statusFtrunc_setErr (w : BitVec 32) (v : BitVec 4) :
    statusFtrunc (setStatusErr w v) = statusFtrunc w := by
  simp [statusFtrunc, setStatusErr]

@[simp] theorem statusFtrunc_setFtrunc (w : BitVec 32) (b : Bool) : statusFtrunc (setStatusFtrunc w b) = b := by
  cases b <;> simp [statusFtrunc, setStatusFtrunc]

@[simp] theorem statusZero_setState (w : BitVec 32) (v : BitVec 2) :
    statusZero (setStatusState w v) = statusZero w := by
  apply BitVec.eq_of_getLsbD_eq
  intro i hi
  interval_cases i <;> simp [statusZero, setStatusState]

@[simp] theorem statusZero_setErr (w : BitVec 32) (v : BitVec 4) : statusZero (setStatusErr w v) = statusZero w := by
  apply BitVec.eq_of_getLsbD_eq
  intro i hi
  interval_cases i <;> simp [statusZero, setStatusErr]

@[simp] theorem statusZero_setFtrunc (w : BitVec 32) (b : Bool) :
    statusZero (setStatusFtrunc w b) = statusZero w := by
  apply BitVec.eq_of_getLsbD_eq
  intro i hi
  interval_cases i <;> cases b <;> simp [statusZero, setStatusFtrunc]

/-- The three fields and the zero bits determine STATUS. -/
theorem status_ext {v w : BitVec 32} (h1 : statusState v = statusState w) (h2 : statusErr v = statusErr w)
    (h3 : statusFtrunc v = statusFtrunc w) (h4 : statusZero v = statusZero w) : v = w := by
  have s0 := congrArg (fun x : BitVec 2 => x[0]) h1
  have s1 := congrArg (fun x : BitVec 2 => x[1]) h1
  have e0 := congrArg (fun x : BitVec 4 => x[0]) h2
  have e1 := congrArg (fun x : BitVec 4 => x[1]) h2
  have e2 := congrArg (fun x : BitVec 4 => x[2]) h2
  have e3 := congrArg (fun x : BitVec 4 => x[3]) h2
  simp [statusState, statusErr] at s0 s1 e0 e1 e2 e3
  apply BitVec.eq_of_getLsbD_eq
  intro i hi
  have z := congrArg (fun x : BitVec 32 => x.getLsbD i) h4
  simp only [statusZero, statusFtrunc] at z h3
  interval_cases i <;> simp_all

theorem isBusy_iff (s : State) : s.isBusy = true ↔ statusState s.status = stBusy := by
  simp [State.isBusy]

@[simp] theorem stBusy_ne_stDone : stBusy ≠ stDone := by decide
@[simp] theorem stBusy_ne_stError : stBusy ≠ stError := by decide
@[simp] theorem stBusy_ne_stIdle : stBusy ≠ stIdle := by decide
@[simp] theorem stDone_ne_stError : stDone ≠ stError := by decide
@[simp] theorem stDone_ne_stBusy : stDone ≠ stBusy := by decide
@[simp] theorem stError_ne_stBusy : stError ≠ stBusy := by decide
@[simp] theorem stIdle_ne_stBusy : stIdle ≠ stBusy := by decide

end Sys2Proof.Machine
end

