-- ==== Sys2Proof/Laws/State.lean ====
section
/-! SUPPORT. One lemma per field per update. The updates `State.with…` and `Cursors.with…` carry `@[simps]` where they are defined
(Machine/Ops.lean), which makes one simp lemma per field for each; here the cursor updates are put in those terms, and
every shared operation built from updates gets its field lemmas, all true by rfl. -/

namespace Sys2Proof.Machine

@[simp] theorem State.withIp_eq (s : State) (v) : s.withIp v = s.withCursors (s.cursors.withIp v) := rfl
@[simp] theorem State.withOc_eq (s : State) (v) : s.withOc v = s.withCursors (s.cursors.withOc v) := rfl
@[simp] theorem State.withCur_eq (s : State) (v) : s.withCur v = s.withCursors (s.cursors.withCur v) := rfl
@[simp] theorem State.withCb_eq (s : State) (v) : s.withCb v = s.withCursors (s.cursors.withCb v) := rfl
@[simp] theorem State.withJ_eq (s : State) (v) : s.withJ v = s.withCursors (s.cursors.withJ v) := rfl

/-! ### Acceptance, error entry, completion -/

@[simp] theorem accept_ilen (i : Instr) (s : State) : (accept i s).ilen = s.ilen := rfl
@[simp] theorem accept_olen (i : Instr) (s : State) : (accept i s).olen = s.olen := rfl
@[simp] theorem accept_cnt (i : Instr) (s : State) : (accept i s).cnt = s.cnt := rfl
@[simp] theorem accept_poff (i : Instr) (s : State) : (accept i s).poff = s.poff := rfl
@[simp] theorem accept_k (i : Instr) (s : State) : (accept i s).k = s.k := rfl
@[simp] theorem accept_plen (i : Instr) (s : State) : (accept i s).plen = s.plen := rfl
@[simp] theorem accept_ibuf (i : Instr) (s : State) : (accept i s).ibuf = s.ibuf := rfl
@[simp] theorem accept_obuf (i : Instr) (s : State) : (accept i s).obuf = s.obuf := rfl
@[simp] theorem accept_pbuf (i : Instr) (s : State) : (accept i s).pbuf = s.pbuf := rfl
@[simp] theorem accept_alphaSym (i : Instr) (s : State) : (accept i s).alphaSym = s.alphaSym := rfl
@[simp] theorem accept_alphaFreq (i : Instr) (s : State) : (accept i s).alphaFreq = s.alphaFreq := rfl
@[simp] theorem accept_phase (i : Instr) (s : State) : (accept i s).phase = s.phase := rfl
@[simp] theorem accept_tree (i : Instr) (s : State) : (accept i s).tree = s.tree := rfl
@[simp] theorem accept_gen (i : Instr) (s : State) : (accept i s).gen = s.gen := rfl
@[simp] theorem accept_bb (i : Instr) (s : State) : (accept i s).bb = s.bb := rfl
@[simp] theorem accept_cursors (i : Instr) (s : State) : (accept i s).cursors = s.cursors := rfl
@[simp] theorem accept_cfg (i : Instr) (s : State) : (accept i s).cfg = s.cfg := rfl
@[simp] theorem accept_host (i : Instr) (s : State) : (accept i s).host = s.host := rfl
@[simp] theorem accept_epoch (i : Instr) (s : State) : (accept i s).epoch = s.epoch := rfl
@[simp] theorem accept_draws (i : Instr) (s : State) : (accept i s).draws = s.draws := rfl
@[simp] theorem accept_cmdr (i : Instr) (s : State) : (accept i s).cmdr = opcodeOf i := rfl
@[simp] theorem accept_state (i : Instr) (s : State) : statusState (accept i s).status = stBusy := by simp [accept]
@[simp] theorem accept_err (i : Instr) (s : State) : statusErr (accept i s).status = 0#4 := by simp [accept]
@[simp] theorem accept_ftrunc (i : Instr) (s : State) : statusFtrunc (accept i s).status = statusFtrunc s.status := by
  simp [accept]
@[simp] theorem accept_zero (i : Instr) (s : State) : statusZero (accept i s).status = statusZero s.status := by
  simp [accept]

@[simp] theorem raiseError_ilen (e : ErrCode) (s : State) : (raiseError e s).ilen = s.ilen := rfl
@[simp] theorem raiseError_olen (e : ErrCode) (s : State) : (raiseError e s).olen = s.olen := rfl
@[simp] theorem raiseError_cnt (e : ErrCode) (s : State) : (raiseError e s).cnt = s.cnt := rfl
@[simp] theorem raiseError_poff (e : ErrCode) (s : State) : (raiseError e s).poff = s.poff := rfl
@[simp] theorem raiseError_k (e : ErrCode) (s : State) : (raiseError e s).k = s.k := rfl
@[simp] theorem raiseError_plen (e : ErrCode) (s : State) : (raiseError e s).plen = s.plen := rfl
@[simp] theorem raiseError_ibuf (e : ErrCode) (s : State) : (raiseError e s).ibuf = s.ibuf := rfl
@[simp] theorem raiseError_obuf (e : ErrCode) (s : State) : (raiseError e s).obuf = s.obuf := rfl
@[simp] theorem raiseError_pbuf (e : ErrCode) (s : State) : (raiseError e s).pbuf = s.pbuf := rfl
@[simp] theorem raiseError_alphaSym (e : ErrCode) (s : State) : (raiseError e s).alphaSym = s.alphaSym := rfl
@[simp] theorem raiseError_alphaFreq (e : ErrCode) (s : State) : (raiseError e s).alphaFreq = s.alphaFreq := rfl
@[simp] theorem raiseError_cmdr (e : ErrCode) (s : State) : (raiseError e s).cmdr = s.cmdr := rfl
@[simp] theorem raiseError_phase (e : ErrCode) (s : State) : (raiseError e s).phase = s.phase := rfl
@[simp] theorem raiseError_tree (e : ErrCode) (s : State) : (raiseError e s).tree = s.tree := rfl
@[simp] theorem raiseError_gen (e : ErrCode) (s : State) : (raiseError e s).gen = s.gen := rfl
@[simp] theorem raiseError_bb (e : ErrCode) (s : State) : (raiseError e s).bb = s.bb := rfl
@[simp] theorem raiseError_cursors (e : ErrCode) (s : State) : (raiseError e s).cursors = s.cursors := rfl
@[simp] theorem raiseError_cfg (e : ErrCode) (s : State) : (raiseError e s).cfg = s.cfg := rfl
@[simp] theorem raiseError_host (e : ErrCode) (s : State) : (raiseError e s).host = s.host := rfl
@[simp] theorem raiseError_epoch (e : ErrCode) (s : State) : (raiseError e s).epoch = s.epoch := rfl
@[simp] theorem raiseError_draws (e : ErrCode) (s : State) : (raiseError e s).draws = s.draws := rfl
@[simp] theorem raiseError_state (e : ErrCode) (s : State) : statusState (raiseError e s).status = stError := by
  simp [raiseError]
@[simp] theorem raiseError_err (e : ErrCode) (s : State) : statusErr (raiseError e s).status = errNumber e := by
  simp [raiseError]
@[simp] theorem raiseError_ftrunc (e : ErrCode) (s : State) :
    statusFtrunc (raiseError e s).status = statusFtrunc s.status := by simp [raiseError]
@[simp] theorem raiseError_zero (e : ErrCode) (s : State) :
    statusZero (raiseError e s).status = statusZero s.status := by simp [raiseError]

@[simp] theorem finish_ilen (s : State) : (finish s).ilen = s.ilen := rfl
@[simp] theorem finish_olen (s : State) : (finish s).olen = s.olen := rfl
@[simp] theorem finish_cnt (s : State) : (finish s).cnt = s.cnt := rfl
@[simp] theorem finish_poff (s : State) : (finish s).poff = s.poff := rfl
@[simp] theorem finish_k (s : State) : (finish s).k = s.k := rfl
@[simp] theorem finish_plen (s : State) : (finish s).plen = s.plen := rfl
@[simp] theorem finish_ibuf (s : State) : (finish s).ibuf = s.ibuf := rfl
@[simp] theorem finish_obuf (s : State) : (finish s).obuf = s.obuf := rfl
@[simp] theorem finish_pbuf (s : State) : (finish s).pbuf = s.pbuf := rfl
@[simp] theorem finish_alphaSym (s : State) : (finish s).alphaSym = s.alphaSym := rfl
@[simp] theorem finish_alphaFreq (s : State) : (finish s).alphaFreq = s.alphaFreq := rfl
@[simp] theorem finish_cmdr (s : State) : (finish s).cmdr = s.cmdr := rfl
@[simp] theorem finish_phase (s : State) : (finish s).phase = s.phase := rfl
@[simp] theorem finish_tree (s : State) : (finish s).tree = s.tree := rfl
@[simp] theorem finish_gen (s : State) : (finish s).gen = s.gen := rfl
@[simp] theorem finish_bb (s : State) : (finish s).bb = s.bb := rfl
@[simp] theorem finish_cursors (s : State) : (finish s).cursors = s.cursors := rfl
@[simp] theorem finish_cfg (s : State) : (finish s).cfg = s.cfg := rfl
@[simp] theorem finish_host (s : State) : (finish s).host = s.host := rfl
@[simp] theorem finish_epoch (s : State) : (finish s).epoch = s.epoch := rfl
@[simp] theorem finish_draws (s : State) : (finish s).draws = s.draws := rfl
@[simp] theorem finish_state (s : State) : statusState (finish s).status = stDone := by simp [finish]
@[simp] theorem finish_err (s : State) : statusErr (finish s).status = statusErr s.status := by simp [finish]
@[simp] theorem finish_ftrunc (s : State) : statusFtrunc (finish s).status = statusFtrunc s.status := by simp [finish]
@[simp] theorem finish_zero (s : State) : statusZero (finish s).status = statusZero s.status := by simp [finish]

/-! ### RESET -/

@[simp] theorem resetEvent_status (s : State) : (resetEvent s).status = 0 := rfl
@[simp] theorem resetEvent_ilen (s : State) : (resetEvent s).ilen = 0 := rfl
@[simp] theorem resetEvent_olen (s : State) : (resetEvent s).olen = 0 := rfl
@[simp] theorem resetEvent_cnt (s : State) : (resetEvent s).cnt = 0 := rfl
@[simp] theorem resetEvent_poff (s : State) : (resetEvent s).poff = 0 := rfl
@[simp] theorem resetEvent_k (s : State) : (resetEvent s).k = 0 := rfl
@[simp] theorem resetEvent_plen (s : State) : (resetEvent s).plen = 0 := rfl
@[simp] theorem resetEvent_ibuf (s : State) : (resetEvent s).ibuf = [] := rfl
@[simp] theorem resetEvent_obuf (s : State) : (resetEvent s).obuf = [] := rfl
@[simp] theorem resetEvent_pbuf (s : State) : (resetEvent s).pbuf = [] := rfl
@[simp] theorem resetEvent_alphaSym (s : State) : (resetEvent s).alphaSym = [] := rfl
@[simp] theorem resetEvent_alphaFreq (s : State) : (resetEvent s).alphaFreq = [] := rfl
@[simp] theorem resetEvent_cmdr (s : State) : (resetEvent s).cmdr = State.reset.cmdr := rfl
@[simp] theorem resetEvent_phase (s : State) : (resetEvent s).phase = State.reset.phase := rfl
@[simp] theorem resetEvent_tree (s : State) : (resetEvent s).tree = State.reset.tree := rfl
@[simp] theorem resetEvent_gen (s : State) : (resetEvent s).gen = State.reset.gen := rfl
@[simp] theorem resetEvent_bb (s : State) : (resetEvent s).bb = State.reset.bb := rfl
@[simp] theorem resetEvent_cursors (s : State) : (resetEvent s).cursors = State.reset.cursors := rfl
@[simp] theorem resetEvent_cfg (s : State) : (resetEvent s).cfg = s.cfg := rfl
@[simp] theorem resetEvent_epoch (s : State) : (resetEvent s).epoch = s.epoch + 1 := rfl
@[simp] theorem resetEvent_draws (s : State) : (resetEvent s).draws = s.draws := rfl

/-! ### Element writes -/

@[simp] theorem State.putByte_status (s : State) (sp i v) : (s.putByte sp i v).status = s.status := by cases sp <;> rfl
@[simp] theorem State.putByte_ilen (s : State) (sp i v) : (s.putByte sp i v).ilen = s.ilen := by cases sp <;> rfl
@[simp] theorem State.putByte_olen (s : State) (sp i v) : (s.putByte sp i v).olen = s.olen := by cases sp <;> rfl
@[simp] theorem State.putByte_cnt (s : State) (sp i v) : (s.putByte sp i v).cnt = s.cnt := by cases sp <;> rfl
@[simp] theorem State.putByte_poff (s : State) (sp i v) : (s.putByte sp i v).poff = s.poff := by cases sp <;> rfl
@[simp] theorem State.putByte_k (s : State) (sp i v) : (s.putByte sp i v).k = s.k := by cases sp <;> rfl
@[simp] theorem State.putByte_plen (s : State) (sp i v) : (s.putByte sp i v).plen = s.plen := by cases sp <;> rfl
@[simp] theorem State.putByte_alphaFreq (s : State) (sp i v) : (s.putByte sp i v).alphaFreq = s.alphaFreq := by cases sp <;> rfl
@[simp] theorem State.putByte_cmdr (s : State) (sp i v) : (s.putByte sp i v).cmdr = s.cmdr := by cases sp <;> rfl
@[simp] theorem State.putByte_phase (s : State) (sp i v) : (s.putByte sp i v).phase = s.phase := by cases sp <;> rfl
@[simp] theorem State.putByte_tree (s : State) (sp i v) : (s.putByte sp i v).tree = s.tree := by cases sp <;> rfl
@[simp] theorem State.putByte_gen (s : State) (sp i v) : (s.putByte sp i v).gen = s.gen := by cases sp <;> rfl
@[simp] theorem State.putByte_bb (s : State) (sp i v) : (s.putByte sp i v).bb = s.bb := by cases sp <;> rfl
@[simp] theorem State.putByte_cursors (s : State) (sp i v) : (s.putByte sp i v).cursors = s.cursors := by cases sp <;> rfl
@[simp] theorem State.putByte_cfg (s : State) (sp i v) : (s.putByte sp i v).cfg = s.cfg := by cases sp <;> rfl
@[simp] theorem State.putByte_host (s : State) (sp i v) : (s.putByte sp i v).host = s.host := by cases sp <;> rfl
@[simp] theorem State.putByte_epoch (s : State) (sp i v) : (s.putByte sp i v).epoch = s.epoch := by cases sp <;> rfl
@[simp] theorem State.putByte_draws (s : State) (sp i v) : (s.putByte sp i v).draws = s.draws := by cases sp <;> rfl
@[simp] theorem State.putFreq_status (s : State) (j v) : (s.putFreq j v).status = s.status := rfl
@[simp] theorem State.putFreq_ilen (s : State) (j v) : (s.putFreq j v).ilen = s.ilen := rfl
@[simp] theorem State.putFreq_olen (s : State) (j v) : (s.putFreq j v).olen = s.olen := rfl
@[simp] theorem State.putFreq_cnt (s : State) (j v) : (s.putFreq j v).cnt = s.cnt := rfl
@[simp] theorem State.putFreq_poff (s : State) (j v) : (s.putFreq j v).poff = s.poff := rfl
@[simp] theorem State.putFreq_k (s : State) (j v) : (s.putFreq j v).k = s.k := rfl
@[simp] theorem State.putFreq_plen (s : State) (j v) : (s.putFreq j v).plen = s.plen := rfl
@[simp] theorem State.putFreq_ibuf (s : State) (j v) : (s.putFreq j v).ibuf = s.ibuf := rfl
@[simp] theorem State.putFreq_obuf (s : State) (j v) : (s.putFreq j v).obuf = s.obuf := rfl
@[simp] theorem State.putFreq_pbuf (s : State) (j v) : (s.putFreq j v).pbuf = s.pbuf := rfl
@[simp] theorem State.putFreq_alphaSym (s : State) (j v) : (s.putFreq j v).alphaSym = s.alphaSym := rfl
@[simp] theorem State.putFreq_cmdr (s : State) (j v) : (s.putFreq j v).cmdr = s.cmdr := rfl
@[simp] theorem State.putFreq_phase (s : State) (j v) : (s.putFreq j v).phase = s.phase := rfl
@[simp] theorem State.putFreq_tree (s : State) (j v) : (s.putFreq j v).tree = s.tree := rfl
@[simp] theorem State.putFreq_gen (s : State) (j v) : (s.putFreq j v).gen = s.gen := rfl
@[simp] theorem State.putFreq_bb (s : State) (j v) : (s.putFreq j v).bb = s.bb := rfl
@[simp] theorem State.putFreq_cursors (s : State) (j v) : (s.putFreq j v).cursors = s.cursors := rfl
@[simp] theorem State.putFreq_cfg (s : State) (j v) : (s.putFreq j v).cfg = s.cfg := rfl
@[simp] theorem State.putFreq_host (s : State) (j v) : (s.putFreq j v).host = s.host := rfl
@[simp] theorem State.putFreq_epoch (s : State) (j v) : (s.putFreq j v).epoch = s.epoch := rfl
@[simp] theorem State.putFreq_draws (s : State) (j v) : (s.putFreq j v).draws = s.draws := rfl
@[simp] theorem State.putFreq_alphaFreq (s : State) (j v) : (s.putFreq j v).alphaFreq = Memory.write s.alphaFreq j v := rfl

/-! ### The host's own data -/

@[simp] theorem logRead_status (v : Datum) (s : State) : (logRead v s).status = s.status := rfl
@[simp] theorem logRead_ilen (v : Datum) (s : State) : (logRead v s).ilen = s.ilen := rfl
@[simp] theorem logRead_olen (v : Datum) (s : State) : (logRead v s).olen = s.olen := rfl
@[simp] theorem logRead_cnt (v : Datum) (s : State) : (logRead v s).cnt = s.cnt := rfl
@[simp] theorem logRead_poff (v : Datum) (s : State) : (logRead v s).poff = s.poff := rfl
@[simp] theorem logRead_k (v : Datum) (s : State) : (logRead v s).k = s.k := rfl
@[simp] theorem logRead_plen (v : Datum) (s : State) : (logRead v s).plen = s.plen := rfl
@[simp] theorem logRead_ibuf (v : Datum) (s : State) : (logRead v s).ibuf = s.ibuf := rfl
@[simp] theorem logRead_obuf (v : Datum) (s : State) : (logRead v s).obuf = s.obuf := rfl
@[simp] theorem logRead_pbuf (v : Datum) (s : State) : (logRead v s).pbuf = s.pbuf := rfl
@[simp] theorem logRead_alphaSym (v : Datum) (s : State) : (logRead v s).alphaSym = s.alphaSym := rfl
@[simp] theorem logRead_alphaFreq (v : Datum) (s : State) : (logRead v s).alphaFreq = s.alphaFreq := rfl
@[simp] theorem logRead_cmdr (v : Datum) (s : State) : (logRead v s).cmdr = s.cmdr := rfl
@[simp] theorem logRead_phase (v : Datum) (s : State) : (logRead v s).phase = s.phase := rfl
@[simp] theorem logRead_tree (v : Datum) (s : State) : (logRead v s).tree = s.tree := rfl
@[simp] theorem logRead_gen (v : Datum) (s : State) : (logRead v s).gen = s.gen := rfl
@[simp] theorem logRead_bb (v : Datum) (s : State) : (logRead v s).bb = s.bb := rfl
@[simp] theorem logRead_cursors (v : Datum) (s : State) : (logRead v s).cursors = s.cursors := rfl
@[simp] theorem logRead_cfg (v : Datum) (s : State) : (logRead v s).cfg = s.cfg := rfl
@[simp] theorem logRead_epoch (v : Datum) (s : State) : (logRead v s).epoch = s.epoch := rfl
@[simp] theorem logRead_draws (v : Datum) (s : State) : (logRead v s).draws = s.draws := rfl
@[simp] theorem pushMoves_status (acts : List HostAct) (s : State) : (pushMoves acts s).status = s.status := rfl
@[simp] theorem pushMoves_ilen (acts : List HostAct) (s : State) : (pushMoves acts s).ilen = s.ilen := rfl
@[simp] theorem pushMoves_olen (acts : List HostAct) (s : State) : (pushMoves acts s).olen = s.olen := rfl
@[simp] theorem pushMoves_cnt (acts : List HostAct) (s : State) : (pushMoves acts s).cnt = s.cnt := rfl
@[simp] theorem pushMoves_poff (acts : List HostAct) (s : State) : (pushMoves acts s).poff = s.poff := rfl
@[simp] theorem pushMoves_k (acts : List HostAct) (s : State) : (pushMoves acts s).k = s.k := rfl
@[simp] theorem pushMoves_plen (acts : List HostAct) (s : State) : (pushMoves acts s).plen = s.plen := rfl
@[simp] theorem pushMoves_ibuf (acts : List HostAct) (s : State) : (pushMoves acts s).ibuf = s.ibuf := rfl
@[simp] theorem pushMoves_obuf (acts : List HostAct) (s : State) : (pushMoves acts s).obuf = s.obuf := rfl
@[simp] theorem pushMoves_pbuf (acts : List HostAct) (s : State) : (pushMoves acts s).pbuf = s.pbuf := rfl
@[simp] theorem pushMoves_alphaSym (acts : List HostAct) (s : State) : (pushMoves acts s).alphaSym = s.alphaSym := rfl
@[simp] theorem pushMoves_alphaFreq (acts : List HostAct) (s : State) : (pushMoves acts s).alphaFreq = s.alphaFreq := rfl
@[simp] theorem pushMoves_cmdr (acts : List HostAct) (s : State) : (pushMoves acts s).cmdr = s.cmdr := rfl
@[simp] theorem pushMoves_phase (acts : List HostAct) (s : State) : (pushMoves acts s).phase = s.phase := rfl
@[simp] theorem pushMoves_tree (acts : List HostAct) (s : State) : (pushMoves acts s).tree = s.tree := rfl
@[simp] theorem pushMoves_gen (acts : List HostAct) (s : State) : (pushMoves acts s).gen = s.gen := rfl
@[simp] theorem pushMoves_bb (acts : List HostAct) (s : State) : (pushMoves acts s).bb = s.bb := rfl
@[simp] theorem pushMoves_cursors (acts : List HostAct) (s : State) : (pushMoves acts s).cursors = s.cursors := rfl
@[simp] theorem pushMoves_cfg (acts : List HostAct) (s : State) : (pushMoves acts s).cfg = s.cfg := rfl
@[simp] theorem pushMoves_epoch (acts : List HostAct) (s : State) : (pushMoves acts s).epoch = s.epoch := rfl
@[simp] theorem pushMoves_draws (acts : List HostAct) (s : State) : (pushMoves acts s).draws = s.draws := rfl

/-! ### Unit results put back -/

@[simp] theorem build_status (s : State) : (build s).status = s.status := rfl
@[simp] theorem build_ilen (s : State) : (build s).ilen = s.ilen := rfl
@[simp] theorem build_olen (s : State) : (build s).olen = s.olen := rfl
@[simp] theorem build_cnt (s : State) : (build s).cnt = s.cnt := rfl
@[simp] theorem build_poff (s : State) : (build s).poff = s.poff := rfl
@[simp] theorem build_k (s : State) : (build s).k = s.k := rfl
@[simp] theorem build_plen (s : State) : (build s).plen = s.plen := rfl
@[simp] theorem build_ibuf (s : State) : (build s).ibuf = s.ibuf := rfl
@[simp] theorem build_obuf (s : State) : (build s).obuf = s.obuf := rfl
@[simp] theorem build_pbuf (s : State) : (build s).pbuf = s.pbuf := rfl
@[simp] theorem build_alphaSym (s : State) : (build s).alphaSym = s.alphaSym := rfl
@[simp] theorem build_alphaFreq (s : State) : (build s).alphaFreq = s.alphaFreq := rfl
@[simp] theorem build_cmdr (s : State) : (build s).cmdr = s.cmdr := rfl
@[simp] theorem build_phase (s : State) : (build s).phase = s.phase := rfl
@[simp] theorem build_gen (s : State) : (build s).gen = s.gen := rfl
@[simp] theorem build_bb (s : State) : (build s).bb = s.bb := rfl
@[simp] theorem build_cursors (s : State) : (build s).cursors = s.cursors := rfl
@[simp] theorem build_cfg (s : State) : (build s).cfg = s.cfg := rfl
@[simp] theorem build_host (s : State) : (build s).host = s.host := rfl
@[simp] theorem build_epoch (s : State) : (build s).epoch = s.epoch := rfl
@[simp] theorem build_draws (s : State) : (build s).draws = s.draws := rfl
@[simp] theorem build_tree (s : State) : (build s).tree = buildTree s.alphabet s.tree := rfl
@[simp] theorem bbPack_status (s : State) : (bbPack s).status = s.status := rfl
@[simp] theorem bbPack_ilen (s : State) : (bbPack s).ilen = s.ilen := rfl
@[simp] theorem bbPack_olen (s : State) : (bbPack s).olen = s.olen := rfl
@[simp] theorem bbPack_cnt (s : State) : (bbPack s).cnt = s.cnt := rfl
@[simp] theorem bbPack_poff (s : State) : (bbPack s).poff = s.poff := rfl
@[simp] theorem bbPack_k (s : State) : (bbPack s).k = s.k := rfl
@[simp] theorem bbPack_ibuf (s : State) : (bbPack s).ibuf = s.ibuf := rfl
@[simp] theorem bbPack_obuf (s : State) : (bbPack s).obuf = s.obuf := rfl
@[simp] theorem bbPack_alphaSym (s : State) : (bbPack s).alphaSym = s.alphaSym := rfl
@[simp] theorem bbPack_alphaFreq (s : State) : (bbPack s).alphaFreq = s.alphaFreq := rfl
@[simp] theorem bbPack_cmdr (s : State) : (bbPack s).cmdr = s.cmdr := rfl
@[simp] theorem bbPack_phase (s : State) : (bbPack s).phase = s.phase := rfl
@[simp] theorem bbPack_tree (s : State) : (bbPack s).tree = s.tree := rfl
@[simp] theorem bbPack_gen (s : State) : (bbPack s).gen = s.gen := rfl
@[simp] theorem bbPack_bb (s : State) : (bbPack s).bb = s.bb := rfl
@[simp] theorem bbPack_cursors (s : State) : (bbPack s).cursors = s.cursors := rfl
@[simp] theorem bbPack_cfg (s : State) : (bbPack s).cfg = s.cfg := rfl
@[simp] theorem bbPack_host (s : State) : (bbPack s).host = s.host := rfl
@[simp] theorem bbPack_epoch (s : State) : (bbPack s).epoch = s.epoch := rfl
@[simp] theorem bbPack_draws (s : State) : (bbPack s).draws = s.draws := rfl
@[simp] theorem bbUnpack_status (s : State) : (bbUnpack s).status = s.status := rfl
@[simp] theorem bbUnpack_ilen (s : State) : (bbUnpack s).ilen = s.ilen := rfl
@[simp] theorem bbUnpack_olen (s : State) : (bbUnpack s).olen = s.olen := rfl
@[simp] theorem bbUnpack_cnt (s : State) : (bbUnpack s).cnt = s.cnt := rfl
@[simp] theorem bbUnpack_poff (s : State) : (bbUnpack s).poff = s.poff := rfl
@[simp] theorem bbUnpack_k (s : State) : (bbUnpack s).k = s.k := rfl
@[simp] theorem bbUnpack_plen (s : State) : (bbUnpack s).plen = s.plen := rfl
@[simp] theorem bbUnpack_ibuf (s : State) : (bbUnpack s).ibuf = s.ibuf := rfl
@[simp] theorem bbUnpack_obuf (s : State) : (bbUnpack s).obuf = s.obuf := rfl
@[simp] theorem bbUnpack_pbuf (s : State) : (bbUnpack s).pbuf = s.pbuf := rfl
@[simp] theorem bbUnpack_alphaSym (s : State) : (bbUnpack s).alphaSym = s.alphaSym := rfl
@[simp] theorem bbUnpack_alphaFreq (s : State) : (bbUnpack s).alphaFreq = s.alphaFreq := rfl
@[simp] theorem bbUnpack_cmdr (s : State) : (bbUnpack s).cmdr = s.cmdr := rfl
@[simp] theorem bbUnpack_phase (s : State) : (bbUnpack s).phase = s.phase := rfl
@[simp] theorem bbUnpack_tree (s : State) : (bbUnpack s).tree = s.tree := rfl
@[simp] theorem bbUnpack_gen (s : State) : (bbUnpack s).gen = s.gen := rfl
@[simp] theorem bbUnpack_cursors (s : State) : (bbUnpack s).cursors = s.cursors := rfl
@[simp] theorem bbUnpack_cfg (s : State) : (bbUnpack s).cfg = s.cfg := rfl
@[simp] theorem bbUnpack_host (s : State) : (bbUnpack s).host = s.host := rfl
@[simp] theorem bbUnpack_epoch (s : State) : (bbUnpack s).epoch = s.epoch := rfl
@[simp] theorem bbUnpack_draws (s : State) : (bbUnpack s).draws = s.draws := rfl

/-! ### Elements of the memories after an update of something else -/

@[simp] theorem State.withStatus_byteAt (s : State) (v) (sp i) : (s.withStatus v).byteAt sp i = s.byteAt sp i := by cases sp <;> rfl
@[simp] theorem State.withIlen_byteAt (s : State) (v) (sp i) : (s.withIlen v).byteAt sp i = s.byteAt sp i := by cases sp <;> rfl
@[simp] theorem State.withOlen_byteAt (s : State) (v) (sp i) : (s.withOlen v).byteAt sp i = s.byteAt sp i := by cases sp <;> rfl
@[simp] theorem State.withCnt_byteAt (s : State) (v) (sp i) : (s.withCnt v).byteAt sp i = s.byteAt sp i := by cases sp <;> rfl
@[simp] theorem State.withPoff_byteAt (s : State) (v) (sp i) : (s.withPoff v).byteAt sp i = s.byteAt sp i := by cases sp <;> rfl
@[simp] theorem State.withK_byteAt (s : State) (v) (sp i) : (s.withK v).byteAt sp i = s.byteAt sp i := by cases sp <;> rfl
@[simp] theorem State.withPlen_byteAt (s : State) (v) (sp i) : (s.withPlen v).byteAt sp i = s.byteAt sp i := by cases sp <;> rfl
@[simp] theorem State.withCmdr_byteAt (s : State) (v) (sp i) : (s.withCmdr v).byteAt sp i = s.byteAt sp i := by cases sp <;> rfl
@[simp] theorem State.withPhase_byteAt (s : State) (v) (sp i) : (s.withPhase v).byteAt sp i = s.byteAt sp i := by cases sp <;> rfl
@[simp] theorem State.withTree_byteAt (s : State) (v) (sp i) : (s.withTree v).byteAt sp i = s.byteAt sp i := by cases sp <;> rfl
@[simp] theorem State.withGen_byteAt (s : State) (v) (sp i) : (s.withGen v).byteAt sp i = s.byteAt sp i := by cases sp <;> rfl
@[simp] theorem State.withBb_byteAt (s : State) (v) (sp i) : (s.withBb v).byteAt sp i = s.byteAt sp i := by cases sp <;> rfl
@[simp] theorem State.withCursors_byteAt (s : State) (v) (sp i) : (s.withCursors v).byteAt sp i = s.byteAt sp i := by cases sp <;> rfl
@[simp] theorem State.withHost_byteAt (s : State) (v) (sp i) : (s.withHost v).byteAt sp i = s.byteAt sp i := by cases sp <;> rfl
@[simp] theorem State.withDraws_byteAt (s : State) (v) (sp i) : (s.withDraws v).byteAt sp i = s.byteAt sp i := by cases sp <;> rfl
@[simp] theorem State.withAlphaFreq_byteAt (s : State) (v) (sp i) : (s.withAlphaFreq v).byteAt sp i = s.byteAt sp i := by cases sp <;> rfl
@[simp] theorem State.withStatus_freqAt (s : State) (v) (j) : (s.withStatus v).freqAt j = s.freqAt j := rfl
@[simp] theorem State.withIlen_freqAt (s : State) (v) (j) : (s.withIlen v).freqAt j = s.freqAt j := rfl
@[simp] theorem State.withOlen_freqAt (s : State) (v) (j) : (s.withOlen v).freqAt j = s.freqAt j := rfl
@[simp] theorem State.withCnt_freqAt (s : State) (v) (j) : (s.withCnt v).freqAt j = s.freqAt j := rfl
@[simp] theorem State.withPoff_freqAt (s : State) (v) (j) : (s.withPoff v).freqAt j = s.freqAt j := rfl
@[simp] theorem State.withK_freqAt (s : State) (v) (j) : (s.withK v).freqAt j = s.freqAt j := rfl
@[simp] theorem State.withPlen_freqAt (s : State) (v) (j) : (s.withPlen v).freqAt j = s.freqAt j := rfl
@[simp] theorem State.withCmdr_freqAt (s : State) (v) (j) : (s.withCmdr v).freqAt j = s.freqAt j := rfl
@[simp] theorem State.withPhase_freqAt (s : State) (v) (j) : (s.withPhase v).freqAt j = s.freqAt j := rfl
@[simp] theorem State.withTree_freqAt (s : State) (v) (j) : (s.withTree v).freqAt j = s.freqAt j := rfl
@[simp] theorem State.withGen_freqAt (s : State) (v) (j) : (s.withGen v).freqAt j = s.freqAt j := rfl
@[simp] theorem State.withBb_freqAt (s : State) (v) (j) : (s.withBb v).freqAt j = s.freqAt j := rfl
@[simp] theorem State.withCursors_freqAt (s : State) (v) (j) : (s.withCursors v).freqAt j = s.freqAt j := rfl
@[simp] theorem State.withHost_freqAt (s : State) (v) (j) : (s.withHost v).freqAt j = s.freqAt j := rfl
@[simp] theorem State.withDraws_freqAt (s : State) (v) (j) : (s.withDraws v).freqAt j = s.freqAt j := rfl
@[simp] theorem State.withIbuf_freqAt (s : State) (v) (j) : (s.withIbuf v).freqAt j = s.freqAt j := rfl
@[simp] theorem State.withObuf_freqAt (s : State) (v) (j) : (s.withObuf v).freqAt j = s.freqAt j := rfl
@[simp] theorem State.withPbuf_freqAt (s : State) (v) (j) : (s.withPbuf v).freqAt j = s.freqAt j := rfl
@[simp] theorem State.withAlphaSym_freqAt (s : State) (v) (j) : (s.withAlphaSym v).freqAt j = s.freqAt j := rfl
@[simp] theorem accept_byteAt (i : Instr) (s : State) (sp n) : (accept i s).byteAt sp n = s.byteAt sp n := by cases sp <;> rfl
@[simp] theorem accept_freqAt (i : Instr) (s : State) (n) : (accept i s).freqAt n = s.freqAt n := rfl
@[simp] theorem raiseError_byteAt (e : ErrCode) (s : State) (sp n) : (raiseError e s).byteAt sp n = s.byteAt sp n := by cases sp <;> rfl
@[simp] theorem raiseError_freqAt (e : ErrCode) (s : State) (n) : (raiseError e s).freqAt n = s.freqAt n := rfl
@[simp] theorem finish_byteAt (s : State) (sp n) : (finish s).byteAt sp n = s.byteAt sp n := by cases sp <;> rfl
@[simp] theorem finish_freqAt (s : State) (n) : (finish s).freqAt n = s.freqAt n := rfl
@[simp] theorem build_byteAt (s : State) (sp n) : (build s).byteAt sp n = s.byteAt sp n := by cases sp <;> rfl
@[simp] theorem build_freqAt (s : State) (n) : (build s).freqAt n = s.freqAt n := rfl
@[simp] theorem bbUnpack_byteAt (s : State) (sp n) : (bbUnpack s).byteAt sp n = s.byteAt sp n := by cases sp <;> rfl
@[simp] theorem bbUnpack_freqAt (s : State) (n) : (bbUnpack s).freqAt n = s.freqAt n := rfl
@[simp] theorem bbPack_freqAt (s : State) (n) : (bbPack s).freqAt n = s.freqAt n := rfl

/-! ### STATE after an update of something else -/

@[simp] theorem State.withIlen_isBusy (s : State) (v) : (s.withIlen v).isBusy = s.isBusy := rfl
@[simp] theorem State.withOlen_isBusy (s : State) (v) : (s.withOlen v).isBusy = s.isBusy := rfl
@[simp] theorem State.withCnt_isBusy (s : State) (v) : (s.withCnt v).isBusy = s.isBusy := rfl
@[simp] theorem State.withPoff_isBusy (s : State) (v) : (s.withPoff v).isBusy = s.isBusy := rfl
@[simp] theorem State.withK_isBusy (s : State) (v) : (s.withK v).isBusy = s.isBusy := rfl
@[simp] theorem State.withPlen_isBusy (s : State) (v) : (s.withPlen v).isBusy = s.isBusy := rfl
@[simp] theorem State.withIbuf_isBusy (s : State) (v) : (s.withIbuf v).isBusy = s.isBusy := rfl
@[simp] theorem State.withObuf_isBusy (s : State) (v) : (s.withObuf v).isBusy = s.isBusy := rfl
@[simp] theorem State.withPbuf_isBusy (s : State) (v) : (s.withPbuf v).isBusy = s.isBusy := rfl
@[simp] theorem State.withAlphaSym_isBusy (s : State) (v) : (s.withAlphaSym v).isBusy = s.isBusy := rfl
@[simp] theorem State.withAlphaFreq_isBusy (s : State) (v) : (s.withAlphaFreq v).isBusy = s.isBusy := rfl
@[simp] theorem State.withCmdr_isBusy (s : State) (v) : (s.withCmdr v).isBusy = s.isBusy := rfl
@[simp] theorem State.withPhase_isBusy (s : State) (v) : (s.withPhase v).isBusy = s.isBusy := rfl
@[simp] theorem State.withTree_isBusy (s : State) (v) : (s.withTree v).isBusy = s.isBusy := rfl
@[simp] theorem State.withGen_isBusy (s : State) (v) : (s.withGen v).isBusy = s.isBusy := rfl
@[simp] theorem State.withBb_isBusy (s : State) (v) : (s.withBb v).isBusy = s.isBusy := rfl
@[simp] theorem State.withCursors_isBusy (s : State) (v) : (s.withCursors v).isBusy = s.isBusy := rfl
@[simp] theorem State.withHost_isBusy (s : State) (v) : (s.withHost v).isBusy = s.isBusy := rfl
@[simp] theorem State.withDraws_isBusy (s : State) (v) : (s.withDraws v).isBusy = s.isBusy := rfl
@[simp] theorem State.putByte_isBusy (s : State) (sp i v) : (s.putByte sp i v).isBusy = s.isBusy := by cases sp <;> rfl
@[simp] theorem State.putFreq_isBusy (s : State) (j v) : (s.putFreq j v).isBusy = s.isBusy := rfl
@[simp] theorem logRead_isBusy (v : Datum) (s : State) : (logRead v s).isBusy = s.isBusy := rfl
@[simp] theorem pushMoves_isBusy (acts : List HostAct) (s : State) : (pushMoves acts s).isBusy = s.isBusy := rfl
@[simp] theorem accept_isBusy (i : Instr) (s : State) : (accept i s).isBusy = true := by simp [State.isBusy]
@[simp] theorem raiseError_isBusy (e : ErrCode) (s : State) : (raiseError e s).isBusy = false := by
  simp [State.isBusy]
@[simp] theorem finish_isBusy (s : State) : (finish s).isBusy = false := by simp [State.isBusy]
@[simp] theorem resetEvent_isBusy (s : State) : (resetEvent s).isBusy = false := rfl

/-! ### Elements after a write -/

@[simp] theorem State.withIbuf_byteAt_obuf (s : State) (v) (i) : (s.withIbuf v).byteAt .obuf i = s.byteAt .obuf i := rfl
@[simp] theorem State.withIbuf_byteAt_pbuf (s : State) (v) (i) : (s.withIbuf v).byteAt .pbuf i = s.byteAt .pbuf i := rfl
@[simp] theorem State.withIbuf_byteAt_alphaSym (s : State) (v) (i) : (s.withIbuf v).byteAt .alphaSym i = s.byteAt .alphaSym i := rfl
@[simp] theorem State.withObuf_byteAt_ibuf (s : State) (v) (i) : (s.withObuf v).byteAt .ibuf i = s.byteAt .ibuf i := rfl
@[simp] theorem State.withObuf_byteAt_pbuf (s : State) (v) (i) : (s.withObuf v).byteAt .pbuf i = s.byteAt .pbuf i := rfl
@[simp] theorem State.withObuf_byteAt_alphaSym (s : State) (v) (i) : (s.withObuf v).byteAt .alphaSym i = s.byteAt .alphaSym i := rfl
@[simp] theorem State.withPbuf_byteAt_ibuf (s : State) (v) (i) : (s.withPbuf v).byteAt .ibuf i = s.byteAt .ibuf i := rfl
@[simp] theorem State.withPbuf_byteAt_obuf (s : State) (v) (i) : (s.withPbuf v).byteAt .obuf i = s.byteAt .obuf i := rfl
@[simp] theorem State.withPbuf_byteAt_alphaSym (s : State) (v) (i) : (s.withPbuf v).byteAt .alphaSym i = s.byteAt .alphaSym i := rfl
@[simp] theorem State.withAlphaSym_byteAt_ibuf (s : State) (v) (i) : (s.withAlphaSym v).byteAt .ibuf i = s.byteAt .ibuf i := rfl
@[simp] theorem State.withAlphaSym_byteAt_obuf (s : State) (v) (i) : (s.withAlphaSym v).byteAt .obuf i = s.byteAt .obuf i := rfl
@[simp] theorem State.withAlphaSym_byteAt_pbuf (s : State) (v) (i) : (s.withAlphaSym v).byteAt .pbuf i = s.byteAt .pbuf i := rfl

theorem State.byteAt_putByte_same (s : State) (sp : ByteSpace) (i : Nat) (v : Byte) :
    (s.putByte sp i v).byteAt sp i = v := by
  cases sp <;> simp [State.putByte, State.byteAt, State.bytesOf]

theorem State.byteAt_putByte_other (s : State) (sp sq : ByteSpace) (i j : Nat) (v : Byte) (h : ¬ (sq = sp ∧ j = i)) :
    (s.putByte sp i v).byteAt sq j = s.byteAt sq j := by
  cases sp <;> cases sq <;> first
    | rfl
    | (have hj : j ≠ i := fun e => h ⟨rfl, e⟩
       simp [State.putByte, State.byteAt, State.bytesOf, Memory.read?_write_other _ _ hj])

@[simp] theorem State.freqAt_putByte (s : State) (sp : ByteSpace) (i j : Nat) (v : Byte) :
    (s.putByte sp i v).freqAt j = s.freqAt j := by cases sp <;> rfl

@[simp] theorem State.byteAt_putFreq (s : State) (sp : ByteSpace) (i j : Nat) (v : Word) :
    (s.putFreq j v).byteAt sp i = s.byteAt sp i := by cases sp <;> rfl

theorem State.freqAt_putFreq (s : State) (i j : Nat) (v : Word) :
    (s.putFreq i v).freqAt j = if j = i then v else s.freqAt j := by
  simp only [State.freqAt, State.putFreq, State.withAlphaFreq_alphaFreq, State.withAlphaFreq_epoch, Memory.read?_write]
  split <;> rfl

end Sys2Proof.Machine
end

