-- ==== Sys2Proof/Laws/Shapes.lean ====
section
/-! SUPPORT. Which fields each stretch of a command can change, said once per stretch: the state it leaves is the state it began with,
but for the fields named. Whatever holds of the other fields follows by substituting the equation. -/

namespace Sys2Proof.Machine

/-- The state a stretch leaves, whether it goes on or raises. -/
def Run.state {σ : Type} : Run σ → σ
  | .ok s => s
  | .raised _ s => s

@[simp] theorem Run.state_ok {σ : Type} (s : σ) : (Run.ok s).state = s := rfl
@[simp] theorem Run.state_raised {σ : Type} (e : ErrCode) (s : σ) : (Run.raised e s).state = s := rfl
@[simp] theorem Run.bind_ok {σ : Type} (s : σ) (f : σ → Run σ) : (Run.ok s).bind f = f s := rfl
@[simp] theorem Run.bind_raised {σ : Type} (e : ErrCode) (s : σ) (f : σ → Run σ) :
    (Run.raised e s).bind f = .raised e s := rfl
@[simp] theorem Run.map_ok {σ τ : Type} (f : σ → τ) (s : σ) : (Run.ok s).map f = .ok (f s) := rfl
@[simp] theorem Run.map_raised {σ τ : Type} (f : σ → τ) (e : ErrCode) (s : σ) :
    (Run.raised e s).map f = .raised e (f s) := rfl
@[simp] theorem Run.onRaise_ok {σ : Type} (f : σ → σ) (s : σ) : (Run.ok s).onRaise f = .ok s := rfl
@[simp] theorem Run.onRaise_raised {σ : Type} (f : σ → σ) (e : ErrCode) (s : σ) :
    (Run.raised e s).onRaise f = .raised e (f s) := rfl

/-- Completion of a command is a next state in each of its two cases. -/
theorem complete_eq (r : Run State) :
    complete r = .next (match r with | .ok s => finish s | .raised e s => raiseError e s) := by cases r <;> rfl

/-! ### SCAN -/

/-- Fields SCAN can change: K, the two Alphabet memories, the cursors IP and J. -/
def ScanShape (s t : State) : Prop :=
  ∃ k sym freq ip j, t = { s with k := k, alphaSym := sym, alphaFreq := freq, cursors := { s.cursors with ip := ip, j := j } }

theorem ScanShape.refl (s : State) : ScanShape s s := ⟨s.k, s.alphaSym, s.alphaFreq, s.cursors.ip, s.cursors.j, rfl⟩

theorem ScanShape.trans {s t u : State} (h1 : ScanShape s t) (h2 : ScanShape t u) : ScanShape s u := by
  obtain ⟨k, sym, freq, ip, j, rfl⟩ := h1
  obtain ⟨k', sym', freq', ip', j', rfl⟩ := h2
  exact ⟨k', sym', freq', ip', j', rfl⟩

theorem scanByte_shape (b : Byte) (s : State) : ScanShape s (scanByte b s) := by
  unfold scanByte
  split
  · exact ⟨_, _, _, _, _, rfl⟩
  · exact ⟨_, _, _, _, _, rfl⟩

theorem scanLoop_shape (n : Nat) (s : State) : ScanShape s (scanLoop n s) := by
  induction n generalizing s with
  | zero => exact ScanShape.refl s
  | succ n ih =>
    have h := scanByte_shape (s.byteAt .ibuf s.cursors.ip.toNat) s
    have h' : ScanShape (scanByte (s.byteAt .ibuf s.cursors.ip.toNat) s)
        ((scanByte (s.byteAt .ibuf s.cursors.ip.toNat) s).withIp (s.cursors.ip + 1)) :=
      ⟨_, _, _, _, (scanByte (s.byteAt .ibuf s.cursors.ip.toNat) s).cursors.j, rfl⟩
    exact (h.trans h').trans (ih _)

theorem scan_shape (s : State) : ScanShape s (scan s) := by
  refine ScanShape.trans ?_ (scanLoop_shape _ _)
  exact ⟨_, _, _, _, _, rfl⟩

/-! ### EMIT -/

/-- Fields EMIT can change: the BitBuffer, the cursors IP and CB. -/
def EmitShape (s t : State) : Prop :=
  ∃ bb ip cb, t = { s with bb := bb, cursors := { s.cursors with ip := ip, cb := cb } }

theorem EmitShape.refl (s : State) : EmitShape s s := ⟨s.bb, s.cursors.ip, s.cursors.cb, rfl⟩

theorem EmitShape.trans {s t u : State} (h1 : EmitShape s t) (h2 : EmitShape t u) : EmitShape s u := by
  obtain ⟨bb, ip, cb, rfl⟩ := h1
  obtain ⟨bb', ip', cb', rfl⟩ := h2
  exact ⟨bb', ip', cb', rfl⟩

theorem emitBits_shape (bits : Bits) (s : State) : EmitShape s (emitBits bits s).state := by
  induction bits generalizing s with
  | nil => exact EmitShape.refl s
  | cons v vs ih =>
    unfold emitBits
    split
    · exact EmitShape.trans ⟨_, _, _, rfl⟩ (ih _)
    · exact ⟨_, _, _, rfl⟩

theorem emitLoop_shape (n : Nat) (s : State) : EmitShape s (emitLoop n s).state := by
  induction n generalizing s with
  | zero => exact EmitShape.refl s
  | succ n ih =>
    simp only [emitLoop]
    split
    · have h := emitBits_shape (Table.first false (codeOf s.gen (s.byteAt .ibuf s.cursors.ip.toNat)).len.toNat
        (codeOf s.gen (s.byteAt .ibuf s.cursors.ip.toNat)).code) (s.withCb 0)
      have h0 : EmitShape s (s.withCb 0) := ⟨_, _, _, rfl⟩
      cases hr : emitBits (Table.first false (codeOf s.gen (s.byteAt .ibuf s.cursors.ip.toNat)).len.toNat
        (codeOf s.gen (s.byteAt .ibuf s.cursors.ip.toNat)).code) (s.withCb 0) with
      | ok s1 =>
        rw [hr] at h
        exact (h0.trans h).trans (EmitShape.trans ⟨_, _, _, rfl⟩ (ih _))
      | raised e s1 =>
        rw [hr] at h
        exact h0.trans h
    · exact EmitShape.refl s

theorem emit_shape (s : State) : EmitShape s (emit s).state :=
  EmitShape.trans ⟨_, _, _, rfl⟩ (emitLoop_shape _ _)

/-! ### The errors a stretch can raise -/

theorem bbPushBit_error {cap : Nat} {v : Bool} {b b' : BitBuffer} {e : ErrCode} (h : bbPushBit cap v b = .raised e b') :
    e = .capacity ∧ b' = b ∧ b.nbits.toNat = cap := by
  unfold bbPushBit at h
  split at h
  · next hc => cases h; exact ⟨rfl, rfl, hc⟩
  · cases h

theorem emitBits_error {bits : Bits} {s t : State} {e : ErrCode} (h : emitBits bits s = .raised e t) :
    e = .capacity := by
  induction bits generalizing s with
  | nil => cases h
  | cons v vs ih =>
    unfold emitBits at h
    split at h
    · exact ih h
    · next _ b hb => cases h; exact (bbPushBit_error hb).1

theorem emitLoop_error {n : Nat} {s t : State} {e : ErrCode} (h : emitLoop n s = .raised e t) :
    e = .capacity ∨ e = .internal := by
  induction n generalizing s with
  | zero => cases h
  | succ n ih =>
    simp only [emitLoop] at h
    split at h
    · cases hr : emitBits (Table.first false (codeOf s.gen (s.byteAt .ibuf s.cursors.ip.toNat)).len.toNat
        (codeOf s.gen (s.byteAt .ibuf s.cursors.ip.toNat)).code) (s.withCb 0) with
      | ok s1 => rw [hr] at h; exact ih h
      | raised e1 s1 => rw [hr] at h; cases h; exact .inl (emitBits_error hr)
    · cases h; exact .inr rfl

theorem genStep_error {t : TreeBuilder} {g g' : CodeMapGen} {e : ErrCode} (h : genStep t g = .raised e g') :
    e = .internal := by
  simp only [genStep] at h
  split at h <;> cases h <;> rfl

theorem genLoop_error {t : TreeBuilder} {n : Nat} {g g' : CodeMapGen} {e : ErrCode}
    (h : genLoop t n g = .raised e g') : e = .internal := by
  induction n generalizing g with
  | zero =>
    unfold genLoop at h
    split at h <;> cases h
    rfl
  | succ n ih =>
    unfold genLoop at h
    split at h
    · cases h
    · cases hs : genStep t g with
      | ok g1 => rw [hs] at h; exact ih h
      | raised e1 g1 => rw [hs] at h; cases h; exact genStep_error hs

theorem genCodes_error {a : List (Byte × Word)} {t : TreeBuilder} {g g' : CodeMapGen} {e : ErrCode}
    (h : genCodes a t g = .raised e g') : e = .internal := by
  unfold genCodes at h
  split at h
  · cases h
  · cases h
  · exact genLoop_error h

/-! ### ENCODE -/

/-- Fields ENCODE can change between acceptance and completion. -/
def EncodeShape (s t : State) : Prop :=
  ∃ cnt k plen pbuf sym freq phase tree gen bb ip cb j,
    t = { s with
          cnt := cnt, k := k, plen := plen, pbuf := pbuf, alphaSym := sym, alphaFreq := freq, phase := phase, tree := tree
          gen := gen, bb := bb, cursors := { s.cursors with ip := ip, cb := cb, j := j } }

theorem EncodeShape.refl (s : State) : EncodeShape s s :=
  ⟨_, _, _, _, _, _, _, _, _, _, s.cursors.ip, s.cursors.cb, s.cursors.j, rfl⟩

theorem EncodeShape.trans {s t u : State} (h1 : EncodeShape s t) (h2 : EncodeShape t u) : EncodeShape s u := by
  obtain ⟨_, _, _, _, _, _, _, _, _, _, _, _, _, rfl⟩ := h1
  obtain ⟨_, _, _, _, _, _, _, _, _, _, _, _, _, rfl⟩ := h2
  exact ⟨_, _, _, _, _, _, _, _, _, _, _, _, _, rfl⟩

theorem ScanShape.encode {s t : State} (h : ScanShape s t) : EncodeShape s t := by
  obtain ⟨_, _, _, _, _, rfl⟩ := h
  exact ⟨_, _, _, _, _, _, _, _, _, _, _, s.cursors.cb, _, rfl⟩

theorem EmitShape.encode {s t : State} (h : EmitShape s t) : EncodeShape s t := by
  obtain ⟨_, _, _, rfl⟩ := h
  exact ⟨_, _, _, _, _, _, _, _, _, _, _, _, s.cursors.j, rfl⟩

theorem genmap_shape (s : State) : EncodeShape s (genmap s).state := by
  unfold genmap
  cases genCodes s.alphabet s.tree s.gen <;>
    exact ⟨_, _, _, _, _, _, _, _, _, _, s.cursors.ip, s.cursors.cb, s.cursors.j, rfl⟩

/-- The stretch GENMAP, EMIT with the error-path writes. -/
theorem encodeBody_shape (s : State) : EncodeShape s (encodeBody s).state := by
  unfold encodeBody
  split
  · exact EncodeShape.refl s
  · have own {u v : State} (h : ∃ cnt k plen pbuf phase tree gen bb,
        v = { u with cnt := cnt, k := k, plen := plen, pbuf := pbuf, phase := phase, tree := tree, gen := gen, bb := bb }) :
        EncodeShape u v := by
      obtain ⟨_, _, _, _, _, _, _, _, rfl⟩ := h
      exact ⟨_, _, _, _, _, _, _, _, _, _, u.cursors.ip, u.cursors.cb, u.cursors.j, rfl⟩
    have h1 : EncodeShape s (scan (s.withPhase .scan)) :=
      (own ⟨_, _, _, _, _, _, _, _, rfl⟩).trans (scan_shape _).encode
    generalize hs : scan (s.withPhase .scan) = s1 at h1
    have h2 : EncodeShape s ((build ((s1.withCnt s1.ilen).withPhase .build)).withPhase .genmap) :=
      h1.trans (own ⟨_, _, _, _, _, _, _, _, rfl⟩)
    simp only
    generalize (build ((s1.withCnt s1.ilen).withPhase .build)).withPhase .genmap = s2 at h2
    have h3 := genmap_shape s2
    cases hg : genmap s2 with
    | raised e s3 =>
      rw [hg] at h3
      exact (h2.trans h3).trans (own ⟨_, _, _, _, _, _, _, _, rfl⟩)
    | ok s3 =>
      rw [hg] at h3
      have h4 : EncodeShape s (s3.withPhase .emit) := (h2.trans h3).trans (own ⟨_, _, _, _, _, _, _, _, rfl⟩)
      have h5 := emit_shape (s3.withPhase .emit)
      cases he : emit (s3.withPhase .emit) with
      | raised e s4 =>
        rw [he] at h5
        simp only [Run.bind_ok, he, Run.onRaise_raised, Run.bind_raised, Run.state_raised]
        exact (h4.trans h5.encode).trans (own ⟨_, _, _, _, _, _, _, _, rfl⟩)
      | ok s4 =>
        rw [he] at h5
        simp only [Run.bind_ok, he, Run.onRaise_ok, Run.state_ok]
        exact (h4.trans h5.encode).trans (own ⟨_, _, _, _, _, _, _, _, rfl⟩)

/-- The errors ENCODE can raise (R253 says only the first is reachable). -/
theorem encodeBody_error {s t : State} {e : ErrCode} (h : encodeBody s = .raised e t) :
    e = .capacity ∨ e = .internal := by
  unfold encodeBody at h
  split at h
  · cases h; exact .inl rfl
  · simp only at h
    generalize (build (((scan (s.withPhase .scan)).withCnt (scan (s.withPhase .scan)).ilen).withPhase .build)).withPhase
      .genmap = s2 at h
    cases hg : genmap s2 with
    | raised e3 s3 =>
      rw [hg] at h
      cases h
      unfold genmap at hg
      cases hc : genCodes s2.alphabet s2.tree s2.gen with
      | ok g => rw [hc] at hg; cases hg
      | raised e4 g => rw [hc] at hg; cases hg; exact .inr (genCodes_error hc)
    | ok s3 =>
      rw [hg] at h
      simp only [Run.bind_ok] at h
      cases he : emit (s3.withPhase .emit) with
      | raised e4 s4 => rw [he] at h; cases h; exact emitLoop_error he
      | ok s4 => rw [he] at h; cases h

/-! ### DECODE -/

/-- Fields DECODE can change between acceptance and completion. -/
def DecodeShape (s t : State) : Prop :=
  ∃ olen obuf phase tree bb oc cur,
    t = { s with
          olen := olen, obuf := obuf, phase := phase, tree := tree, bb := bb
          cursors := { s.cursors with oc := oc, cur := cur } }

theorem DecodeShape.refl (s : State) : DecodeShape s s := ⟨_, _, _, _, _, s.cursors.oc, s.cursors.cur, rfl⟩

theorem DecodeShape.trans {s t u : State} (h1 : DecodeShape s t) (h2 : DecodeShape t u) : DecodeShape s u := by
  obtain ⟨_, _, _, _, _, _, _, rfl⟩ := h1
  obtain ⟨_, _, _, _, _, _, _, rfl⟩ := h2
  exact ⟨_, _, _, _, _, _, _, rfl⟩

theorem walkLoop_shape (n : Nat) (s : State) : DecodeShape s (walkLoop n s).state := by
  induction n generalizing s with
  | zero =>
    unfold walkLoop
    split
    · exact ⟨_, _, _, _, _, s.cursors.oc, s.cursors.cur, rfl⟩
    · exact DecodeShape.refl s
  | succ n ih =>
    simp only [walkLoop]
    split
    · split
      · exact ⟨_, _, _, _, _, s.cursors.oc, s.cursors.cur, rfl⟩
      · split
        · exact DecodeShape.trans ⟨_, _, _, _, _, _, _, rfl⟩ (ih _)
        · exact DecodeShape.trans ⟨_, _, _, _, _, s.cursors.oc, _, rfl⟩ (ih _)
        · exact ⟨_, _, _, _, _, s.cursors.oc, _, rfl⟩
        · exact ⟨_, _, _, _, _, s.cursors.oc, _, rfl⟩
    · exact DecodeShape.refl s

theorem decodeBody_shape (s : State) : DecodeShape s (decodeBody s).state := by
  have own {u v : State} (h : ∃ olen phase tree bb, v = { u with olen := olen, phase := phase, tree := tree, bb := bb }) :
      DecodeShape u v := by
    obtain ⟨_, _, _, _, rfl⟩ := h
    exact ⟨_, _, _, _, _, u.cursors.oc, u.cursors.cur, rfl⟩
  have hb : DecodeShape s (build (s.withPhase .build)) := own ⟨_, _, _, _, rfl⟩
  unfold decodeBody
  split
  · exact own ⟨_, _, _, _, rfl⟩
  · simp only
    generalize build (s.withPhase .build) = b at hb
    refine hb.trans ?_
    split
    · exact own ⟨_, _, _, _, rfl⟩
    · split
      · exact own ⟨_, _, _, _, rfl⟩
      · split
        · exact ⟨_, _, b.phase, b.tree, b.bb, _, b.cursors.cur, rfl⟩
        · have h1 : DecodeShape b ((bbUnpack (b.withPhase .unpack)).withPhase .walk) := own ⟨_, _, _, _, rfl⟩
          generalize (bbUnpack (b.withPhase .unpack)).withPhase .walk = s1 at h1
          have h3 : DecodeShape s1 ((s1.withOc 0).withCur s1.tree.root) :=
            ⟨s1.olen, s1.obuf, s1.phase, s1.tree, s1.bb, _, _, rfl⟩
          have h2 : DecodeShape b (walk s1).state := h1.trans (h3.trans (walkLoop_shape _ _))
          cases hw : walk s1 with
          | ok s2 => rw [hw] at h2; exact h2.trans (own ⟨_, _, _, _, rfl⟩)
          | raised e s2 => rw [hw] at h2; exact h2

theorem walkLoop_error {n : Nat} {s t : State} {e : ErrCode} (h : walkLoop n s = .raised e t) :
    (e = .decExhausted ∨ e = .decNode) ∧ t.olen = 0 := by
  induction n generalizing s with
  | zero =>
    unfold walkLoop at h
    split at h
    · cases h; exact ⟨.inl rfl, rfl⟩
    · cases h
  | succ n ih =>
    simp only [walkLoop] at h
    split at h
    · split at h
      · cases h; exact ⟨.inl rfl, rfl⟩
      · split at h
        · exact ih h
        · exact ih h
        · cases h; exact ⟨.inr rfl, rfl⟩
        · cases h; exact ⟨.inr rfl, rfl⟩
    · cases h

/-- The errors DECODE can raise; OLEN is 0 then (R179). -/
theorem decodeBody_error {s t : State} {e : ErrCode} (h : decodeBody s = .raised e t) :
    (e = .capacity ∨ e = .decExhausted ∨ e = .decNode) ∧ t.olen = 0 := by
  unfold decodeBody at h
  split at h
  · cases h; exact ⟨.inl rfl, rfl⟩
  · simp only at h
    split at h
    · cases h
    · split at h
      · cases h; exact ⟨.inr (.inr rfl), rfl⟩
      · split at h
        · cases h
        · cases hw : walk ((bbUnpack ((build (s.withPhase .build)).withPhase .unpack)).withPhase .walk) with
          | ok s2 => rw [hw] at h; cases h
          | raised e1 s2 =>
            rw [hw] at h
            cases h
            have := walkLoop_error hw
            exact ⟨.inr this.1, this.2⟩

/-! ### SERIALIZE and DESERIALIZE -/

/-- SERIALIZE either raises ERR_CAPACITY with nothing written, or does all its writes. -/
theorem serializeBody_cases (s : State) :
    (serializeBody s = .raised .capacity s ∧ (256 < s.k.toNat ∨ s.cfg.pbufCap < s.plen.toNat ∨
        s.cfg.obufCap < 10 + 2 * s.k.toNat + s.plen.toNat)) ∨
      (serializeBody s = .ok (serializeWrites s) ∧ s.k.toNat ≤ 256 ∧ s.plen.toNat ≤ s.cfg.pbufCap ∧
        10 + 2 * s.k.toNat + s.plen.toNat ≤ s.cfg.obufCap) := by
  unfold serializeBody payloadOffsetOf Config.alphaCap
  split
  · next h => exact .inl ⟨rfl, h⟩
  · next h => exact .inr ⟨rfl, by omega, by omega, by omega⟩

/-- DESERIALIZE either raises the error CHECK found with nothing but PHASE written, or does all its writes. -/
theorem deserializeBody_cases (s : State) :
    (∃ e, e ≠ .none ∧ checkImage (s.withPhase .check) = e ∧ deserializeBody s = .raised e (s.withPhase .check)) ∨
      (checkImage (s.withPhase .check) = .none ∧ deserializeBody s = .ok (commitImage (s.withPhase .check))) := by
  unfold deserializeBody
  simp only
  split
  · next h => exact .inr ⟨h, rfl⟩
  · next e h => exact .inl ⟨_, fun h' => h h', rfl, rfl⟩

end Sys2Proof.Machine
end

