-- ==== Sys2Proof/Laws/Operands.lean ====
section
/-! SUPPORT. Laws of operands: the Alphabet and byte ranges as lists, elements after consecutive writes, container integers and
their bytes, the wire image byte by byte. -/

namespace Sys2Proof.Machine

/-! ### Lists of elements -/

@[simp] theorem State.length_alphabet (s : State) : s.alphabet.length = s.k.toNat := by simp [State.alphabet]

@[simp] theorem State.getElem_alphabet (s : State) (j : Nat) (h : j < s.alphabet.length) :
    s.alphabet[j] = (s.byteAt .alphaSym j, s.freqAt j) := by simp [State.alphabet]

@[simp] theorem State.length_bytesFrom (s : State) (sp : ByteSpace) (i n : Nat) : (s.bytesFrom sp i n).length = n := by
  simp [State.bytesFrom]

@[simp] theorem State.getElem_bytesFrom (s : State) (sp : ByteSpace) (i n t : Nat) (h : t < (s.bytesFrom sp i n).length) :
    (s.bytesFrom sp i n)[t] = s.byteAt sp (i + t) := by simp [State.bytesFrom]

/-- Two states with the same K and the same first K entries have the same Alphabet. -/
theorem State.alphabet_congr {s t : State} (hk : t.k = s.k)
    (h : ∀ j, j < s.k.toNat → t.byteAt .alphaSym j = s.byteAt .alphaSym j ∧ t.freqAt j = s.freqAt j) :
    t.alphabet = s.alphabet := by
  simp only [State.alphabet, hk]
  apply List.map_congr_left
  intro j hj
  obtain ⟨h1, h2⟩ := h j (by simpa using hj)
  rw [h1, h2]

theorem State.bytesFrom_congr {s t : State} {sp sq : ByteSpace} {i k n : Nat}
    (h : ∀ j, j < n → t.byteAt sq (k + j) = s.byteAt sp (i + j)) : t.bytesFrom sq k n = s.bytesFrom sp i n := by
  simp only [State.bytesFrom]
  apply List.map_congr_left
  intro j hj
  exact h j (by simpa using hj)

/-! ### Elements after consecutive writes -/

theorem State.byteAt_obuf_writeMany (s : State) (m i : Nat) (vs : List Byte) :
    (s.withObuf (Memory.writeMany s.obuf m vs)).byteAt .obuf i =
      if h : m ≤ i ∧ i - m < vs.length then vs[i - m] else s.byteAt .obuf i := by
  simp only [State.byteAt, State.bytesOf, State.withObuf_obuf, State.withObuf_epoch, Memory.read?_writeMany]
  split <;> rfl

theorem State.byteAt_pbuf_writeMany (s : State) (m i : Nat) (vs : List Byte) :
    (s.withPbuf (Memory.writeMany s.pbuf m vs)).byteAt .pbuf i =
      if h : m ≤ i ∧ i - m < vs.length then vs[i - m] else s.byteAt .pbuf i := by
  simp only [State.byteAt, State.bytesOf, State.withPbuf_pbuf, State.withPbuf_epoch, Memory.read?_writeMany]
  split <;> rfl

theorem State.byteAt_alphaSym_writeMany (s : State) (m i : Nat) (vs : List Byte) :
    (s.withAlphaSym (Memory.writeMany s.alphaSym m vs)).byteAt .alphaSym i =
      if h : m ≤ i ∧ i - m < vs.length then vs[i - m] else s.byteAt .alphaSym i := by
  simp only [State.byteAt, State.bytesOf, State.withAlphaSym_alphaSym, State.withAlphaSym_epoch, Memory.read?_writeMany]
  split <;> rfl

theorem State.freqAt_writeMany (s : State) (m i : Nat) (vs : List Word) :
    (s.withAlphaFreq (Memory.writeMany s.alphaFreq m vs)).freqAt i =
      if h : m ≤ i ∧ i - m < vs.length then vs[i - m] else s.freqAt i := by
  simp only [State.freqAt, State.withAlphaFreq_alphaFreq, State.withAlphaFreq_epoch, Memory.read?_writeMany]
  split <;> rfl

/-! ### Container integers -/

theorem be16_toNat (b0 b1 : Byte) : (be16 b0 b1).toNat = 256 * b0.toNat + b1.toNat := by
  have h1 : b1.toNat < 2 ^ 8 := b1.isLt
  simp only [be16, BitVec.toNat_append]
  rw [Nat.shiftLeft_eq, Nat.mul_comm, ← Nat.two_pow_add_eq_or_of_lt h1]

theorem be32_toNat (b0 b1 b2 b3 : Byte) :
    (be32 b0 b1 b2 b3).toNat = 2 ^ 24 * b0.toNat + 2 ^ 16 * b1.toNat + 2 ^ 8 * b2.toNat + b3.toNat := by
  have h1 : b1.toNat < 2 ^ 8 := b1.isLt
  have h2 : b2.toNat < 2 ^ 8 := b2.isLt
  have h3 : b3.toNat < 2 ^ 8 := b3.isLt
  simp only [be32, BitVec.toNat_append, Nat.shiftLeft_eq]
  rw [Nat.mul_comm b0.toNat, ← Nat.two_pow_add_eq_or_of_lt h1, Nat.mul_comm (_ + _), ← Nat.two_pow_add_eq_or_of_lt h2,
    Nat.mul_comm (_ + _), ← Nat.two_pow_add_eq_or_of_lt h3]
  omega

/-- The bytes of a 16-bit integer, assembled, give it back (R43). -/
theorem be16_bytes16 (v : BitVec 16) : be16 (v.extractLsb' 8 8) (v.extractLsb' 0 8) = v := by
  apply BitVec.eq_of_toNat_eq
  rw [be16_toNat]
  simp only [BitVec.extractLsb'_toNat, Nat.shiftRight_eq_div_pow]
  have := v.isLt
  omega

/-- The bytes of a 32-bit integer, assembled, give it back (R43). -/
theorem be32_bytes32 (v : BitVec 32) :
    be32 (v.extractLsb' 24 8) (v.extractLsb' 16 8) (v.extractLsb' 8 8) (v.extractLsb' 0 8) = v := by
  apply BitVec.eq_of_toNat_eq
  rw [be32_toNat]
  simp only [BitVec.extractLsb'_toNat, Nat.shiftRight_eq_div_pow]
  have := v.isLt
  omega

/-- The first byte of an assembled 16-bit integer. -/
theorem bytes16_be16 (b0 b1 : Byte) : bytes16 (be16 b0 b1) = [b0, b1] := by
  have h0 : b0.toNat < 2 ^ 8 := b0.isLt
  have h1 : b1.toNat < 2 ^ 8 := b1.isLt
  simp only [bytes16, List.cons.injEq, and_true]
  constructor <;> apply BitVec.eq_of_toNat_eq <;>
    simp only [BitVec.extractLsb'_toNat, Nat.shiftRight_eq_div_pow, be16_toNat] <;> omega

theorem bytes32_be32 (b0 b1 b2 b3 : Byte) : bytes32 (be32 b0 b1 b2 b3) = [b0, b1, b2, b3] := by
  have h0 : b0.toNat < 2 ^ 8 := b0.isLt
  have h1 : b1.toNat < 2 ^ 8 := b1.isLt
  have h2 : b2.toNat < 2 ^ 8 := b2.isLt
  have h3 : b3.toNat < 2 ^ 8 := b3.isLt
  simp only [bytes32, List.cons.injEq, and_true]
  refine ⟨?_, ?_, ?_, ?_⟩ <;> apply BitVec.eq_of_toNat_eq <;>
    simp only [BitVec.extractLsb'_toNat, Nat.shiftRight_eq_div_pow, be32_toNat] <;> omega

/-! ### The image, byte by byte -/

@[simp] theorem length_headerBytes (s : State) : (headerBytes s).length = 10 := rfl

theorem length_flatMap_wireEntry (es : List (Byte × Word)) : (es.flatMap wireEntry).length = 2 * es.length := by
  induction es with
  | nil => rfl
  | cons e es ih => simp only [List.flatMap_cons, List.length_append, ih, wireEntry, List.length_cons, List.length_nil]; omega

@[simp] theorem length_alphabetBytes (s : State) : (alphabetBytes s).length = 2 * s.k.toNat := by
  rw [alphabetBytes, length_flatMap_wireEntry, State.length_alphabet]

@[simp] theorem length_imageBytes (s : State) : (imageBytes s).length = 10 + 2 * s.k.toNat + s.plen.toNat := by
  simp only [imageBytes, List.length_append, length_headerBytes, length_alphabetBytes, State.length_bytesFrom]

/-- Byte `2j` of the wire Alphabet is the symbol of entry `j`, byte `2j + 1` its frequency modulo 256 (R61, R65). -/
theorem getElem?_flatMap_wireEntry (es : List (Byte × Word)) (j : Nat) (h : j < es.length) :
    (es.flatMap wireEntry)[2 * j]? = some es[j].1 ∧
      (es.flatMap wireEntry)[2 * j + 1]? = some (es[j].2.extractLsb' 0 8) := by
  induction es generalizing j with
  | nil => simp at h
  | cons e es ih =>
    cases j with
    | zero => simp [wireEntry]
    | succ j =>
      have := ih j (by simpa using h)
      simpa [wireEntry, Nat.mul_add, List.flatMap_cons] using this

/-- The header's bytes (R61). -/
theorem getElem?_imageBytes_header (s : State) (i : Nat) (h : i < 10) : (imageBytes s)[i]? = (headerBytes s)[i]? := by
  simp only [imageBytes, List.append_assoc]
  rw [List.getElem?_append_left (by simpa using h)]

/-- The entries' bytes (R61). -/
theorem getElem?_imageBytes_entry (s : State) (j : Nat) (h : j < s.k.toNat) :
    (imageBytes s)[10 + 2 * j]? = some (s.byteAt .alphaSym j) ∧
      (imageBytes s)[11 + 2 * j]? = some ((s.freqAt j).extractLsb' 0 8) := by
  have h2 := getElem?_flatMap_wireEntry s.alphabet j (by simpa using h)
  simp only [State.getElem_alphabet] at h2
  simp only [imageBytes, List.append_assoc]
  constructor
  · rw [List.getElem?_append_right (by simp), List.getElem?_append_left (by simp; omega), length_headerBytes,
      show 10 + 2 * j - 10 = 2 * j by omega]
    exact h2.1
  · rw [List.getElem?_append_right (by simp; omega), List.getElem?_append_left (by simp; omega), length_headerBytes,
      show 11 + 2 * j - 10 = 2 * j + 1 by omega]
    exact h2.2

/-- The payload's bytes (R61). -/
theorem getElem?_imageBytes_payload (s : State) (i : Nat) (h : i < s.plen.toNat) :
    (imageBytes s)[10 + 2 * s.k.toNat + i]? = some (s.byteAt .pbuf i) := by
  simp only [imageBytes, List.append_assoc]
  rw [List.getElem?_append_right (by simp; omega), List.getElem?_append_right (by simp; omega)]
  simp only [length_headerBytes, length_alphabetBytes]
  rw [show 10 + 2 * s.k.toNat + i - 10 - 2 * s.k.toNat = i by omega, List.getElem?_eq_getElem (by simpa using h)]
  simp

end Sys2Proof.Machine
end

