-- ==== Sys2Proof/Laws/PerInstr.lean ====
section
/-! SUPPORT. Statements made per instruction, one lemma per constructor of `Instr`. -/

/-- Family DecodeEncode (R70, R71): the instruction's command word is well formed, decodes to the instruction, and is the number of its
opcode. -/
def Sys2Proof.Laws.DecodeEncode.Statement (i : Sys2Proof.Instr) : Prop :=
  Sys2Proof.commandWordWellFormed (Sys2Proof.encodeWord i) = true ∧
    Sys2Proof.decodeWord (Sys2Proof.encodeWord i) = .ok i ∧
    (Sys2Proof.encodeWord i).toNat = (Sys2Proof.opcodeOf i).toNat ∧
    Sys2Proof.commandOfOpcode (Sys2Proof.opcodeOf i) = some i ∧ i.wellFormed = true

theorem Sys2Proof.Laws.DecodeEncode.encode : Sys2Proof.Laws.DecodeEncode.Statement .encode := by
  refine ⟨?_, ?_, ?_, ?_, ?_⟩ <;> decide

theorem Sys2Proof.Laws.DecodeEncode.decode : Sys2Proof.Laws.DecodeEncode.Statement .decode := by
  refine ⟨?_, ?_, ?_, ?_, ?_⟩ <;> decide

theorem Sys2Proof.Laws.DecodeEncode.serialize : Sys2Proof.Laws.DecodeEncode.Statement .serialize := by
  refine ⟨?_, ?_, ?_, ?_, ?_⟩ <;> decide

theorem Sys2Proof.Laws.DecodeEncode.deserialize : Sys2Proof.Laws.DecodeEncode.Statement .deserialize := by
  refine ⟨?_, ?_, ?_, ?_, ?_⟩ <;> decide
end

