-- ==== Sys2Proof/Laws/Table.lean ====
section
/-! SUPPORT. Laws of the hidden tables (dense lists whose cells past the end read as blank). -/

namespace Sys2Proof.Machine

variable {α : Type} (blank : α)

@[simp] theorem Table.get_put_same (t : List α) (i : Nat) (v : α) : Table.get blank (Table.put blank t i v) i = v := by
  induction i generalizing t with
  | zero => cases t <;> simp [Table.put, Table.get]
  | succ i ih => cases t <;> simpa [Table.put, Table.get] using ih _

theorem Table.get_put_other (t : List α) {i j : Nat} (v : α) (h : j ≠ i) :
    Table.get blank (Table.put blank t i v) j = Table.get blank t j := by
  induction i generalizing t j with
  | zero =>
    cases j with
    | zero => exact absurd rfl h
    | succ j => cases t <;> simp [Table.put, Table.get]
  | succ i ih =>
    cases j with
    | zero => cases t <;> simp [Table.put, Table.get]
    | succ j =>
      have hj : j ≠ i := fun e => h (by rw [e])
      cases t with
      | nil => simpa [Table.put, Table.get] using ih [] hj
      | cons c t => simpa [Table.put, Table.get] using ih t hj

theorem Table.get_put (t : List α) (i j : Nat) (v : α) :
    Table.get blank (Table.put blank t i v) j = if j = i then v else Table.get blank t j := by
  split
  · next h => subst h; simp
  · next h => exact Table.get_put_other blank t v h

@[simp] theorem Table.length_first (n : Nat) (t : List α) : (Table.first blank n t).length = n := by
  induction n generalizing t with
  | zero => rfl
  | succ n ih => cases t <;> simp [Table.first, ih]

theorem Table.getElem_first (n : Nat) (t : List α) (i : Nat) (h : i < (Table.first blank n t).length) :
    (Table.first blank n t)[i] = Table.get blank t i := by
  induction n generalizing t i with
  | zero => simp [Table.first] at h
  | succ n ih =>
    cases t with
    | nil =>
      cases i with
      | zero => simp [Table.first, Table.get]
      | succ i =>
        simp only [Table.first, List.getElem_cons_succ]
        rw [ih]; simp [Table.get]
    | cons c t =>
      cases i with
      | zero => simp [Table.first, Table.get]
      | succ i =>
        simp only [Table.first, List.getElem_cons_succ]
        rw [ih]; simp [Table.get]

/-- Two tables with the same first `n` cells. -/
theorem Table.first_congr {n : Nat} {t u : List α} (h : ∀ i, i < n → Table.get blank t i = Table.get blank u i) :
    Table.first blank n t = Table.first blank n u := by
  apply List.ext_getElem
  · simp
  · intro i h1 h2
    rw [Table.getElem_first, Table.getElem_first]
    exact h i (by simpa using h1)

theorem Table.first_succ (n : Nat) (t : List α) :
    Table.first blank (n + 1) t = Table.first blank n t ++ [Table.get blank t n] := by
  apply List.ext_getElem
  · simp
  · intro i h1 h2
    rw [Table.getElem_first]
    by_cases hi : i < n
    · rw [List.getElem_append_left (by simpa using hi), Table.getElem_first]
    · have : i = n := by
        have : i < n + 1 := by simpa using h1
        omega
      subst this
      simp

theorem Table.get_putFirst (t vs : List α) (i : Nat) :
    Table.get blank (Table.putFirst t vs) i = if h : i < vs.length then vs[i] else Table.get blank t i := by
  simp only [Table.putFirst, Table.get, List.getD_eq_getElem?_getD]
  split
  · next h => rw [List.getElem?_append_left h]; simp [h]
  · next h =>
    rw [List.getElem?_append_right (by omega), List.getElem?_drop]
    congr 2
    omega

theorem Table.get_mapFirst (f : α → α) (n : Nat) (t : List α) (i : Nat) :
    Table.get blank (Table.mapFirst blank f n t) i =
      if i < n then f (Table.get blank t i) else Table.get blank t i := by
  simp only [Table.mapFirst, Table.get_putFirst, List.length_map, Table.length_first]
  split
  · next h => simp [Table.getElem_first]
  · rfl

theorem Table.first_putFirst (t vs : List α) : Table.first blank vs.length (Table.putFirst t vs) = vs := by
  apply List.ext_getElem
  · simp
  · intro i h1 h2
    rw [Table.getElem_first, Table.get_putFirst, dif_pos h2]

end Sys2Proof.Machine
end

