-- ==== Sys2Proof/Laws/Units.lean ====
section
/-! SUPPORT. Laws of the units and of the sequencer: for each shared operation, everything it can do, said once. -/

namespace Sys2Proof.Machine

/-! ### BitBuffer -/

/-- A push (R92) either raises ERR_CAPACITY at a full buffer and leaves it, or writes the cell at NBITS and advances NBITS. -/
theorem bbPushBit_cases (cap : Nat) (v : Bool) (b : BitBuffer) :
    (b.nbits.toNat = cap ∧ bbPushBit cap v b = .raised .capacity b) ∨
      (b.nbits.toNat ≠ cap ∧ bbPushBit cap v b =
        .ok { b with bits := Table.put false b.bits b.nbits.toNat v, nbits := b.nbits + 1 }) := by
  unfold bbPushBit
  split
  · next h => exact .inl ⟨h, rfl⟩
  · next h => exact .inr ⟨h, rfl⟩

/-- A pop (R96) either signals `empty` at RP = NBITS or gives the cell at RP and advances RP. -/
theorem bbPopBit_cases (b : BitBuffer) :
    (b.rp = b.nbits ∧ bbPopBit b = none) ∨
      (b.rp ≠ b.nbits ∧ bbPopBit b = some (Table.get false b.bits b.rp.toNat, { b with rp := b.rp + 1 })) := by
  unfold bbPopBit
  split
  · next h => exact .inl ⟨h, rfl⟩
  · next h => exact .inr ⟨h, rfl⟩

@[simp] theorem length_bbValue (b : BitBuffer) : (bbValue b).length = b.nbits.toNat := by simp [bbValue]

@[simp] theorem bbClear_value (b : BitBuffer) : bbValue (bbClear b) = [] := rfl

@[simp] theorem length_packBytes (order : PackOrder) (n : Nat) (bits : Bits) : (packBytes order n bits).length = n := by
  induction n generalizing bits with
  | zero => rfl
  | succ n ih => simp [packBytes, ih]

@[simp] theorem length_unpackByte (order : PackOrder) (v : Byte) : (unpackByte order v).length = 8 := by
  simp [unpackByte]

/-! ### Alphabet scanner -/

/-- What the lookup of R110 finds is the least index of the range whose entry carries the byte. -/
theorem findSym_some {s : State} {b : Byte} {n j i : Nat} (h : findSym s b n j = some i) :
    j ≤ i ∧ i < j + n ∧ s.byteAt .alphaSym i = b ∧ ∀ m, j ≤ m → m < i → s.byteAt .alphaSym m ≠ b := by
  induction n generalizing j with
  | zero => cases h
  | succ n ih =>
    unfold findSym at h
    split at h
    · next hb =>
      cases h
      exact ⟨Nat.le_refl _, by omega, hb, fun m h1 h2 => absurd h1 (by omega)⟩
    · next hb =>
      obtain ⟨h1, h2, h3, h4⟩ := ih h
      refine ⟨by omega, by omega, h3, fun m hm hi => ?_⟩
      rcases Nat.eq_or_lt_of_le hm with rfl | hm
      · exact hb
      · exact h4 m hm hi

/-- The lookup finds nothing exactly when no entry of the range carries the byte. -/
theorem findSym_none {s : State} {b : Byte} {n j : Nat} (h : findSym s b n j = none) (m : Nat) (h1 : j ≤ m)
    (h2 : m < j + n) : s.byteAt .alphaSym m ≠ b := by
  induction n generalizing j with
  | zero => omega
  | succ n ih =>
    unfold findSym at h
    split at h
    · cases h
    · next hb =>
      rcases Nat.eq_or_lt_of_le h1 with rfl | h1
      · exact hb
      · exact ih h h1 (by omega)

/-! ### Code-map generator -/

/-- One round of R142: at a LEAF it records a code, at an INTERNAL node it pushes right then left, anything else is ERR_INTERNAL. -/
theorem genStep_cases (t : TreeBuilder) (g : CodeMapGen) :
    let e := Table.get StkEntry.blank g.stk (g.sp - 1).toNat
    let path := if 0 < e.depth.toNat then Table.put false g.path (e.depth.toNat - 1) e.bit else g.path
    let c := nodeAt t e.node.toNat
    let g1 := { g with sp := g.sp - 1, path := path }
    (c.tag = .leaf ∧ genStep t g =
        .ok (putCode g1 c.byte { valid := true, len := e.depth, code := Table.first false e.depth.toNat path })) ∨
      (c.tag = .internal ∧ genStep t g = .ok (stkPush (stkPush g1 { node := c.right, depth := e.depth + 1, bit := true })
        { node := c.left, depth := e.depth + 1, bit := false })) ∨
      ((c.tag = .empty ∨ c.tag = .reserved) ∧ genStep t g = .raised .internal g1) := by
  simp only [genStep]
  split
  · next h => exact .inl ⟨h, rfl⟩
  · next h => exact .inr (.inl ⟨h, rfl⟩)
  · next h => exact .inr (.inr ⟨.inl h, rfl⟩)
  · next h => exact .inr (.inr ⟨.inr h, rfl⟩)

theorem codeOf_putCode (g : CodeMapGen) (b c : Byte) (e : CodeEntry) :
    codeOf (putCode g b e) c = if c = b then e else codeOf g c := by
  simp only [codeOf, putCode, Table.get_put]
  by_cases h : c = b
  · simp [h]
  · have : c.toNat ≠ b.toNat := fun hn => h (BitVec.eq_of_toNat_eq hn)
    simp [h, this]

theorem codeOf_invalidateAll (g : CodeMapGen) (b : Byte) : (codeOf (invalidateAll g) b).valid = false := by
  have h : b.toNat < 256 := b.isLt
  simp only [codeOf, invalidateAll, Table.get_mapFirst]
  simp [h]

/-! ### Sequencer and host port -/

/-- Issue (R216, R217): ignored while BUSY; ERR_BAD_CMD for a word that is no command's; the command at once; or acceptance, with moves
to land in the interval. -/
theorem issue_cases (w : Word) (turns : Nat) (s : State) :
    (s.isBusy = true ∧ issue w turns s = .next s) ∨
      (s.isBusy = false ∧ (∃ e, decodeWord w = .error e) ∧ issue w turns s = .next (raiseError .badCmd s)) ∨
      (s.isBusy = false ∧ ∃ i, decodeWord w = .ok i ∧
        ((turns = 0 ∧ issue w turns s = exec i s) ∨
          ∃ n, turns = n + 1 ∧ issue w turns s = .next ((accept i s).withHost { s.host with turns := n + 1 }))) := by
  unfold issue
  cases hb : s.isBusy with
  | true => exact .inl ⟨rfl, rfl⟩
  | false =>
    cases hd : decodeWord w with
    | error e => exact .inr (.inl ⟨rfl, ⟨e, rfl⟩, rfl⟩)
    | ok i =>
      refine .inr (.inr ⟨rfl, i, rfl, ?_⟩)
      cases turns with
      | zero => exact .inl ⟨rfl, rfl⟩
      | succ n => exact .inr ⟨n, rfl, rfl⟩

/-- Who moves next (R215, R49): a host move landing in the BUSY interval; the engine; a host move outside it; or nobody. -/
theorem nextMove_cases (s : State) :
    (s.isBusy = true ∧ ∃ a rest n, s.host.script = a :: rest ∧ s.host.turns = n + 1 ∧
        nextMove s = hostMove a (s.withHost { s.host with script := rest, turns := n })) ∨
      (s.isBusy = true ∧ (s.host.script = [] ∨ s.host.turns = 0) ∧
        nextMove s = engineTurn (s.withHost { s.host with turns := 0 })) ∨
      (s.isBusy = false ∧ ∃ a rest, s.host.script = a :: rest ∧
        nextMove s = hostMove a (s.withHost { s.host with script := rest })) ∨
      (s.isBusy = false ∧ s.host.script = [] ∧ nextMove s = .next s) := by
  unfold nextMove
  cases hb : s.isBusy with
  | true =>
    cases hs : s.host.script with
    | nil => exact .inr (.inl ⟨rfl, .inl rfl, rfl⟩)
    | cons a rest =>
      cases ht : s.host.turns with
      | zero => exact .inr (.inl ⟨rfl, .inr rfl, rfl⟩)
      | succ n => exact .inl ⟨rfl, a, rest, n, rfl, rfl, rfl⟩
  | false =>
    cases hs : s.host.script with
    | nil => exact .inr (.inr (.inr ⟨rfl, rfl, rfl⟩))
    | cons a rest => exact .inr (.inr (.inl ⟨rfl, a, rest, rfl, rfl⟩))

/-- The same in the terms of Safety.lean: the host's move, the engine's, or none. -/
theorem step_moves (s : State) :
    (∃ a h, HostMakes a s ∧ step s = hostMove a (s.withHost h)) ∨
      (EngineMoves s ∧ step s = engineTurn (s.withHost { s.host with turns := 0 })) ∨
      (s.isBusy = false ∧ s.host.script = [] ∧ step s = .next s) := by
  rcases nextMove_cases s with ⟨_, a, rest, n, hs, ht, h⟩ | ⟨hb, hn, h⟩ | ⟨hb, a, rest, hs, h⟩ | h
  · exact .inl ⟨a, _, ⟨.inr (by simp [ht]), rest, hs⟩, h⟩
  · exact .inr (.inl ⟨⟨hb, hn⟩, h⟩)
  · exact .inl ⟨a, _, ⟨.inl hb, rest, hs⟩, h⟩
  · exact .inr (.inr h)

/-- A write of `w` to CMD (R216) issues `w`, by name or through register number 0. -/
theorem hostMove_issuesAtOnce {a : HostAct} {w : Word} (h : IssuesAtOnce a w) (s : State) : hostMove a s = issue w 0 s := by
  rcases h with rfl | ⟨v, rfl, rfl⟩ <;> rfl

theorem hostMove_writesCmd {a : HostAct} {w : Word} (h : WritesCmd a w) (s : State) : ∃ n, hostMove a s = issue w n s := by
  rcases h with ⟨n, rfl⟩ | ⟨v, rfl, rfl⟩
  · exact ⟨n, rfl⟩
  · exact ⟨0, rfl⟩

/-- A host write (R41) is done or ignored. -/
theorem portWrite_eq (f : State → State) (s : State) : portWrite f s = if s.isBusy = true then s else f s := by
  unfold portWrite
  split <;> simp_all

/-- The state a host read leaves (R41, R46): unchanged, but for the count of unspecified reads while BUSY. -/
theorem portRead_state (w : Nat) (v : Datum) (s : State) :
    (portRead w v s).2 = if s.isBusy = true then s.withDraws (s.draws + 1) else s := by
  unfold portRead
  split <;> simp_all

theorem portRead_value (w : Nat) (v : Datum) (s : State) (h : s.isBusy = false) : (portRead w v s).1 = v := by
  simp [portRead, h]

end Sys2Proof.Machine
end

