-- ==== Sys2Proof/Tests/Slice0.lean ====
section
/-! SUPPORT. The model's own tests: ill-formed terms refused, command words, vectors of 95_test_vectors.md, and for every obligation
with hypotheses a concrete input that meets them. -/

namespace Sys2Proof.Tests

-- Theorems one after another: each kernel evaluation below would otherwise hold a thread of its own.
set_option Elab.async false

open Sys2Proof Sys2Proof.Machine

/-! ### Small states -/

/-- An instance small enough to hit its limits. -/
def tiny : Config := { ibufCap := 16, obufCap := 16, pbufCap := 1, packOrder := .msbFirst }

/-- The state after reset of an instance. -/
def instanceOf (c : Config) : State := { State.reset with cfg := c }

/-- `LOAD IBUF, bytes`. -/
def withInput (l : List Byte) (s : State) : State :=
  (s.withIbuf (Memory.writeMany s.ibuf 0 l)).withIlen (BitVec.ofNat 32 l.length)

/-- `ALPHA es`, `LOAD PBUF, payload`, `WR CNT, cnt`. -/
def withContainer (es : List (Byte × Word)) (payload : List Byte) (cnt : Nat) (s : State) : State :=
  let s1 := (s.withAlphaSym (Memory.writeMany s.alphaSym 0 (es.map Prod.fst))).withAlphaFreq
    (Memory.writeMany s.alphaFreq 0 (es.map Prod.snd))
  let s2 := (s1.withPbuf (Memory.writeMany s.pbuf 0 payload)).withPlen (BitVec.ofNat 32 payload.length)
  (s2.withK (BitVec.ofNat 9 es.length)).withCnt (BitVec.ofNat 32 cnt)

/-- The host's moves still to be made. -/
def withScript (acts : List HostAct) (turns : Nat) (s : State) : State :=
  s.withHost { script := acts, reads := [], turns := turns }

def stateOf (s : State) (o : Host.Outcome State Fault Refusal) : State :=
  match o with
  | .next t => t
  | .fault _ => s
  | .refused _ => s

/-- The state a command leaves. -/
def after (i : Instr) (s : State) : State := stateOf s (exec i s)

/-- The state one step leaves. -/
def stepped (s : State) : State := stateOf s (step s)

theorem exec_after (i : Instr) (s : State) : exec i s = .next (after i s) := by
  cases i <;> simp [after, stateOf, exec, execEncode, execDecode, execSerialize, execDeserialize, complete_eq]

/-- "aab". -/
def aab : List Byte := [0x61#8, 0x61#8, 0x62#8]

/-- The state after `LOAD IBUF` of "aab" on the standard instance. -/
def loadedAab : State := withInput aab State.reset

/-- The Container (61,2) (62,2), CNT = `cnt`, of T-DE7. -/
def abContainer (cnt : Nat) (payload : List Byte) : State :=
  withContainer [(0x61#8, 2), (0x62#8, 2)] payload cnt State.reset

/-- The image of T-SE3 as input. -/
def abImage : List Byte :=
  [0x48#8, 0x55#8, 0x46#8, 0x46#8, 0#8, 0#8, 0#8, 4#8, 0#8, 0x0E#8, 0x61#8, 2#8, 0x62#8, 2#8, 0x50#8]

/-- An image with byte 8 and byte 9 given, `n` bytes long. -/
def imageWith (b8 b9 : Byte) (n : Nat) : List Byte :=
  [0x48#8, 0x55#8, 0x46#8, 0x46#8, 0#8, 0#8, 0#8, 1#8, b8, b9] ++ List.replicate (n - 10) 0x61#8

/-- 256 entries. -/
def fullAlphabet : List (Byte × Word) := (List.range 256).map (fun n => (BitVec.ofNat 8 n, 1#32))

/-- BUSY: ENCODE accepted, not yet completed. -/
def busyState : State := accept .encode loadedAab

/-! ### Ill-formed terms are refused -/

theorem test_word_with_high_bit_refused : commandWordWellFormed 0x00000101#32 = false := by decide

theorem test_word_with_unlisted_opcode_refused :
    commandWordWellFormed 0x00000005#32 = false ∧ commandWordWellFormed 0#32 = false := by decide

theorem test_zero_ibuf_cap_refused : Config.wellFormed { Config.standard with ibufCap := 0 } = false := by decide

theorem test_zero_obuf_cap_refused : Config.wellFormed { Config.standard with obufCap := 0 } = false := by decide

theorem test_huge_pbuf_cap_refused : Config.wellFormed { Config.standard with pbufCap := 2 ^ 32 } = false := by decide

theorem test_index_past_space_refused :
    ByteSpace.ibuf.indexWellFormed Config.standard 1024 = false ∧
      ByteSpace.alphaSym.indexWellFormed Config.standard 256 = false := by decide

theorem test_instructions_well_formed : ∀ i : Instr, i.wellFormed = true := by intro i; cases i <;> rfl

/-! ### Command words (R71) -/

/-- 30_encoding.md R70, R71: each row of the map, bits 31:8 zero, as the table numbers its bits. -/
theorem test_table_words_decode :
    decodeTableWord 32 0b00000000000000000000000000000001 = some .encode ∧
      decodeTableWord 32 0b00000000000000000000000000000010 = some .decode ∧
      decodeTableWord 32 0b00000000000000000000000000000011 = some .serialize ∧
      decodeTableWord 32 0b00000000000000000000000000000100 = some .deserialize := by decide

/-- T-CI2 to T-CI5: no command. -/
theorem test_illegal_words_refused :
    decodeTableWord 32 0 = none ∧ decodeTableWord 32 5 = none ∧ decodeTableWord 32 0x101 = none ∧
      decodeTableWord 32 0xFFFFFFFF = none := by decide

/-! ### Vectors of 95_test_vectors.md -/

/-- T-EN8, `abracadabra`: K = 5, NBITS = 23, payload A2 53 A2. -/
theorem test_encode_abracadabra :
    let t := after .encode (withInput [0x61#8, 0x62#8, 0x72#8, 0x61#8, 0x63#8, 0x61#8, 0x64#8, 0x61#8, 0x62#8, 0x72#8, 0x61#8]
      State.reset)
    t.status = 0x02#32 ∧ t.k = 5 ∧ t.bb.nbits = 23 ∧ t.bytesFrom .pbuf 0 3 = [0xA2#8, 0x53#8, 0xA2#8] := by
  decide +kernel

/-- T-EN16: nine bits do not fit eight; the entries stay written but dead. -/
theorem test_encode_over_capacity :
    let t := after .encode (withInput [0x61#8, 0x62#8, 0x61#8, 0x62#8, 0x61#8, 0x62#8, 0x61#8, 0x62#8, 0x61#8] (instanceOf tiny))
    t.status = 0x73#32 ∧ t.k = 0 ∧ t.cnt = 0 ∧ t.plen = 0 ∧ t.bb.nbits = 0 ∧ t.byteAt .alphaSym 1 = 0x62#8 ∧
      t.freqAt 0 = 5 ∧ t.freqAt 1 = 4 ∧ t.pbuf = [] := by
  decide +kernel

/-- T-DE7: DONE, `abab`, NBITS = 8, RP = 4. -/
theorem test_decode_abab :
    let t := after .decode (abContainer 4 [0x50#8])
    t.status = 0x02#32 ∧ t.olen = 4 ∧ t.bytesFrom .obuf 0 4 = [0x61#8, 0x62#8, 0x61#8, 0x62#8] ∧ t.bb.nbits = 8 ∧
      t.bb.rp = 4 := by
  decide +kernel

/-- T-DE8: the payload is exhausted after eight bytes, which stay written. -/
theorem test_decode_exhausted :
    let t := after .decode (abContainer 9 [0x50#8])
    t.status = 0x43#32 ∧ t.olen = 0 ∧ t.bb.nbits = 8 ∧
      t.bytesFrom .obuf 0 8 = [0x61#8, 0x62#8, 0x61#8, 0x62#8, 0x61#8, 0x61#8, 0x61#8, 0x61#8] := by
  decide +kernel

/-- T-SE3: the 15 bytes of the image of `abab`. -/
theorem test_serialize_abab :
    let t := after .serialize (abContainer 4 [0x50#8])
    t.status = 0x02#32 ∧ t.poff = 14 ∧ t.olen = 15 ∧ t.bytesFrom .obuf 0 15 =
      [0x48#8, 0x55#8, 0x46#8, 0x46#8, 0x00#8, 0x00#8, 0x00#8, 0x04#8, 0x00#8, 0x0E#8, 0x61#8, 0x02#8, 0x62#8, 0x02#8, 0x50#8] := by
  decide +kernel

/-- T-SE11 with the count of T-FT1: CNT most significant byte first, 256 goes out as 0, and FTRUNC is set. -/
theorem test_serialize_wraps_256 :
    let t := after .serialize (withContainer [(0x61#8, 256)] [0x00#8] 0xDEADBEEF State.reset)
    t.status = 0x102#32 ∧ t.bytesFrom .obuf 4 9 =
      [0xDE#8, 0xAD#8, 0xBE#8, 0xEF#8, 0x00#8, 0x0C#8, 0x61#8, 0x00#8, 0x00#8] := by
  decide +kernel

/-- T-DS1: every test passes. -/
theorem test_deserialize_abab :
    let t := after .deserialize (withInput abImage State.reset)
    t.status = 0x02#32 ∧ t.cnt = 4 ∧ t.poff = 14 ∧ t.k = 2 ∧ t.alphabet = [(0x61#8, 2), (0x62#8, 2)] ∧ t.plen = 1 ∧
      t.byteAt .pbuf 0 = 0x50#8 := by
  decide +kernel

/-- T-DS19: the range test comes before the parity test. -/
theorem test_deserialize_range_before_odd :
    (after .deserialize (withInput [0x48#8, 0x55#8, 0x46#8, 0x46#8, 0x00#8, 0x00#8, 0x00#8, 0x01#8, 0x00#8, 0x0B#8, 0x61#8]
      State.reset)).status = 0x23#32 := by
  decide +kernel

/-- T-CI7: an illegal word keeps FTRUNC. -/
theorem test_bad_command_keeps_ftrunc :
    (stepped (withScript [.cmd 0x00000007#32 0] 0 (State.reset.withStatus 0x102#32))).status = 0x183#32 := by
  decide +kernel

/-- T-CI10, T-CI11: while BUSY a write to ILEN and to CMD is ignored. -/
theorem test_busy_writes_ignored :
    hostMove (.wr 2 5) busyState = .next busyState ∧ hostMove (.cmd 2 0) busyState = .next busyState := by
  exact ⟨rfl, rfl⟩

/-! ### Inputs that meet the obligations' hypotheses

Each theorem is named after its obligation. -/

theorem witness_DecodeInvertsEncodeOnAllWords :
    8 ≤ 8 ∧ decodeTableWord 8 (encodeWord .deserialize).toNat = some .deserialize := by decide

/-- The word written by name, and through register number 0. -/
theorem witness_StepRunsTheDecodedCommand :
    (let s := withScript [.cmd 1#32 0] 0 loadedAab
     s.isBusy = false ∧ s.host.script = .cmd 1#32 0 :: [] ∧ IssuesAtOnce (.cmd 1#32 0) 1#32 ∧ decodeWord 1#32 = .ok .encode) ∧
      (let s := withScript [.wr 0 1] 0 loadedAab
       s.isBusy = false ∧ s.host.script = .wr 0 1 :: [] ∧ IssuesAtOnce (.wr 0 1) 1#32) ∧
      loadedAab.isBusy = false ∧ decodeTableWord 32 4 = some .deserialize :=
  ⟨⟨by decide, by decide, .inl rfl, by decide⟩, ⟨by decide, by decide, .inr ⟨1, rfl, rfl⟩⟩, by decide, by decide⟩

/-- The word written by name with a move to land, and through register number 0. -/
theorem witness_IllegalWordSetsBadCmdOnly :
    (let s := withScript [.cmd 0x101#32 1, .wait] 0 loadedAab
     s.isBusy = false ∧ s.host.script = .cmd 0x101#32 1 :: [.wait] ∧ WritesCmd (.cmd 0x101#32 1) 0x101#32) ∧
      (let s := withScript [.wr 0 0x101] 0 loadedAab
       s.isBusy = false ∧ s.host.script = .wr 0 0x101 :: [] ∧ WritesCmd (.wr 0 0x101) 0x101#32) ∧
      ∀ i : Instr, (0x101#32 : Word) ≠ encodeWord i := by
  refine ⟨⟨by decide, by decide, .inl ⟨1, rfl⟩⟩, ⟨by decide, by decide, .inr ⟨0x101, rfl, rfl⟩⟩, fun i => ?_⟩
  cases i <;> decide

theorem witness_AcceptanceSetsBusy :
    let s := withScript [.cmd (encodeWord .decode) (0 + 1)] 0 loadedAab
    s.isBusy = false ∧ s.host.script = .cmd (encodeWord .decode) (0 + 1) :: [] := by decide

/-- Both ways in which no host move is left to land. -/
theorem witness_EngineCompletesTheAcceptedCommand :
    (let s := withScript [] 2 busyState
     s.isBusy = true ∧ s.cmdr = opcodeOf .encode ∧ (s.host.script = [] ∨ s.host.turns = 0)) ∧
      (let s := withScript [.wait] 0 busyState
       s.isBusy = true ∧ s.cmdr = opcodeOf .encode ∧ (s.host.script = [] ∨ s.host.turns = 0)) := by decide

theorem witness_IdleBlockHoldsItsState : loadedAab.isBusy = false ∧ loadedAab.host.script = [] := by decide

/-- The last element of each range of the clauses. -/
theorem witness_BusyBlockIgnoresTheHost :
    busyState.isBusy = true ∧ 8 < 9 ∧ 8 ≠ 1 ∧ 1023 < ByteSpace.ibuf.size busyState.cfg ∧
      1023 < ByteSpace.obuf.size busyState.cfg ∧ 1023 < ByteSpace.pbuf.size busyState.cfg ∧
      255 < ByteSpace.alphaSym.size busyState.cfg ∧ 255 < 256 := by decide

theorem witness_HostReadsReturnTheElement :
    loadedAab.isBusy = false ∧ 0 < ByteSpace.ibuf.size loadedAab.cfg ∧ 1023 < ByteSpace.pbuf.size loadedAab.cfg ∧
      255 < ByteSpace.alphaSym.size loadedAab.cfg ∧ 255 < 256 ∧
      hostMove (.rdb .ibuf 2) loadedAab = .next (logRead 0x62#35 loadedAab) :=
  ⟨by decide, by decide, by decide, by decide, by decide, rfl⟩

/-- A value that does not fit: T-CI13 cuts 0x3FF to 0x1FF for K. -/
theorem witness_HostRegisterWritesAreCutToWidth :
    loadedAab.isBusy = false ∧ (stateOf loadedAab (hostMove (.wr 6 0x3FF) loadedAab)).k = 0x1FF#9 ∧
      (stateOf loadedAab (hostMove (.wr 2 0x100000005) loadedAab)).ilen = 5#32 := by decide +kernel

theorem witness_HostElementWritesMoveOneElement :
    loadedAab.isBusy = false ∧ 1023 < ByteSpace.obuf.size loadedAab.cfg ∧ 255 < ByteSpace.alphaSym.size loadedAab.cfg ∧
      255 < 256 ∧ ¬ ((ByteSpace.ibuf = ByteSpace.obuf) ∧ 1023 = 1023) ∧ ¬ ((ByteSpace.obuf = ByteSpace.obuf) ∧ 0 = 1023) ∧
      254 ≠ 255 := by decide

/-- The first index outside each space. -/
theorem witness_MovesOutsideASpaceAreRefused :
    9 ≤ 9 ∧ ByteSpace.ibuf.size loadedAab.cfg ≤ 1024 ∧ ByteSpace.alphaSym.size loadedAab.cfg ≤ 256 ∧ 256 ≤ 256 ∧
      hostMove (.rdf 256) loadedAab = .refused .noSuchElement := ⟨by decide, by decide, by decide, by decide, rfl⟩

theorem witness_WaitAndCopyFollowTheScriptNotation :
    busyState.isBusy = true ∧ loadedAab.isBusy = false ∧ 1023 < loadedAab.cfg.obufCap ∧ 1023 < loadedAab.cfg.ibufCap := by
  decide

/-- The two sides of each capacity test: K = 257, PLEN = 1025, an image of 1025 bytes; and K = 256 with an image of 1024. -/
theorem witness_SerializeWritesTheImage :
    let c := Config.standard
    c.wellFormed = true ∧ 256 < (State.reset.withK 257#9).k.toNat ∧
      c.pbufCap < (State.reset.withPlen 1025#32).plen.toNat ∧
      (let s := (State.reset.withK 256#9).withPlen 503#32
       s.cfg.obufCap < 10 + 2 * s.k.toNat + s.plen.toNat) ∧
      (let s := (State.reset.withK 256#9).withPlen 502#32
       ¬ (256 < s.k.toNat ∨ s.cfg.pbufCap < s.plen.toNat ∨ s.cfg.obufCap < 10 + 2 * s.k.toNat + s.plen.toNat)) := by
  decide +kernel

/-- A SERIALIZE that ends DONE and one that does not. -/
theorem witness_SerializeFrame :
    (abContainer 4 [0x50#8]).cfg.wellFormed = true ∧
      exec .serialize (abContainer 4 [0x50#8]) = .next (after .serialize (abContainer 4 [0x50#8])) ∧
      EndedDone (after .serialize (abContainer 4 [0x50#8])) ∧ ¬ EndedDone (after .serialize (State.reset.withK 257#9)) :=
  ⟨by decide, exec_after _ _, ⟨by decide +kernel, by decide +kernel⟩, fun h => absurd h.1 (by decide +kernel)⟩

/-- One input for each outcome of the six tests, at the bound where there is one. -/
theorem witness_DeserializeTestsInOrder :
    (after .deserialize (State.reset.withIlen 1025#32)).status = 0x73#32 ∧
      (after .deserialize (withInput (abImage.take 3) State.reset)).status = 0x13#32 ∧
      (after .deserialize (withInput [0x48#8, 0x55#8, 0x46#8, 0x47#8] State.reset)).status = 0x13#32 ∧
      (after .deserialize (withInput (abImage.take 9) State.reset)).status = 0x23#32 ∧
      (after .deserialize (withInput (imageWith 0#8 10#8 12) State.reset)).status = 0x23#32 ∧
      (after .deserialize (withInput (imageWith 0#8 12#8 12) State.reset)).status = 0x23#32 ∧
      (after .deserialize (withInput (imageWith 0#8 11#8 12) State.reset)).status = 0x33#32 ∧
      (after .deserialize (withInput (imageWith 2#8 12#8 525) State.reset)).status = 0x73#32 ∧
      (after .deserialize (withInput (imageWith 0#8 12#8 14) (instanceOf tiny))).status = 0x73#32 ∧
      (after .deserialize (withInput (imageWith 0#8 12#8 13) (instanceOf tiny))).status = 0x02#32 := by
  decide +kernel

/-- Images that pass every test, at the least and at the greatest entry count, and one that fails the range test by one byte. -/
theorem witness_DeserializeCommitsTheImage :
    PassesCheck (withInput (imageWith 0#8 12#8 13) State.reset) ∧
      PassesCheck (withInput (imageWith 2#8 10#8 523) State.reset) ∧
      ¬ PassesCheck (withInput (imageWith 0#8 12#8 12) State.reset) := by
  unfold PassesCheck
  decide +kernel

theorem witness_DeserializeFrame :
    exec .deserialize (withInput abImage State.reset) = .next (after .deserialize (withInput abImage State.reset)) ∧
      EndedDone (after .deserialize (withInput abImage State.reset)) ∧ ¬ EndedDone (after .deserialize State.reset) :=
  ⟨exec_after _ _, ⟨by decide +kernel, by decide +kernel⟩, fun h => absurd h.1 (by decide +kernel)⟩

/-- The Container, and a state whose input is its image. -/
theorem witness_ContainerRoundTrip :
    let s := abContainer 4 [0x50#8]
    let t := after .serialize s
    let u := withInput abImage (instanceOf s.cfg)
    (s.cfg.wellFormed = true ∧ 1 ≤ s.k.toNat ∧ s.k.toNat ≤ 256 ∧ 1 ≤ s.plen.toNat ∧ s.plen.toNat ≤ s.cfg.pbufCap ∧
      (∀ j, j < s.k.toNat → (s.freqAt j).toNat ≤ 255) ∧ 10 + 2 * s.k.toNat + s.plen.toNat ≤ s.cfg.obufCap ∧
      10 + 2 * s.k.toNat + s.plen.toNat ≤ s.cfg.ibufCap) ∧
      u.cfg = s.cfg ∧ u.ilen = t.olen ∧ ∀ i, i < t.olen.toNat → u.byteAt .ibuf i = t.byteAt .obuf i := by
  decide +kernel

theorem witness_ImageRoundTrip :
    let s := withInput abImage State.reset
    exec .deserialize s = .next (after .deserialize s) ∧ EndedDone (after .deserialize s) ∧ s.ilen.toNat ≤ s.cfg.obufCap :=
  ⟨exec_after _ _, ⟨by decide +kernel, by decide +kernel⟩, by decide⟩

/-- Each of the three capacity tests, one above its bound (T-DE21 to T-DE23). -/
theorem witness_DecodeRefusesOverCapacity :
    256 < (State.reset.withK 257#9).k.toNat ∧ Config.standard.pbufCap < (State.reset.withPlen 1025#32).plen.toNat ∧
      Config.standard.obufCap < (State.reset.withCnt 1025#32).cnt.toNat := by decide +kernel

theorem witness_DecodeOfEmptyAlphabetOrCount :
    (let s := State.reset.withK 256#9
     s.k.toNat ≤ 256 ∧ s.plen.toNat ≤ s.cfg.pbufCap ∧ s.cnt.toNat ≤ s.cfg.obufCap ∧ s.cnt = 0) ∧
      (let s := State.reset.withCnt 1024#32
       s.k.toNat ≤ 256 ∧ s.plen.toNat ≤ s.cfg.pbufCap ∧ s.cnt.toNat ≤ s.cfg.obufCap ∧ s.k = 0 ∧ s.cnt ≠ 0) := by
  decide +kernel

/-- T-DE5: no payload needed. -/
theorem witness_DecodeOfOneSymbolNeedsNoPayload :
    let s := withContainer [(0x61#8, 1)] [] 3 State.reset
    s.k = 1 ∧ s.cnt ≠ 0 ∧ s.plen.toNat ≤ s.cfg.pbufCap ∧ s.cnt.toNat ≤ s.cfg.obufCap ∧
      (after .decode s).bytesFrom .obuf 0 3 = [0x61#8, 0x61#8, 0x61#8] := by
  decide +kernel

/-- A walk that gives every byte and one that runs out of bits (T-DE7, T-DE8). -/
theorem witness_DecodeWalksTheRebuiltTree :
    (let s := abContainer 4 [0x50#8]
     2 ≤ s.k.toNat ∧ s.k.toNat ≤ 256 ∧ s.cnt ≠ 0 ∧ s.plen.toNat ≤ s.cfg.pbufCap ∧ s.cnt.toNat ≤ s.cfg.obufCap ∧
       (walkBits (buildTree s.alphabet s.tree) (payloadBits s) (buildTree s.alphabet s.tree).root s.cnt.toNat).1 = .allOut) ∧
    (let s := abContainer 9 [0x50#8]
     2 ≤ s.k.toNat ∧ s.k.toNat ≤ 256 ∧ s.cnt ≠ 0 ∧ s.plen.toNat ≤ s.cfg.pbufCap ∧ s.cnt.toNat ≤ s.cfg.obufCap ∧
       (walkBits (buildTree s.alphabet s.tree) (payloadBits s) (buildTree s.alphabet s.tree).root s.cnt.toNat).1 =
         .exhausted) := by
  decide +kernel

theorem witness_DecodeNeverMeetsABadNode :
    1 ≤ (abContainer 4 [0x50#8]).k.toNat ∧
      exec .decode (abContainer 4 [0x50#8]) = .next (after .decode (abContainer 4 [0x50#8])) :=
  ⟨by decide +kernel, exec_after _ _⟩

/-- T-DE7 against T-DE10's shape: one more payload byte. -/
theorem witness_DecodeIgnoresTrailingPayload :
    let s := abContainer 4 [0x50#8]
    let u := abContainer 4 [0x50#8, 0xAA#8]
    exec .decode s = .next (after .decode s) ∧ EndedDone (after .decode s) ∧ u.cfg = s.cfg ∧ u.cnt = s.cnt ∧ u.k = s.k ∧
      (∀ j, j < s.k.toNat → u.byteAt .alphaSym j = s.byteAt .alphaSym j ∧ u.freqAt j = s.freqAt j) ∧
      s.plen.toNat ≤ u.plen.toNat ∧ u.plen.toNat ≤ u.cfg.pbufCap ∧
      ∀ i, i < s.plen.toNat → u.byteAt .pbuf i = s.byteAt .pbuf i := by
  refine ⟨exec_after _ _, ⟨by decide +kernel, by decide +kernel⟩, ?_⟩
  decide +kernel

theorem witness_DecodeFrame :
    exec .decode (abContainer 4 [0x50#8]) = .next (after .decode (abContainer 4 [0x50#8])) := exec_after _ _

/-- T-EN15. -/
theorem witness_EncodeRefusesALongInput :
    (State.reset.withIlen 1025#32).cfg.ibufCap < (State.reset.withIlen 1025#32).ilen.toNat := by decide +kernel

theorem witness_EncodeOfTheEmptyInput : State.reset.ilen = 0 := rfl

/-- The instance that just holds the input, with an input of one bit per cell. -/
theorem witness_EncodeOfOneDistinctByte :
    let s := withInput (List.replicate 8 0x61#8) (instanceOf tiny)
    s.cfg.wellFormed = true ∧ s.ilen ≠ 0 ∧ s.ilen.toNat ≤ s.cfg.ibufCap ∧ s.ilen.toNat ≤ 8 * s.cfg.pbufCap ∧
      ∀ i, i < s.ilen.toNat → s.byteAt .ibuf i = 0x61#8 := by
  decide +kernel

/-- The codes that exactly fill eight cells and those that need nine (T-EN16, T-EN17). -/
theorem witness_EncodePacksTheCodesOfTheInput :
    (let s := withInput [0x61#8, 0x62#8, 0x61#8, 0x62#8, 0x61#8, 0x62#8, 0x61#8, 0x62#8] (instanceOf tiny)
     s.cfg.wellFormed = true ∧ s.ilen.toNat ≤ s.cfg.ibufCap ∧ (after .encode s).status = 0x02#32 ∧
       (after .encode s).bb.nbits.toNat = 8 * s.cfg.pbufCap) ∧
    (let s := withInput [0x61#8, 0x62#8, 0x61#8, 0x62#8, 0x61#8, 0x62#8, 0x61#8, 0x62#8, 0x61#8] (instanceOf tiny)
     s.cfg.wellFormed = true ∧ s.ilen.toNat ≤ s.cfg.ibufCap ∧ (after .encode s).status = 0x73#32) := by
  decide +kernel

theorem witness_SuccessfulEncodeContainer :
    loadedAab.cfg.wellFormed = true ∧ exec .encode loadedAab = .next (after .encode loadedAab) ∧
      EndedDone (after .encode loadedAab) :=
  ⟨by decide, exec_after _ _, ⟨by decide +kernel, by decide +kernel⟩⟩

/-- An ENCODE that ends DONE and one that does not. -/
theorem witness_EncodeFrame :
    loadedAab.cfg.wellFormed = true ∧ exec .encode loadedAab = .next (after .encode loadedAab) ∧
      EndedDone (after .encode loadedAab) ∧ ¬ EndedDone (after .encode (State.reset.withIlen 1025#32)) :=
  ⟨by decide, exec_after _ _, ⟨by decide +kernel, by decide +kernel⟩, fun h => absurd h.1 (by decide +kernel)⟩

/-- Two states that agree on the input alone: other Container, other output, other hidden state. -/
theorem witness_EncodeDependsOnTheInputAlone :
    let s := loadedAab
    let s' := withInput aab (after .decode (abContainer 4 [0x50#8]))
    s.cfg.wellFormed = true ∧ s'.cfg = s.cfg ∧ s'.ilen = s.ilen ∧
      (∀ i, i < s.ilen.toNat → s'.byteAt .ibuf i = s.byteAt .ibuf i) ∧
      exec .encode s = .next (after .encode s) ∧ exec .encode s' = .next (after .encode s') ∧ EndedDone (after .encode s) := by
  refine ⟨by decide, by decide +kernel, by decide +kernel, by decide +kernel, exec_after _ _, exec_after _ _,
    ⟨by decide +kernel, by decide +kernel⟩⟩

theorem witness_DecodeInvertsEncode :
    let t := after .encode loadedAab
    loadedAab.cfg.wellFormed = true ∧ exec .encode loadedAab = .next t ∧ EndedDone t ∧ t.cnt.toNat ≤ t.cfg.obufCap ∧
      (after .decode t).bytesFrom .obuf 0 3 = aab :=
  ⟨by decide, exec_after _ _, ⟨by decide +kernel, by decide +kernel⟩, by decide +kernel, by decide +kernel⟩

/-- A sequence that exactly fills the buffer and one that is a bit too long. -/
theorem witness_PushAppendsWhatFits :
    let b : BitBuffer := { bits := [true], nbits := 1, rp := 0 }
    8 < 2 ^ 35 ∧ b.nbits.toNat ≤ 8 ∧ b.nbits.toNat + (List.replicate 7 true).length ≤ 8 ∧
      ¬ (b.nbits.toNat + (List.replicate 8 true).length ≤ 8) := by decide

/-- A last byte that is partly padding: 101 is 0xA0. -/
theorem witness_PackPlacesBitsMsbFirst :
    1 = ([true, false, true].length + 7) / 8 ∧ packBytes .msbFirst 1 [true, false, true] = [0xA0#8] ∧
      [true, false, true].length ≤ 3 ∧ 3 < 8 * 1 := by decide

theorem witness_PopTakesTheNextBit :
    (let b : BitBuffer := { bits := [true], nbits := 1, rp := 1 }
     b.rp.toNat ≤ b.nbits.toNat ∧ b.rp = b.nbits) ∧
      (let b : BitBuffer := { bits := [true], nbits := 1, rp := 0 }
       b.rp.toNat ≤ b.nbits.toNat ∧ b.rp ≠ b.nbits) := by decide

/-- One entry, and 256. -/
theorem witness_BuiltTreeStructure :
    (1 ≤ [((0x61#8 : Byte), (7#32 : Word))].length ∧ [((0x61#8 : Byte), (7#32 : Word))].length ≤ 256) ∧
      1 ≤ fullAlphabet.length ∧ fullAlphabet.length ≤ 256 ∧ 510 < 2 * fullAlphabet.length - 1 := by decide +kernel

/-- One entry, where there is no node but the root, and 256, with the first leaf and the last internal node but one. -/
theorem witness_EveryNodeHasOneParent :
    (1 ≤ [((0x61#8 : Byte), (7#32 : Word))].length ∧ [((0x61#8 : Byte), (7#32 : Word))].length ≤ 256) ∧
      1 ≤ fullAlphabet.length ∧ fullAlphabet.length ≤ 256 ∧ 0 < 2 * fullAlphabet.length - 2 ∧
      509 < 2 * fullAlphabet.length - 2 ∧ fullAlphabet.length ≤ 509 ∧ 509 + 1 < 2 * fullAlphabet.length - 1 := by
  decide +kernel

/-- The last merge of an Alphabet of 256 entries. -/
theorem witness_MergeTakesLeastFrequencyGreatestIndex :
    fullAlphabet.length ≤ 256 ∧ 254 + 2 ≤ fullAlphabet.length := by decide +kernel

theorem witness_StackGeneratorIsTheTraversal :
    2 ≤ [((0x61#8 : Byte), (1#32 : Word)), (0x61#8, 1#32)].length ∧ 2 ≤ fullAlphabet.length ∧ fullAlphabet.length ≤ 256 := by
  decide +kernel

theorem witness_CodesArePrefixFree :
    (([] : List (Byte × Word)).map Prod.fst).Nodup ∧ (fullAlphabet.map Prod.fst).Nodup ∧ fullAlphabet.length ≤ 256 := by
  decide +kernel

theorem witness_KraftSumIsOne :
    ([((0x61#8 : Byte), (1#32 : Word)), (0x62#8, 1#32)].map Prod.fst).Nodup ∧ (fullAlphabet.map Prod.fst).Nodup ∧
      2 ≤ fullAlphabet.length ∧ fullAlphabet.length ≤ 256 := by
  decide +kernel

theorem witness_SuccessfulCommandsMeetTheInvariants :
    let s := withInput abImage State.reset
    let c := abContainer 4 [0x50#8]
    exec .deserialize s = .next (after .deserialize s) ∧ EndedDone (after .deserialize s) ∧ c.cfg.wellFormed = true ∧
      exec .serialize c = .next (after .serialize c) ∧ EndedDone (after .serialize c) ∧
      exec .decode c = .next (after .decode c) ∧ EndedDone (after .decode c) :=
  ⟨exec_after _ _, ⟨by decide +kernel, by decide +kernel⟩, by decide, exec_after _ _,
    ⟨by decide +kernel, by decide +kernel⟩, exec_after _ _, ⟨by decide +kernel, by decide +kernel⟩⟩

theorem witness_StepKeepsStatusLegal :
    StatusInv loadedAab ∧ step loadedAab = .next loadedAab ∧ StatusInv (State.reset.withStatus 0x73#32) :=
  ⟨⟨by decide, by decide⟩, rfl, ⟨by decide, by decide⟩⟩

theorem witness_StepKeepsMemoriesCanonical : MemoriesInv loadedAab ∧ step loadedAab = .next loadedAab := by
  refine ⟨?_, rfl⟩
  unfold MemoriesInv
  decide +kernel

theorem witness_StepKeepsEngineRegistersLegal : RegistersInv loadedAab ∧ step loadedAab = .next loadedAab := by
  refine ⟨?_, rfl⟩
  unfold RegistersInv
  decide +kernel

theorem witness_StepNeverFaults : SequencerInv busyState ∧ step loadedAab = .next loadedAab :=
  ⟨fun _ => ⟨.encode, rfl⟩, rfl⟩

theorem witness_StepKeepsTheInstance : step loadedAab = .next loadedAab := rfl

/-- FTRUNC goes from 1 to 0 by RESET, outside and inside a BUSY interval, and by a successful SERIALIZE (T-CI9): issued by name,
through register number 0, and completed by the engine. -/
theorem witness_OnlySerializeAndResetMoveFtrunc :
    let ftrunc := State.reset.withStatus 0x102#32
    let moves (s : State) : Prop := statusFtrunc (stepped s).status ≠ statusFtrunc s.status
    moves (withScript [.reset] 0 ftrunc) ∧ moves (withScript [.reset] 1 (accept .encode ftrunc)) ∧
      moves (withScript [.cmd 3#32 0] 0 ftrunc) ∧ moves (withScript [.wr 0 3] 0 ftrunc) ∧
      moves (withScript [.reset] 0 (accept .serialize ftrunc)) ∧
      statusState (stepped (withScript [.reset] 0 (accept .serialize ftrunc))).status = stDone := by
  decide +kernel

/-- Two states the host cannot tell apart whose hidden state differs. -/
theorem witness_HiddenStateReachesNoResult :
    let s := loadedAab
    let s' := loadedAab.withTree { node := [NodeEntry.blank], nnodes := 9, root := 3, rootv := true, wl := [7], wln := 100 }
    s'.cfg = s.cfg ∧ s'.epoch = s.epoch ∧ SameHostView s s' ∧ exec .encode s = .next (after .encode s) ∧
      exec .encode s' = .next (after .encode s') := by
  refine ⟨rfl, rfl, ⟨rfl, rfl, rfl, rfl, rfl, rfl, rfl, rfl, fun sp i => ?_, fun j => rfl⟩, exec_after _ _, exec_after _ _⟩
  cases sp <;> rfl

end Sys2Proof.Tests
end

section
/-! PROOFS. The BitBuffer's push and pop (40_bitbuffer.md, R92, R93, R96, R98), stated about the buffer's value. -/

namespace Sys2Proof.Machine

/-! ### One push -/

/-- The buffer with `v` in the cell at NBITS and NBITS advanced: what a push that fits leaves (R92). -/
def bbAppend (v : Bool) (b : BitBuffer) : BitBuffer :=
  { b with bits := Table.put false b.bits b.nbits.toNat v, nbits := b.nbits + 1 }

@[simp] theorem bbAppend_rp (v : Bool) (b : BitBuffer) : (bbAppend v b).rp = b.rp := rfl

theorem bbAppend_nbits {v : Bool} {b : BitBuffer} (h : b.nbits.toNat + 1 < 2 ^ 35) :
    (bbAppend v b).nbits.toNat = b.nbits.toNat + 1 :=
  BitVec.toNat_add_of_lt (y := 1#35) h

theorem bbValue_bbAppend {v : Bool} {b : BitBuffer} (h : b.nbits.toNat + 1 < 2 ^ 35) :
    bbValue (bbAppend v b) = bbValue b ++ [v] := by
  have cellsBelow : Table.first false b.nbits.toNat (bbAppend v b).bits = bbValue b :=
    Table.first_congr false fun i hi => Table.get_put_other false b.bits v (Nat.ne_of_lt hi)
  have cellAtNbits : Table.get false (bbAppend v b).bits b.nbits.toNat = v := Table.get_put_same false ..
  rw [bbValue, bbAppend_nbits h, Table.first_succ, cellsBelow, cellAtNbits]

theorem bbPushBit_of_room {cap : Nat} {v : Bool} {b : BitBuffer} (h : b.nbits.toNat < cap) :
    bbPushBit cap v b = .ok (bbAppend v b) :=
  if_neg (Nat.ne_of_lt h)

theorem bbPushBit_of_full {cap : Nat} {v : Bool} {b : BitBuffer} (h : b.nbits.toNat = cap) :
    bbPushBit cap v b = .raised .capacity b :=
  if_pos h

/-! ### A pushed sequence -/

theorem bbPushSeq_of_fits {cap : Nat} {bits : Bits} {b : BitBuffer} (hcap : cap < 2 ^ 35)
    (hfit : b.nbits.toNat + bits.length ≤ cap) :
    ∃ b', bbPushSeq cap bits b = .ok b' ∧ bbValue b' = bbValue b ++ bits ∧ b'.rp = b.rp := by
  induction bits generalizing b with
  | nil => exact ⟨b, rfl, by simp, rfl⟩
  | cons v vs ih =>
    rw [List.length_cons] at hfit
    have room : b.nbits.toNat < cap := by omega
    have noWrap : b.nbits.toNat + 1 < 2 ^ 35 := by omega
    obtain ⟨b', hrun, hval, hrp⟩ := ih (b := bbAppend v b) (by rw [bbAppend_nbits noWrap]; omega)
    refine ⟨b', ?_, ?_, hrp⟩
    · rw [bbPushSeq, bbPushBit_of_room room, Run.bind_ok, hrun]
    · rw [hval, bbValue_bbAppend noWrap, List.append_assoc, List.singleton_append]

theorem bbPushSeq_of_overflows {cap : Nat} {bits : Bits} {b : BitBuffer} (hcap : cap < 2 ^ 35)
    (hle : b.nbits.toNat ≤ cap) (hover : cap < b.nbits.toNat + bits.length) :
    ∃ b', bbPushSeq cap bits b = .raised .capacity b' ∧ b'.nbits.toNat = cap ∧
      bbValue b' = bbValue b ++ bits.take (cap - b.nbits.toNat) ∧ b'.rp = b.rp := by
  induction bits generalizing b with
  | nil => exact absurd hover (Nat.not_lt.2 hle)
  | cons v vs ih =>
    rcases Nat.eq_or_lt_of_le hle with full | room
    · refine ⟨b, ?_, full, by simp [full], rfl⟩
      rw [bbPushSeq, bbPushBit_of_full full, Run.bind_raised]
    · rw [List.length_cons] at hover
      have noWrap : b.nbits.toNat + 1 < 2 ^ 35 := by omega
      have advanced := bbAppend_nbits (v := v) noWrap
      have roomLeft : cap - b.nbits.toNat = (cap - (b.nbits.toNat + 1)) + 1 := by omega
      obtain ⟨b', hrun, hfull, hval, hrp⟩ := ih (b := bbAppend v b) (by omega) (by omega)
      refine ⟨b', ?_, hfull, ?_, hrp⟩
      · rw [bbPushSeq, bbPushBit_of_room room, Run.bind_ok, hrun]
      · rw [hval, bbValue_bbAppend noWrap, advanced, roomLeft, List.take_succ_cons, List.append_assoc,
          List.singleton_append]

/-- Settles O41, by the two ends a pushed sequence can have: it fits, or it overflows. -/
theorem pushAppendsWhatFits : Obligations.PushAppendsWhatFits := by
  intro cap bits b hcap hle
  split
  · next hfit => exact bbPushSeq_of_fits hcap hfit
  · next hover => exact bbPushSeq_of_overflows hcap hle (Nat.lt_of_not_le hover)

/-! ### A pop -/

theorem getElem?_bbValue {b : BitBuffer} {i : Nat} (h : i < b.nbits.toNat) :
    (bbValue b)[i]? = some (Table.get false b.bits i) := by
  have hlen : i < (bbValue b).length := by rwa [length_bbValue]
  rw [List.getElem?_eq_getElem hlen]
  exact congrArg some (Table.getElem_first false _ _ i hlen)

/-- Settles O44: below NBITS the cell at RP is a bit of the value, and RP advances without wrapping. -/
theorem popTakesTheNextBit : Obligations.PopTakesTheNextBit := by
  intro b hle
  rcases bbPopBit_cases b with ⟨atEnd, hpop⟩ | ⟨notAtEnd, hpop⟩
  · exact ⟨fun _ => hpop, fun hne => absurd atEnd hne⟩
  · have below : b.rp.toNat < b.nbits.toNat := Nat.lt_of_le_of_ne hle (mt BitVec.eq_of_toNat_eq notAtEnd)
    have advanced : (b.rp + 1).toNat = b.rp.toNat + 1 :=
      BitVec.toNat_add_of_lt (y := 1#35) (Nat.lt_of_le_of_lt below b.nbits.isLt)
    exact ⟨fun atEnd => absurd atEnd notAtEnd, fun _ => ⟨_, _, hpop, getElem?_bbValue below, advanced, rfl, rfl⟩⟩

end Sys2Proof.Machine
end

section
/-! PROOFS. ENCODE of the empty input (41_alphabet.md, R112; 44_encode.md, R159): what each of its stretches leaves when there is
no input byte, no entry and no bit. -/

namespace Sys2Proof.Machine

theorem scan_of_emptyInput {s : State} (h : s.ilen = 0) : scan s = (s.withK 0).withIp 0 := by
  rw [scan, h]
  rfl

theorem State.alphabet_of_noEntries {s : State} (h : s.k = 0) : s.alphabet = [] :=
  List.length_eq_zero_iff.1 (by rw [State.length_alphabet, h]; rfl)

theorem build_of_noEntries {s : State} (h : s.k = 0) : build s = s.withTree (buildTree [] s.tree) := by
  rw [build, State.alphabet_of_noEntries h]

theorem genmap_of_noEntries {s : State} (h : s.k = 0) : genmap s = .ok (s.withGen (invalidateAll s.gen)) := by
  rw [genmap, State.alphabet_of_noEntries h]
  rfl

theorem emit_of_emptyInput {s : State} (h : s.ilen = 0) : emit s = .ok ((s.withBb (bbClear s.bb)).withIp 0) := by
  rw [emit, h]
  rfl

theorem bbPack_of_noBits {s : State} (h : s.bb.nbits = 0) : bbPack s = s.withPlen 0 := by
  rw [bbPack, h]
  rfl

/-- The whole command between acceptance and completion: the empty Container, and the hidden state of a run over nothing. -/
theorem encodeBody_of_emptyInput {s : State} (h : s.ilen = 0) :
    encodeBody s = .ok (((((emptyContainer s).withPhase .pack).withTree (buildTree [] s.tree)).withGen
      (invalidateAll s.gen)).withIp 0) := by
  have fits : ¬ s.cfg.ibufCap < s.ilen.toNat := by rw [h]; exact Nat.not_lt_zero _
  have scanned : scan (s.withPhase .scan) = ((s.withPhase .scan).withK 0).withIp 0 := scan_of_emptyInput h
  have counted : (((s.withPhase .scan).withK 0).withIp 0).ilen = 0 := h
  rw [encodeBody, if_neg fits, scanned]
  simp only [counted]
  rw [build_of_noEntries rfl, genmap_of_noEntries rfl, Run.bind_ok, emit_of_emptyInput, Run.onRaise_ok, Run.bind_ok,
    bbPack_of_noBits rfl]
  · simp only [emptyContainer, State.withIp, State.withK, State.withCnt, State.withPlen, State.withBb, State.withPhase,
      State.withTree, State.withGen, State.withCursors, Cursors.withIp]
  · simpa using h

/-- Settles O32: the body leaves the empty Container, and acceptance and completion move only STATUS and CMDR. -/
theorem encodeOfTheEmptyInput : Obligations.EncodeOfTheEmptyInput := by
  intro s hlen
  refine ⟨_, congrArg complete (encodeBody_of_emptyInput (s := accept .encode s) hlen), ⟨finish_state _, ?_⟩, ⟨?_, ?_⟩, rfl, rfl,
    rfl, rfl, fun _ => rfl, fun _ _ => ⟨rfl, rfl⟩⟩
  · exact (finish_err _).trans (accept_err .encode s)
  · exact (finish_zero _).trans (accept_zero .encode s)
  · exact (finish_ftrunc _).trans (accept_ftrunc .encode s)

end Sys2Proof.Machine
end

section
/-! PROOFS. DECODE without a walk (45_decode.md, R174, R175, R178): the capacity checks, the empty output, the empty Alphabet, the
single symbol. Each branch of the command gets one equation; the obligations read their conclusions off it. -/

namespace Sys2Proof.Machine

/-! ### How a command that left STATUS as acceptance set it ends -/

theorem finish_endedDone {t : State} (h : statusErr t.status = errNumber .none) : EndedDone (finish t) :=
  ⟨finish_state t, (finish_err t).trans h⟩

theorem finish_statusRestKept {i : Instr} {s t : State} (h : t.status = (accept i s).status) :
    StatusRestKept s (finish t) :=
  ⟨by rw [finish_zero, h, accept_zero], by rw [finish_ftrunc, h, accept_ftrunc]⟩

theorem raiseError_endedError (e : ErrCode) (t : State) : EndedError e (raiseError e t) :=
  ⟨raiseError_state e t, raiseError_err e t⟩

theorem raiseError_statusRestKept {i : Instr} {s t : State} {e : ErrCode} (h : t.status = (accept i s).status) :
    StatusRestKept s (raiseError e t) :=
  ⟨by rw [raiseError_zero, h, accept_zero], by rw [raiseError_ftrunc, h, accept_ftrunc]⟩

/-! ### The branches of DECODE -/

/-- The three capacity checks of DECODE pass (R171, R178). -/
structure DecodeFits (s : State) : Prop where
  k_le : s.k.toNat ≤ 256
  plen_le : s.plen.toNat ≤ s.cfg.pbufCap
  cnt_le : s.cnt.toNat ≤ s.cfg.obufCap

theorem decodeBody_of_overCapacity {s : State}
    (h : 256 < s.k.toNat ∨ s.cfg.pbufCap < s.plen.toNat ∨ s.cfg.obufCap < s.cnt.toNat) :
    decodeBody s = .raised .capacity (s.withOlen 0) :=
  if_pos h

theorem DecodeFits.checksPass {s : State} (h : DecodeFits s) :
    ¬ (Config.alphaCap < s.k.toNat ∨ s.cfg.pbufCap < s.plen.toNat ∨ s.cfg.obufCap < s.cnt.toNat) := by
  obtain ⟨hk, hplen, hcnt⟩ := h
  rw [Config.alphaCap]
  omega

theorem decodeBody_of_noCount {s : State} (fits : DecodeFits s) (hcnt : s.cnt = 0) :
    decodeBody s = .ok ((build (s.withPhase .build)).withOlen 0) :=
  (if_neg fits.checksPass).trans (if_pos hcnt)

theorem decodeBody_of_noEntries {s : State} (fits : DecodeFits s) (hcnt : s.cnt ≠ 0) (hk : s.k = 0) :
    decodeBody s = .raised .decNode ((build (s.withPhase .build)).withOlen 0) :=
  (if_neg fits.checksPass).trans ((if_neg hcnt).trans (if_pos hk))

theorem decodeBody_of_oneEntry {s : State} (fits : DecodeFits s) (hcnt : s.cnt ≠ 0) (hk : s.k = 1) :
    decodeBody s = .ok (fillSingle (build (s.withPhase .build))) := by
  have someEntry : s.k ≠ 0 := by rw [hk]; decide
  exact (if_neg fits.checksPass).trans ((if_neg hcnt).trans ((if_neg someEntry).trans (if_pos hk)))

/-- The single-symbol branch writes OBUF below CNT and nowhere else (R174). -/
theorem fillSingle_byteAt_obuf (s : State) (i : Nat) :
    (fillSingle s).byteAt .obuf i = if i < s.cnt.toNat then s.byteAt .alphaSym 0 else s.byteAt .obuf i := by
  have written : (fillSingle s).byteAt .obuf i = _ := State.byteAt_obuf_writeMany s 0 i _
  simpa using written

/-! ### The obligations -/

/-- Settles O24, by the first branch: it writes OLEN and no element. -/
theorem decodeRefusesOverCapacity : Obligations.DecodeRefusesOverCapacity := by
  intro s hover
  exact ⟨_, congrArg complete (decodeBody_of_overCapacity (s := accept .decode s) hover), raiseError_endedError _ _,
    raiseError_statusRestKept (i := .decode) rfl, rfl, fun _ => rfl,
    ⟨rfl, rfl, rfl, fun _ _ => ⟨rfl, rfl⟩, fun _ _ => rfl⟩, rfl⟩

/-- Settles O25, by the second and the third branch: after BUILD each writes OLEN only. -/
theorem decodeOfEmptyAlphabetOrCount : Obligations.DecodeOfEmptyAlphabetOrCount := by
  intro s hk hplen hcap
  have fits : DecodeFits (accept .decode s) := ⟨hk, hplen, hcap⟩
  constructor
  · intro hcnt
    exact ⟨_, congrArg complete (decodeBody_of_noCount fits hcnt), finish_endedDone (accept_err .decode s), rfl,
      fun _ => rfl, rfl⟩
  · intro noEntries hcnt
    exact ⟨_, congrArg complete (decodeBody_of_noEntries fits hcnt noEntries), raiseError_endedError _ _, rfl, fun _ => rfl, rfl⟩

/-- Settles O26, by the single-symbol branch, whose writes are those of `fillSingle`. -/
theorem decodeOfOneSymbolNeedsNoPayload : Obligations.DecodeOfOneSymbolNeedsNoPayload := by
  intro s hk hcnt hplen hcap
  have fits : DecodeFits (accept .decode s) := ⟨by simp [hk], hplen, hcap⟩
  have filled (i : Nat) := fillSingle_byteAt_obuf (build ((accept .decode s).withPhase .build)) i
  refine ⟨_, congrArg complete (decodeBody_of_oneEntry fits hcnt hk), finish_endedDone (accept_err .decode s),
    finish_statusRestKept (i := .decode) rfl, rfl, fun i hi => ?_, fun i hi => ?_, rfl⟩
  · exact (filled i).trans (if_pos hi)
  · exact (filled i).trans (if_neg (Nat.not_lt.2 hi))

end Sys2Proof.Machine
end

section
/-! PROOFS. What is read back after consecutive writes from index 0 on, whatever else the state changed: the value written, or what
was there. -/

namespace Sys2Proof.Machine

theorem Memory.read?_writeMany_zero {α : Type} (m : List (Nat × α)) (vs : List α) (i : Nat) :
    Memory.read? (Memory.writeMany m 0 vs) i = vs[i]?.or (Memory.read? m i) := by
  rw [Memory.read?_writeMany]
  by_cases h : i < vs.length <;> simp [h]

theorem State.byteAt_of_writeMany_zero {s t : State} {sp : ByteSpace} {vs : List Byte}
    (written : t.bytesOf sp = Memory.writeMany (s.bytesOf sp) 0 vs) (sameDraw : t.epoch = s.epoch) (i : Nat) :
    t.byteAt sp i = vs[i]?.getD (s.byteAt sp i) := by
  rw [State.byteAt, written, sameDraw, Memory.read?_writeMany_zero, Option.getD_or, State.byteAt]

theorem State.freqAt_of_writeMany_zero {s t : State} {vs : List Word}
    (written : t.alphaFreq = Memory.writeMany s.alphaFreq 0 vs) (sameDraw : t.epoch = s.epoch) (j : Nat) :
    t.freqAt j = vs[j]?.getD (s.freqAt j) := by
  rw [State.freqAt, written, sameDraw, Memory.read?_writeMany_zero, Option.getD_or, State.freqAt]

theorem getD_getElem?_map_range {α : Type} (f : Nat → α) (n i : Nat) (old : α) :
    ((List.range n).map f)[i]?.getD old = if i < n then f i else old := by
  by_cases h : i < n <;> simp [h]

end Sys2Proof.Machine
end

section
/-! PROOFS. SERIALIZE (46_container.md, R191 to R193): its capacity branch, and the image it writes to OBUF, read byte by byte. -/

namespace Sys2Proof.Machine

/-- The image does not fit, the Alphabet is too long, or the payload length exceeds PBUF (R193). -/
def SerializeOverCapacity (s : State) : Prop :=
  256 < s.k.toNat ∨ s.cfg.pbufCap < s.plen.toNat ∨ s.cfg.obufCap < 10 + 2 * s.k.toNat + s.plen.toNat

theorem serializeBody_of_overCapacity {s : State} (h : SerializeOverCapacity s) :
    serializeBody s = .raised .capacity s :=
  if_pos h

theorem serializeBody_of_fits {s : State} (h : ¬ SerializeOverCapacity s) : serializeBody s = .ok (serializeWrites s) :=
  if_neg h

/-! ### The report registers and FTRUNC -/

theorem serializeWrites_poff (s : State) : (serializeWrites s).poff.toNat = 10 + 2 * s.k.toNat := by
  have written : (serializeWrites s).poff = BitVec.ofNat 16 (10 + 2 * s.k.toNat) := rfl
  have small : s.k.toNat < 2 ^ 9 := s.k.isLt
  rw [written, BitVec.toNat_ofNat]
  omega

theorem serializeWrites_olen {s : State} (h : 10 + 2 * s.k.toNat + s.plen.toNat < 2 ^ 32) :
    (serializeWrites s).olen.toNat = 10 + 2 * s.k.toNat + s.plen.toNat :=
  (BitVec.toNat_ofNat _ 32).trans (Nat.mod_eq_of_lt h)

theorem ftruncOf_alphabet_iff (s : State) :
    ftruncOf s.alphabet = true ↔ ∃ j, j < s.k.toNat ∧ 256 ≤ (s.freqAt j).toNat := by
  simp [ftruncOf, State.alphabet]

theorem serializeWrites_status (s : State) :
    (serializeWrites s).status = setStatusFtrunc s.status (ftruncOf s.alphabet) := rfl

@[simp] theorem serializeWrites_epoch (s : State) : (serializeWrites s).epoch = s.epoch := by simp [serializeWrites]

/-! ### OBUF after the writes -/

/-- Byte `i` of OBUF is byte `i` of the image, and past the image what it was. -/
theorem serializeWrites_byteAt_obuf (s : State) (i : Nat) :
    (serializeWrites s).byteAt .obuf i = (imageBytes s)[i]?.getD (s.byteAt .obuf i) :=
  State.byteAt_of_writeMany_zero (t := serializeWrites s) (sp := .obuf) rfl (serializeWrites_epoch s) i

theorem serializeWrites_byteAt_header (s : State) (i : Nat) (h : i < 10) :
    (serializeWrites s).byteAt .obuf i = (headerBytes s)[i] := by
  rw [serializeWrites_byteAt_obuf, getElem?_imageBytes_header s i h, List.getElem?_eq_getElem h, Option.getD_some]

theorem serializeWrites_byteAt_symbol {s : State} {j : Nat} (h : j < s.k.toNat) :
    (serializeWrites s).byteAt .obuf (10 + 2 * j) = s.byteAt .alphaSym j := by
  rw [serializeWrites_byteAt_obuf, (getElem?_imageBytes_entry s j h).1, Option.getD_some]

theorem serializeWrites_byteAt_frequency {s : State} {j : Nat} (h : j < s.k.toNat) :
    ((serializeWrites s).byteAt .obuf (11 + 2 * j)).toNat = (s.freqAt j).toNat % 256 := by
  rw [serializeWrites_byteAt_obuf, (getElem?_imageBytes_entry s j h).2, Option.getD_some, BitVec.extractLsb'_toNat,
    Nat.shiftRight_zero]

theorem serializeWrites_byteAt_payload {s : State} {i : Nat} (h : i < s.plen.toNat) :
    (serializeWrites s).byteAt .obuf (10 + 2 * s.k.toNat + i) = s.byteAt .pbuf i := by
  rw [serializeWrites_byteAt_obuf, getElem?_imageBytes_payload s i h, Option.getD_some]

theorem serializeWrites_byteAt_pastImage {s : State} {i : Nat} (h : 10 + 2 * s.k.toNat + s.plen.toNat ≤ i) :
    (serializeWrites s).byteAt .obuf i = s.byteAt .obuf i := by
  rw [serializeWrites_byteAt_obuf, List.getElem?_eq_none (by rwa [length_imageBytes]), Option.getD_none]

/-- `t` reports and holds in OBUF the image of the Container of `s`, and past the image it holds the bytes of `s` (R61, R191). -/
def HoldsImageOf (s t : State) : Prop :=
  t.poff.toNat = 10 + 2 * s.k.toNat ∧ t.olen.toNat = 10 + 2 * s.k.toNat + s.plen.toNat ∧
    t.byteAt .obuf 0 = 0x48#8 ∧ t.byteAt .obuf 1 = 0x55#8 ∧ t.byteAt .obuf 2 = 0x46#8 ∧ t.byteAt .obuf 3 = 0x46#8 ∧
    t.byteAt .obuf 4 = s.cnt.extractLsb' 24 8 ∧ t.byteAt .obuf 5 = s.cnt.extractLsb' 16 8 ∧
    t.byteAt .obuf 6 = s.cnt.extractLsb' 8 8 ∧ t.byteAt .obuf 7 = s.cnt.extractLsb' 0 8 ∧
    t.byteAt .obuf 8 = t.poff.extractLsb' 8 8 ∧ t.byteAt .obuf 9 = t.poff.extractLsb' 0 8 ∧
    (∀ j, j < s.k.toNat → t.byteAt .obuf (10 + 2 * j) = s.byteAt .alphaSym j ∧
      (t.byteAt .obuf (11 + 2 * j)).toNat = (s.freqAt j).toNat % 256) ∧
    (∀ i, i < s.plen.toNat → t.byteAt .obuf (10 + 2 * s.k.toNat + i) = s.byteAt .pbuf i) ∧
    SameBytesFrom .obuf t.olen.toNat s t

theorem serializeWrites_holdsImage {s : State} (h : 10 + 2 * s.k.toNat + s.plen.toNat < 2 ^ 32) :
    HoldsImageOf s (serializeWrites s) := by
  have olen := serializeWrites_olen h
  have header := serializeWrites_byteAt_header s
  exact ⟨serializeWrites_poff s, olen,
    header 0 (by decide), header 1 (by decide), header 2 (by decide), header 3 (by decide), header 4 (by decide),
    header 5 (by decide), header 6 (by decide), header 7 (by decide), header 8 (by decide), header 9 (by decide),
    fun j hj => ⟨serializeWrites_byteAt_symbol hj, serializeWrites_byteAt_frequency hj⟩,
    fun i hi => serializeWrites_byteAt_payload hi,
    fun i hi => serializeWrites_byteAt_pastImage (olen ▸ hi)⟩

/-- Acceptance and completion move neither the Container nor OBUF. -/
theorem holdsImageOf_of_accept_finish {i : Instr} {s t : State} (h : HoldsImageOf (accept i s) t) :
    HoldsImageOf s (finish t) := by
  simpa [HoldsImageOf, SameBytesFrom] using h

/-! ### The obligation -/

theorem Config.obufCap_lt_of_wellFormed {c : Config} (h : c.wellFormed = true) : c.obufCap < 2 ^ 32 := by
  simp only [Config.wellFormed, Bool.and_eq_true, decide_eq_true_eq] at h
  obtain ⟨⟨_, _, hobuf⟩, _⟩ := h
  exact hobuf

/-- Settles O17, by the two branches of the command: the first writes nothing the host sees but STATUS, the second
writes the image. -/
theorem serializeWritesTheImage : Obligations.SerializeWritesTheImage := by
  intro s legal
  split
  · next exceeds =>
    exact ⟨_, congrArg complete (serializeBody_of_overCapacity (s := accept .serialize s) exceeds),
      raiseError_endedError _ _, raiseError_statusRestKept (i := .serialize) rfl, fun _ => rfl, rfl, rfl⟩
  · next fits =>
    have noWrap : 10 + 2 * s.k.toNat + s.plen.toNat < 2 ^ 32 := by
      have := Config.obufCap_lt_of_wellFormed legal
      omega
    refine ⟨_, congrArg complete (serializeBody_of_fits (s := accept .serialize s) fits), finish_endedDone ?_, ?_, ?_,
      holdsImageOf_of_accept_finish (serializeWrites_holdsImage (s := accept .serialize s) noWrap)⟩
    · rw [serializeWrites_status, statusErr_setFtrunc, accept_err, errNumber]
    · rw [finish_zero, serializeWrites_status, statusZero_setFtrunc, accept_zero]
    · rw [finish_ftrunc, serializeWrites_status, statusFtrunc_setFtrunc]
      exact ftruncOf_alphabet_iff (accept .serialize s)

end Sys2Proof.Machine
end

section
/-! PROOFS. DESERIALIZE (46_container.md, R195 to R197): CHECK passes exactly the images every test accepts, and COMMIT, read register
by register and element by element. -/

namespace Sys2Proof.Machine

/-! ### CHECK -/

theorem imageOffset_eq_namedOffset (s : State) : imageOffset s = namedOffset s := be16_toNat _ _

theorem bytesFrom_eq_magicTag_iff (s : State) :
    s.bytesFrom .ibuf 0 4 = magicTag ↔ s.byteAt .ibuf 0 = 0x48#8 ∧ s.byteAt .ibuf 1 = 0x55#8 ∧
      s.byteAt .ibuf 2 = 0x46#8 ∧ s.byteAt .ibuf 3 = 0x46#8 := by
  simp [State.bytesFrom, List.range_succ, magicTag]

/-- One test of CHECK, with the tests after it. -/
theorem test_eq_none_iff {c : Prop} [Decidable c] {e r : ErrCode} (he : e ≠ .none) :
    (if c then e else r) = .none ↔ ¬ c ∧ r = .none := by
  split <;> simp [*]

theorem checkImage_eq_none_iff (s : State) : checkImage s = .none ↔ PassesCheck s := by
  simp only [checkImage, PassesCheck, imageEntries, imageOffset_eq_namedOffset, Config.alphaCap, test_eq_none_iff, ne_eq,
    reduceCtorEq, not_false_eq_true, not_not, bytesFrom_eq_magicTag_iff]
  constructor
  · rintro ⟨hin, hlen, ⟨m0, m1, m2, m3⟩, hhdr, ⟨hlow, hhigh⟩, heven, hcap, -⟩
    exact ⟨by omega, by omega, m0, m1, m2, m3, by omega, hlow, hhigh, by omega, by omega, by omega⟩
  · rintro ⟨hin, hlen, m0, m1, m2, m3, hhdr, hlow, hhigh, heven, hk, hplen⟩
    exact ⟨by omega, by omega, ⟨m0, m1, m2, m3⟩, by omega, ⟨hlow, hhigh⟩, by omega, by omega, trivial⟩

/-- The state DESERIALIZE reads the image in: accepted, in its first phase. -/
def checking (s : State) : State := (accept .deserialize s).withPhase .check

theorem passesCheck_checking (s : State) : PassesCheck (checking s) ↔ PassesCheck s := by
  simp [PassesCheck, namedOffset, checking]

theorem exec_deserialize_of_passes {s : State} (h : PassesCheck s) :
    exec .deserialize s = .next (finish (commitImage (checking s))) := by
  have passed := (checkImage_eq_none_iff _).2 ((passesCheck_checking s).2 h)
  rcases deserializeBody_cases (accept .deserialize s) with ⟨e, he, failed, _⟩ | ⟨_, hrun⟩
  · exact absurd (failed.symm.trans passed) he
  · exact congrArg complete hrun

theorem exec_deserialize_of_fails {s : State} (h : ¬ PassesCheck s) :
    ∃ e, exec .deserialize s = .next (raiseError e (checking s)) := by
  rcases deserializeBody_cases (accept .deserialize s) with ⟨e, _, _, hrun⟩ | ⟨passed, _⟩
  · exact ⟨e, congrArg complete hrun⟩
  · exact absurd ((passesCheck_checking s).1 ((checkImage_eq_none_iff _).1 passed)) h

/-! ### COMMIT -/

@[simp] theorem commitImage_status (s : State) : (commitImage s).status = s.status := by simp [commitImage]
@[simp] theorem commitImage_epoch (s : State) : (commitImage s).epoch = s.epoch := by simp [commitImage]

theorem commitImage_cnt (s : State) :
    (commitImage s).cnt.toNat = 2 ^ 24 * (s.byteAt .ibuf 4).toNat + 2 ^ 16 * (s.byteAt .ibuf 5).toNat +
      2 ^ 8 * (s.byteAt .ibuf 6).toNat + (s.byteAt .ibuf 7).toNat := by
  have written : (commitImage s).cnt =
      be32 (s.byteAt .ibuf 4) (s.byteAt .ibuf 5) (s.byteAt .ibuf 6) (s.byteAt .ibuf 7) := rfl
  rw [written, be32_toNat]

theorem commitImage_poff (s : State) : (commitImage s).poff.toNat = namedOffset s := by
  have written : (commitImage s).poff = BitVec.ofNat 16 (be16 (s.byteAt .ibuf 8) (s.byteAt .ibuf 9)).toNat := rfl
  rw [written, BitVec.ofNat_toNat, BitVec.setWidth_eq]
  exact be16_toNat _ _

theorem commitImage_k {s : State} (h : (namedOffset s - 10) / 2 ≤ 256) :
    (commitImage s).k.toNat = (namedOffset s - 10) / 2 := by
  have written : (commitImage s).k = BitVec.ofNat 9 ((imageOffset s - 10) / 2) := rfl
  rw [written, imageOffset_eq_namedOffset, BitVec.toNat_ofNat]
  omega

theorem commitImage_plen (s : State) : (commitImage s).plen.toNat = s.ilen.toNat - namedOffset s := by
  have written : (commitImage s).plen = BitVec.ofNat 32 (s.ilen.toNat - imageOffset s) := rfl
  have small : s.ilen.toNat < 2 ^ 32 := s.ilen.isLt
  rw [written, imageOffset_eq_namedOffset, BitVec.toNat_ofNat]
  omega

theorem commitImage_byteAt_alphaSym (s : State) (j : Nat) :
    (commitImage s).byteAt .alphaSym j =
      if j < (namedOffset s - 10) / 2 then s.byteAt .ibuf (10 + 2 * j) else s.byteAt .alphaSym j := by
  rw [State.byteAt_of_writeMany_zero (sp := .alphaSym) (vs := imageSyms s) rfl (commitImage_epoch s), imageSyms,
    imageEntries, imageOffset_eq_namedOffset, getD_getElem?_map_range]

theorem commitImage_freqAt (s : State) (j : Nat) :
    (commitImage s).freqAt j =
      if j < (namedOffset s - 10) / 2 then (s.byteAt .ibuf (11 + 2 * j)).setWidth 32 else s.freqAt j := by
  rw [State.freqAt_of_writeMany_zero (vs := imageFreqs s) rfl (commitImage_epoch s), imageFreqs, imageEntries,
    imageOffset_eq_namedOffset, getD_getElem?_map_range]

theorem commitImage_byteAt_pbuf (s : State) (i : Nat) :
    (commitImage s).byteAt .pbuf i =
      if i < s.ilen.toNat - namedOffset s then s.byteAt .ibuf (namedOffset s + i) else s.byteAt .pbuf i := by
  rw [State.byteAt_of_writeMany_zero (sp := .pbuf)
    (vs := s.bytesFrom .ibuf (imageOffset s) (s.ilen.toNat - imageOffset s)) rfl (commitImage_epoch s), State.bytesFrom,
    imageOffset_eq_namedOffset, getD_getElem?_map_range]

/-! ### The obligation -/

/-- Settles O20, by the two ends of CHECK: COMMIT when all tests pass, and nothing the host sees but STATUS when
one fails. -/
theorem deserializeCommitsTheImage : Obligations.DeserializeCommitsTheImage := by
  intro s p k n
  constructor
  · intro passes
    have kFits : k ≤ 256 := by
      obtain ⟨_, _, _, _, _, _, _, _, _, _, hk, _⟩ := passes
      exact hk
    have symbol := commitImage_byteAt_alphaSym (checking s)
    have frequency := commitImage_freqAt (checking s)
    have payload := commitImage_byteAt_pbuf (checking s)
    have wireFrequency {j : Nat} (hj : j < k) :
        (commitImage (checking s)).freqAt j = (s.byteAt .ibuf (11 + 2 * j)).setWidth 32 := (frequency j).trans (if_pos hj)
    have zeroExtended (j : Nat) (hj : j < k) :
        ((commitImage (checking s)).freqAt j).toNat = (s.byteAt .ibuf (11 + 2 * j)).toNat := by
      rw [wireFrequency hj, BitVec.toNat_setWidth_of_le (by decide)]
    have status : (commitImage (checking s)).status = (accept .deserialize s).status := commitImage_status (checking s)
    exact ⟨_, exec_deserialize_of_passes passes,
      finish_endedDone ((congrArg statusErr status).trans (accept_err .deserialize s)), finish_statusRestKept status,
      commitImage_cnt (checking s), commitImage_poff (checking s), commitImage_k (s := checking s) kFits,
      commitImage_plen (checking s),
      fun j hj => ⟨(symbol j).trans (if_pos hj), zeroExtended j hj⟩, fun i hi => (payload i).trans (if_pos hi),
      fun j hj => ⟨(symbol j).trans (if_neg (Nat.not_lt.2 hj)), (frequency j).trans (if_neg (Nat.not_lt.2 hj))⟩,
      fun i hi => (payload i).trans (if_neg (Nat.not_lt.2 hi))⟩
  · intro fails
    obtain ⟨e, hrun⟩ := exec_deserialize_of_fails fails
    have notDone : ¬ EndedDone (raiseError e (checking s)) := by
      rintro ⟨done, -⟩
      exact stDone_ne_stError (done.symm.trans (raiseError_state _ _))
    exact ⟨_, hrun, notDone, raiseError_statusRestKept (i := .deserialize) rfl, rfl, rfl, rfl, rfl,
      fun _ _ => ⟨rfl, rfl⟩, fun _ => rfl⟩

end Sys2Proof.Machine
end

section
/-! PROOFS. A word that is no command's, written to CMD (47_host_interface.md, R217): the decoder refuses it, the host's move is the
error entry, and the next command leaves a code of its own (R218). -/

namespace Sys2Proof.Machine

/-! ### The decoder on all words -/

theorem wordZero_append_wordOp (w : Word) : wordZero w ++ wordOp w = w :=
  (BitVec.extractLsb'_append_extractLsb'_eq_extractLsb' rfl).trans BitVec.extractLsb'_eq_self

theorem commandOfOpcode_eq_some {op : Byte} {i : Instr} (h : commandOfOpcode op = some i) : op = opcodeOf i := by
  unfold commandOfOpcode at h
  split_ifs at h with h1 h2 h3 h4 <;> cases h <;> assumption

theorem decodeWord_eq_ok {w : Word} {i : Instr} (h : decodeWord w = .ok i) : w = encodeWord i := by
  unfold decodeWord at h
  split at h
  · next zeroField =>
    split at h
    · next opcode =>
      cases h
      rw [encodeWord, ← commandOfOpcode_eq_some opcode, ← zeroField, wordZero_append_wordOp]
    · cases h
  · cases h

theorem decodeWord_of_noCommand {w : Word} (h : ∀ i : Instr, w ≠ encodeWord i) : ∃ e, decodeWord w = .error e := by
  cases decoded : decodeWord w with
  | error e => exact ⟨e, rfl⟩
  | ok i => exact absurd (decodeWord_eq_ok decoded) (h i)

/-! ### The host's move -/

theorem step_of_hostsMove {s : State} {a : HostAct} {rest : List HostAct} (notBusy : s.isBusy = false)
    (script : s.host.script = a :: rest) : step s = hostMove a (s.withHost { s.host with script := rest }) := by
  rw [step, nextMove, notBusy, script]
  rfl

theorem issue_of_noCommand {w : Word} {n : Nat} {s : State} (notBusy : s.isBusy = false)
    (noCommand : ∀ i : Instr, w ≠ encodeWord i) : issue w n s = .next (raiseError .badCmd s) := by
  obtain ⟨e, decoded⟩ := decodeWord_of_noCommand noCommand
  rw [issue, notBusy, decoded]
  rfl

/-! ### How a command ends -/

theorem errNumber_ne_badCmd {e : ErrCode} (h : e ≠ .badCmd) : errNumber e ≠ errNumber .badCmd := by
  cases e with
  | badCmd => exact absurd rfl h
  | _ => decide

/-- A command between its acceptance and its completion. -/
def commandBody : Instr → State → Run State
  | .encode => encodeBody
  | .decode => decodeBody
  | .serialize => serializeBody
  | .deserialize => deserializeBody

theorem exec_eq_complete (i : Instr) (s : State) : exec i s = complete (commandBody i (accept i s)) := by
  cases i <;> rfl

theorem checkImage_ne_badCmd (s : State) : checkImage s ≠ .badCmd := by
  unfold checkImage
  simp only
  split_ifs <;> decide

theorem commandBody_keeps_statusErr (i : Instr) (s : State) :
    statusErr (commandBody i s).state.status = statusErr s.status := by
  cases i with
  | encode =>
    obtain ⟨_, _, _, _, _, _, _, _, _, _, _, _, _, left⟩ := encodeBody_shape s
    rw [commandBody, left]
  | decode =>
    obtain ⟨_, _, _, _, _, _, _, left⟩ := decodeBody_shape s
    rw [commandBody, left]
  | serialize =>
    rcases serializeBody_cases s with ⟨run, -⟩ | ⟨run, -⟩ <;> rw [commandBody, run]
    · rfl
    · exact statusErr_setFtrunc _ _
  | deserialize =>
    rcases deserializeBody_cases s with ⟨_, -, -, run⟩ | ⟨-, run⟩ <;> rw [commandBody, run]
    · rfl
    · exact congrArg statusErr (commitImage_status _)

/-- The code a command raises is a code, and not the one of R217. -/
theorem commandBody_error {i : Instr} {s t : State} {e : ErrCode} (raised : commandBody i s = .raised e t) :
    e ≠ .none ∧ e ≠ .badCmd := by
  cases i with
  | encode => rcases encodeBody_error raised with rfl | rfl <;> decide
  | decode => rcases decodeBody_error raised with ⟨rfl | rfl | rfl, -⟩ <;> decide
  | serialize =>
    rcases serializeBody_cases s with ⟨run, -⟩ | ⟨run, -⟩ <;> cases run.symm.trans raised
    decide
  | deserialize =>
    rcases deserializeBody_cases s with ⟨_, isError, found, run⟩ | ⟨-, run⟩ <;> cases run.symm.trans raised
    exact ⟨isError, found ▸ checkImage_ne_badCmd _⟩

/-- R218 with the codes a command can end with: DONE, or ERROR with a code that is neither 0 nor ERR_BAD_CMD. -/
theorem exec_ends (i : Instr) (s : State) :
    ∃ u, exec i s = .next u ∧ (EndedDone u ∨ ∃ e, e ≠ .none ∧ e ≠ .badCmd ∧ EndedError e u) := by
  have kept := commandBody_keeps_statusErr i (accept i s)
  rw [exec_eq_complete]
  cases run : commandBody i (accept i s) with
  | ok t =>
    rw [run] at kept
    exact ⟨_, rfl, .inl (finish_endedDone (kept.trans (accept_err i s)))⟩
  | raised e t =>
    obtain ⟨isError, notBadCmd⟩ := commandBody_error run
    exact ⟨_, rfl, .inr ⟨e, isError, notBadCmd, raiseError_endedError e t⟩⟩

theorem exec_clears_badCmd (i : Instr) (s : State) :
    ∃ u, exec i s = .next u ∧ statusErr u.status ≠ errNumber .badCmd := by
  obtain ⟨u, run, ⟨-, noError⟩ | ⟨e, -, notBadCmd, -, code⟩⟩ := exec_ends i s
  · exact ⟨u, run, by rw [noError]; decide⟩
  · exact ⟨u, run, by rw [code]; exact errNumber_ne_badCmd notBadCmd⟩

/-! ### The obligation -/

/-- Settles O5: the step is the error entry on the state without the move, which writes STATUS.STATE and STATUS.ERR only. -/
theorem illegalWordSetsBadCmdOnly : Obligations.IllegalWordSetsBadCmdOnly := by
  intro s a w rest notBusy script writes noCommand
  obtain ⟨n, move⟩ := hostMove_writesCmd writes (s.withHost { s.host with script := rest })
  have errorEntry := (step_of_hostsMove notBusy script).trans (move.trans (issue_of_noCommand notBusy noCommand))
  exact ⟨_, errorEntry, raiseError_endedError _ _, ⟨raiseError_zero _ _, raiseError_ftrunc _ _⟩, rfl,
    fun i => exec_clears_badCmd i _⟩

end Sys2Proof.Machine
end

section
/-! PROOFS. The stable sort of the working list (00_scope.md, R9; 42_codetree.md, R122). -/

namespace Sys2Proof.Machine

variable {α : Type} (key : α → Nat)

/-- Key descending, and elements of one key related by `R`: what a sorted list of `R`-related ties looks like. -/
def DescTies (R : α → α → Prop) (a b : α) : Prop := key b ≤ key a ∧ (key a = key b → R a b)

/-- An element inserted before a sorted list whose ties it precedes leaves the list sorted. -/
theorem orderedInsert_descTies {R : α → α → Prop} {a : α} {l : List α} (sorted : l.Pairwise (DescTies key R))
    (first : ∀ b ∈ l, key a = key b → R a b) :
    (l.orderedInsert (fun a b => key b ≤ key a) a).Pairwise (DescTies key R) := by
  induction l with
  | nil => exact List.pairwise_singleton _ a
  | cons b l ih =>
    obtain ⟨below, sortedTail⟩ := List.pairwise_cons.1 sorted
    rw [List.orderedInsert_cons]
    split
    · next hle =>
      refine List.pairwise_cons.2 ⟨fun c hc => ⟨?_, first c hc⟩, sorted⟩
      rcases List.mem_cons.1 hc with rfl | hc
      · exact hle
      · exact (below c hc).1.trans hle
    · next hlt =>
      refine List.pairwise_cons.2 ⟨fun c hc => ?_, ih sortedTail fun c hc => first c (List.mem_cons_of_mem _ hc)⟩
      rcases (List.mem_orderedInsert _).1 hc with rfl | hc
      · exact ⟨by omega, fun tie => absurd tie.le hlt⟩
      · exact below c hc

/-- Stability: ties related by `R` in the list are so related in the sorted list. -/
theorem stableSortDesc_descTies {R : α → α → Prop} {l : List α} (ties : l.Pairwise (fun a b => key a = key b → R a b)) :
    (stableSortDesc key l).Pairwise (DescTies key R) := by
  induction l with
  | nil => exact List.Pairwise.nil
  | cons a l ih =>
    obtain ⟨first, tiesTail⟩ := List.pairwise_cons.1 ties
    exact orderedInsert_descTies key (ih tiesTail) fun b hb => first b ((List.mem_insertionSort _).1 hb)

theorem stableSortDesc_perm (l : List α) : (stableSortDesc key l).Perm l := List.perm_insertionSort _ l

@[simp] theorem length_stableSortDesc (l : List α) : (stableSortDesc key l).length = l.length :=
  (stableSortDesc_perm key l).length_eq

/-- What an insertion passes over has a greater key, so elements of the inserted one's key stay behind it. -/
theorem filter_orderedInsert_key (a : α) (l : List α) (v : Nat) :
    (l.orderedInsert (fun a b => key b ≤ key a) a).filter (fun c => key c = v) =
      (a :: l).filter (fun c => key c = v) := by
  induction l with
  | nil => rfl
  | cons b l ih =>
    rw [List.orderedInsert_cons]
    split
    · rfl
    · next hlt =>
      have notBoth : key a = v → key b ≠ v := by omega
      rw [List.filter_cons, ih]
      by_cases ha : key a = v
      · simp [ha, notBoth ha]
      · simp [List.filter_cons, ha]

theorem filter_stableSortDesc_key (l : List α) (v : Nat) :
    (stableSortDesc key l).filter (fun a => key a = v) = l.filter (fun a => key a = v) := by
  induction l with
  | nil => rfl
  | cons a l ih => exact (filter_orderedInsert_key key a _ v).trans (by simp only [List.filter_cons]; rw [← ih]; rfl)

/-- Settles O45: the sort permutes, orders by key, and filters to the same elements of each key. -/
theorem stableSortDescending : Obligations.StableSortDescending := by
  intro key l
  have noTies : l.Pairwise (fun a b => key a = key b → True) := List.pairwise_of_forall fun _ _ _ => trivial
  exact ⟨stableSortDesc_perm key l, (stableSortDesc_descTies key noTies).imp And.left, filter_stableSortDesc_key key l⟩

end Sys2Proof.Machine
end

section
/-! PROOFS. The tree builder (42_codetree.md, R120 to R124): what BT_INIT leaves, what one merge does, said once, and induction over the
merges of BUILD. -/

namespace Sys2Proof.Machine

/-- The working list in force, `WL[0..WLN−1]`. -/
def liveNodes (t : TreeBuilder) : List (BitVec 9) := Table.first 0 t.wln.toNat t.wl

@[simp] theorem length_liveNodes (t : TreeBuilder) : (liveNodes t).length = t.wln.toNat := Table.length_first 0 _ _

theorem btSorted_eq (t : TreeBuilder) : btSorted t = stableSortDesc (nodeKey t) (liveNodes t) := rfl

/-! ### BT_INIT -/

theorem get_btLeaves (es : List (Byte × Word)) (j : Nat) (node : List NodeEntry) (n : Nat) :
    Table.get NodeEntry.blank (btLeaves es j node) n =
      if h : j ≤ n ∧ n - j < es.length then
        { Table.get NodeEntry.blank node n with tag := .leaf, byte := es[n - j].1, freq := es[n - j].2.setWidth 40 }
      else Table.get NodeEntry.blank node n := by
  induction es generalizing j node with
  | nil => simp [btLeaves]
  | cons e es ih =>
    rw [btLeaves, ih]
    simp only [Table.get_put, List.length_cons]
    by_cases first : n = j
    · subst first
      simp
    · by_cases later : j ≤ n ∧ n - j < es.length + 1
      · have inTail : j + 1 ≤ n ∧ n - (j + 1) < es.length := by omega
        have shift : n - j = n - (j + 1) + 1 := by omega
        simp [inTail, later, first, shift]
      · rw [dif_neg (by omega), dif_neg later, if_neg first]

theorem nodeAt_btInit_leaf (a : List (Byte × Word)) (t0 : TreeBuilder) {j : Nat} (h : j < a.length) :
    (nodeAt (btInit a t0) j).tag = .leaf ∧ (nodeAt (btInit a t0) j).byte = a[j].1 ∧
      (nodeAt (btInit a t0) j).freq = a[j].2.setWidth 40 := by
  simp [nodeAt, btInit, get_btLeaves, h]

theorem nodeAt_btInit_empty (a : List (Byte × Word)) (t0 : TreeBuilder) {j : Nat} (h : a.length ≤ j) (hcap : j < 511) :
    (nodeAt (btInit a t0) j).tag = .empty := by
  simp [nodeAt, btInit, get_btLeaves, Nat.not_lt.2 h, Table.get_mapFirst, Config.nodeCap, hcap]

theorem wln_btInit {a : List (Byte × Word)} (h : a.length ≤ 256) (t0 : TreeBuilder) :
    (btInit a t0).wln.toNat = a.length :=
  Nat.mod_eq_of_lt (by omega)

theorem nnodes_btInit {a : List (Byte × Word)} (h : a.length ≤ 256) (t0 : TreeBuilder) :
    (btInit a t0).nnodes.toNat = a.length :=
  Nat.mod_eq_of_lt (by omega)

theorem liveNodes_btInit {a : List (Byte × Word)} (h : a.length ≤ 256) (t0 : TreeBuilder) :
    liveNodes (btInit a t0) = (List.range a.length).map (BitVec.ofNat 9) := by
  rw [liveNodes, wln_btInit h]
  simpa [btInit] using Table.first_putFirst 0 t0.wl ((List.range a.length).map (BitVec.ofNat 9))

/-! ### One merge -/

/-- `u` is `t` after a merge (R122) that took `x` as left and `y` as right child: all of what it changes. -/
structure Merges (t u : TreeBuilder) (rest : List (BitVec 9)) (x y : BitVec 9) : Prop where
  sorted : btSorted t = rest ++ [x, y]
  nnodes : u.nnodes.toNat = t.nnodes.toNat + 1
  wln : u.wln.toNat = t.wln.toNat - 1
  live : liveNodes u = rest ++ [BitVec.ofNat 9 t.nnodes.toNat]
  tag : (nodeAt u t.nnodes.toNat).tag = .internal
  left : (nodeAt u t.nnodes.toNat).left = x
  right : (nodeAt u t.nnodes.toNat).right = y
  freq : (nodeAt u t.nnodes.toNat).freq = (nodeAt t x.toNat).freq + (nodeAt t y.toNat).freq
  kept : ∀ n, n ≠ t.nnodes.toNat → nodeAt u n = nodeAt t n

theorem exists_eq_append_pair {α : Type} (l : List α) (blank : α) (h : 2 ≤ l.length) :
    l = l.take (l.length - 2) ++ [l.getD (l.length - 2) blank, l.getD (l.length - 1) blank] := by
  have cut : l.drop (l.length - 2) = [l.getD (l.length - 2) blank, l.getD (l.length - 1) blank] := by
    rw [List.drop_eq_getElem_cons (by omega), List.drop_eq_getElem_cons (by omega), List.drop_eq_nil_of_le (by omega)]
    have next : l.length - 2 + 1 = l.length - 1 := by omega
    rw [← List.getD_eq_getElem _ blank, ← List.getD_eq_getElem _ blank, next]
  rw [← cut, List.take_append_drop]

/-- The first `n + 1` cells after a sorted list has been written back and cell `n` given to the new node. -/
theorem first_put_putFirst {α : Type} (blank : α) (t vs : List α) (n : Nat) (v : α) (h : n ≤ vs.length) :
    Table.first blank (n + 1) (Table.put blank (Table.putFirst t vs) n v) = vs.take n ++ [v] := by
  have before : Table.first blank n (Table.put blank (Table.putFirst t vs) n v) = vs.take n := by
    apply List.ext_getElem
    · simpa using h
    · intro i hi _
      have below : i < n := by simpa using hi
      rw [Table.getElem_first, Table.get_put_other _ _ _ (by omega), Table.get_putFirst, dif_pos (by omega),
        List.getElem_take]
  rw [Table.first_succ, before, Table.get_put_same]

theorem btMerge_merges {t : TreeBuilder} (hlive : 2 ≤ t.wln.toNat) (hcap : t.nnodes.toNat < 511) :
    ∃ rest x y, Merges t (btMerge t) rest x y := by
  have len : (btSorted t).length = t.wln.toNat := by rw [btSorted_eq, length_stableSortDesc, length_liveNodes]
  have cut := exists_eq_append_pair (btSorted t) 0 (by omega)
  rw [len] at cut
  have wln : (t.wln - 1).toNat = t.wln.toNat - 1 := BitVec.toNat_sub_of_le (BitVec.le_def.2 (by simpa using by omega))
  refine ⟨_, _, _, cut, BitVec.toNat_add_of_lt (y := 1#10) (by simpa using by omega), wln, ?_, ?_, ?_, ?_, ?_, ?_⟩
  · have shorter : t.wln.toNat - 1 = t.wln.toNat - 2 + 1 := by omega
    have written := first_put_putFirst 0 t.wl (btSorted t) (t.wln.toNat - 2) (t.nnodes.setWidth 9) (by omega)
    rw [liveNodes, show (btMerge t).wln.toNat = _ from wln, shorter]
    exact written
  iterate 4 simp [nodeAt, btMerge]
  · intro n hn
    exact Table.get_put_other _ _ _ hn

theorem Merges.perm {t u : TreeBuilder} {rest : List (BitVec 9)} {x y : BitVec 9} (m : Merges t u rest x y) :
    (rest ++ [x, y]).Perm (liveNodes t) :=
  m.sorted ▸ stableSortDesc_perm _ _

/-! ### Induction over the merges -/

/-- The builder after `n` merges. -/
def afterMerges (a : List (Byte × Word)) (t0 : TreeBuilder) (n : Nat) : TreeBuilder := btMerge^[n] (btInit a t0)

theorem afterMerges_succ (a : List (Byte × Word)) (t0 : TreeBuilder) (n : Nat) :
    afterMerges a t0 (n + 1) = btMerge (afterMerges a t0 n) :=
  Function.iterate_succ_apply' btMerge n (btInit a t0)

section
variable {a : List (Byte × Word)} {t0 : TreeBuilder} (hK : a.length ≤ 256)
include hK

theorem afterMerges_counts {n : Nat} (hn : n + 1 ≤ a.length) :
    (afterMerges a t0 n).wln.toNat = a.length - n ∧ (afterMerges a t0 n).nnodes.toNat = a.length + n := by
  induction n with
  | zero => exact ⟨wln_btInit hK t0, nnodes_btInit hK t0⟩
  | succ n ih =>
    obtain ⟨hwln, hnodes⟩ := ih (by omega)
    obtain ⟨_, _, _, m⟩ := btMerge_merges (t := afterMerges a t0 n) (by omega) (by omega)
    rw [afterMerges_succ, m.wln, m.nnodes]
    omega

theorem afterMerges_merges {n : Nat} (hn : n + 2 ≤ a.length) :
    ∃ rest x y, Merges (afterMerges a t0 n) (afterMerges a t0 (n + 1)) rest x y := by
  obtain ⟨hwln, hnodes⟩ := afterMerges_counts hK (t0 := t0) (n := n) (by omega)
  rw [afterMerges_succ]
  exact btMerge_merges (by omega) (by omega)

/-- What holds after BT_INIT and is kept by every merge holds after any number of merges. -/
theorem afterMerges_induction {P : TreeBuilder → Prop} (init : P (btInit a t0))
    (step : ∀ {n rest x y}, n + 2 ≤ a.length → Merges (afterMerges a t0 n) (afterMerges a t0 (n + 1)) rest x y →
      P (afterMerges a t0 n) → P (afterMerges a t0 (n + 1)))
    {n : Nat} (hn : n + 1 ≤ a.length) : P (afterMerges a t0 n) := by
  induction n with
  | zero => exact init
  | succ n ih =>
    obtain ⟨_, _, _, m⟩ := afterMerges_merges hK (t0 := t0) hn
    exact step hn m (ih (by omega))

end

/-! ### BT_FINISH -/

theorem btReduce_eq_afterMerges {a : List (Byte × Word)} {t0 : TreeBuilder} (hK : a.length ≤ 256) {k n : Nat}
    (hn : n + 1 ≤ a.length) (hk : a.length ≤ n + 1 + k) :
    btReduce k (afterMerges a t0 n) = afterMerges a t0 (a.length - 1) := by
  induction k generalizing n with
  | zero =>
    have last : n = a.length - 1 := by omega
    rw [btReduce, last]
  | succ k ih =>
    obtain ⟨hwln, _⟩ := afterMerges_counts hK (t0 := t0) hn
    rw [btReduce]
    split
    · rw [← afterMerges_succ, ih (by omega) (by omega)]
    · have last : n = a.length - 1 := by omega
      rw [last]

/-- BUILD of a non-empty Alphabet is `K − 1` merges and the root's registers (R123, R124). -/
theorem buildTree_eq {a : List (Byte × Word)} {t0 : TreeBuilder} (h1 : 1 ≤ a.length) (hK : a.length ≤ 256) :
    buildTree a t0 = { afterMerges a t0 (a.length - 1) with
      root := Table.get 0 (afterMerges a t0 (a.length - 1)).wl 0, rootv := true } := by
  obtain ⟨hwln, _⟩ := afterMerges_counts hK (t0 := t0) (n := a.length - 1) (by omega)
  have one : (afterMerges a t0 (a.length - 1)).wln = 1 := BitVec.eq_of_toNat_eq (by rw [hwln]; simp; omega)
  have reduced : btReduce a.length (btInit a t0) = afterMerges a t0 (a.length - 1) :=
    btReduce_eq_afterMerges (n := 0) hK h1 (by omega)
  rw [buildTree, reduced, btFinish, if_pos one]

theorem nodeAt_buildTree {a : List (Byte × Word)} {t0 : TreeBuilder} (h1 : 1 ≤ a.length) (hK : a.length ≤ 256) :
    nodeAt (buildTree a t0) = nodeAt (afterMerges a t0 (a.length - 1)) := by
  rw [buildTree_eq h1 hK]
  rfl

theorem liveNodes_last {a : List (Byte × Word)} {t0 : TreeBuilder} (h1 : 1 ≤ a.length) (hK : a.length ≤ 256) :
    liveNodes (afterMerges a t0 (a.length - 1)) = [(buildTree a t0).root] := by
  obtain ⟨hwln, _⟩ := afterMerges_counts hK (t0 := t0) (n := a.length - 1) (by omega)
  have one : a.length - (a.length - 1) = 1 := by omega
  rw [liveNodes, hwln, one, Table.first_succ, buildTree_eq h1 hK]
  rfl

end Sys2Proof.Machine
end

section
/-! PROOFS. Invariants of BUILD (42_codetree.md, R127, R130): the order of the working list, the frequencies, the internal nodes, their
parents. Each holds after BT_INIT and is kept by every merge. -/

namespace Sys2Proof.Machine

/-! ### What a merge leaves of the older nodes -/

section
variable {t u : TreeBuilder} {rest : List (BitVec 9)} {x y : BitVec 9}

theorem Merges.key_kept (m : Merges t u rest x y) {i : BitVec 9} (h : i.toNat < t.nnodes.toNat) :
    nodeKey u i = nodeKey t i := by
  rw [nodeKey, m.kept _ (Nat.ne_of_lt h), nodeKey]

theorem toNat_newNode {t : TreeBuilder} (h : t.nnodes.toNat < 511) :
    (BitVec.ofNat 9 t.nnodes.toNat).toNat = t.nnodes.toNat :=
  Nat.mod_eq_of_lt (by omega)

theorem Merges.left_live (m : Merges t u rest x y) : x ∈ liveNodes t := m.perm.subset (by simp)

theorem Merges.right_live (m : Merges t u rest x y) : y ∈ liveNodes t := m.perm.subset (by simp)

theorem Merges.rest_live (m : Merges t u rest x y) {i : BitVec 9} (h : i ∈ rest) : i ∈ liveNodes t :=
  m.perm.subset (by simp [h])

theorem Merges.mem_live (m : Merges t u rest x y) {i : BitVec 9} :
    i ∈ liveNodes u ↔ i ∈ rest ∨ i = BitVec.ofNat 9 t.nnodes.toNat := by
  simp [m.live]

theorem Merges.live_cases (m : Merges t u rest x y) {i : BitVec 9} (h : i ∈ liveNodes t) : i ∈ rest ∨ i = x ∨ i = y := by
  simpa using m.perm.symm.subset h

end

/-! ### The order of the working list -/

/-- The live nodes exist, and those of one frequency stand in the order of their indices. -/
structure OrderedLive (t : TreeBuilder) : Prop where
  below : ∀ i ∈ liveNodes t, i.toNat < t.nnodes.toNat
  ties : (liveNodes t).Pairwise (fun i j => nodeKey t i = nodeKey t j → i.toNat < j.toNat)

theorem OrderedLive.nodup {t : TreeBuilder} (h : OrderedLive t) : (liveNodes t).Nodup :=
  h.ties.imp fun lt same => absurd (lt (by rw [same])) (by rw [same]; exact lt_irrefl _)

theorem OrderedLive.sorted {t u : TreeBuilder} {rest : List (BitVec 9)} {x y : BitVec 9} (h : OrderedLive t)
    (m : Merges t u rest x y) :
    (rest ++ [x, y]).Pairwise (DescTies (nodeKey t) (fun i j => i.toNat < j.toNat)) := by
  rw [← m.sorted]
  exact stableSortDesc_descTies _ h.ties

theorem OrderedLive.merge {t u : TreeBuilder} {rest : List (BitVec 9)} {x y : BitVec 9} (h : OrderedLive t)
    (hcap : t.nnodes.toNat < 511) (m : Merges t u rest x y) : OrderedLive u := by
  have restBelow : ∀ i ∈ rest, i.toNat < t.nnodes.toNat := fun i hi => h.below i (m.rest_live hi)
  constructor
  · intro i hi
    rw [m.nnodes]
    rcases m.mem_live.1 hi with hi | rfl
    · exact Nat.lt_succ_of_lt (restBelow i hi)
    · rw [toNat_newNode hcap]
      exact Nat.lt_succ_self _
  · obtain ⟨sortedRest, -, -⟩ := List.pairwise_append.1 (h.sorted m)
    rw [m.live]
    refine List.pairwise_append.2 ⟨?_, List.pairwise_singleton _ _, fun i hi j hj _ => ?_⟩
    · refine sortedRest.imp_of_mem fun {i j} hi hj ordered same => ordered.2 ?_
      rwa [m.key_kept (restBelow i hi), m.key_kept (restBelow j hj)] at same
    · rw [List.mem_singleton.1 hj, toNat_newNode hcap]
      exact restBelow i hi

section
variable {a : List (Byte × Word)} {t0 : TreeBuilder} (hK : a.length ≤ 256)
include hK

theorem afterMerges_below_cap {n : Nat} (hn : n + 2 ≤ a.length) : (afterMerges a t0 n).nnodes.toNat < 511 := by
  obtain ⟨-, hnodes⟩ := afterMerges_counts hK (t0 := t0) (n := n) (by omega)
  omega

theorem orderedLive_btInit : OrderedLive (btInit a t0) := by
  have index {j : Nat} (h : j < a.length) : (BitVec.ofNat 9 j).toNat = j := Nat.mod_eq_of_lt (by omega)
  constructor
  · intro i hi
    rw [liveNodes_btInit hK] at hi
    obtain ⟨j, hj, rfl⟩ := List.mem_map.1 hi
    rw [nnodes_btInit hK, index (List.mem_range.1 hj)]
    exact List.mem_range.1 hj
  · rw [liveNodes_btInit hK, List.pairwise_map]
    refine List.pairwise_lt_range.imp_of_mem fun hi hj lt _ => ?_
    rwa [index (List.mem_range.1 hi), index (List.mem_range.1 hj)]

theorem afterMerges_orderedLive {n : Nat} (hn : n + 1 ≤ a.length) : OrderedLive (afterMerges a t0 n) :=
  afterMerges_induction hK (orderedLive_btInit hK) (fun hn m h => h.merge (afterMerges_below_cap hK hn) m) hn

end

/-- Settles O48: the working list is sorted with ties in the order of their indices, and a merge takes its last two. -/
theorem mergeTakesLeastFrequencyGreatestIndex : Obligations.MergeTakesLeastFrequencyGreatestIndex := by
  intro a t0 n hK hn t live x y
  have ordered : OrderedLive t := afterMerges_orderedLive hK (by omega)
  obtain ⟨rest, x', y', m⟩ := afterMerges_merges hK (t0 := t0) hn
  rw [afterMerges_succ] at m
  obtain rfl : x = x' := m.left
  obtain rfl : y = y' := m.right
  have sorted := ordered.sorted m
  have distinct : [x, y].Nodup := (m.perm.nodup_iff.2 ordered.nodup).sublist (List.sublist_append_right rest [x, y])
  rw [List.append_cons rest x [y]] at sorted
  obtain ⟨sortedButLast, -, beforeY⟩ := List.pairwise_append.1 sorted
  obtain ⟨-, -, beforeX⟩ := List.pairwise_append.1 sortedButLast
  have least {z v : BitVec 9} (h : DescTies (nodeKey t) (fun i j => i.toNat < j.toNat) z v) :
      nodeKey t v < nodeKey t z ∨ (nodeKey t v = nodeKey t z ∧ z.toNat < v.toNat) := by
    obtain ⟨le, tie⟩ := h
    rcases Nat.lt_or_eq_of_le le with lt | same
    · exact .inl lt
    · exact .inr ⟨same, tie same.symm⟩
  refine ⟨?_, ordered.nodup, m.left_live, m.right_live, by simpa using distinct, fun z hz hy => ?_, fun z hz hy hx => ?_⟩
  · exact (length_liveNodes t).trans (afterMerges_counts hK (by omega)).1
  · rcases m.live_cases hz with hz | rfl | rfl
    · exact least (beforeY z (by simp [hz]) y (by simp))
    · exact least (beforeY x (by simp) y (by simp))
    · exact absurd rfl hy
  · rcases m.live_cases hz with hz | rfl | rfl
    · exact least (beforeX z hz x (by simp))
    · exact absurd rfl hx
    · exact absurd rfl hy

/-! ### Frequencies -/

/-- The sum of an Alphabet's frequencies. -/
def totalFreq (a : List (Byte × Word)) : Nat := (a.map (fun e => e.2.toNat)).sum

theorem totalFreq_lt {a : List (Byte × Word)} (hK : a.length ≤ 256) : totalFreq a < 2 ^ 40 := by
  have each : ∀ f ∈ a.map (fun e => e.2.toNat), f ≤ 2 ^ 32 - 1 := by
    intro f hf
    obtain ⟨e, -, rfl⟩ := List.mem_map.1 hf
    have := e.2.isLt
    omega
  have bound := List.sum_le_card_nsmul _ _ each
  rw [List.length_map, smul_eq_mul] at bound
  have := Nat.mul_le_mul_right (2 ^ 32 - 1) hK
  rw [totalFreq]
  omega

/-- The live nodes carry, together, all the frequencies. -/
def LiveSum (a : List (Byte × Word)) (t : TreeBuilder) : Prop := ((liveNodes t).map (nodeKey t)).sum = totalFreq a

theorem Merges.sum_live {t u : TreeBuilder} {rest : List (BitVec 9)} {x y : BitVec 9} (m : Merges t u rest x y) :
    ((liveNodes t).map (nodeKey t)).sum = (rest.map (nodeKey t)).sum + (nodeKey t x + nodeKey t y) := by
  rw [← (m.perm.map (nodeKey t)).sum_eq]
  simp

/-- The 40-bit addition of R122 is exact. -/
theorem Merges.key_new {a : List (Byte × Word)} (hK : a.length ≤ 256) {t u : TreeBuilder} {rest : List (BitVec 9)}
    {x y : BitVec 9} (m : Merges t u rest x y) (sum : LiveSum a t) :
    (nodeAt u t.nnodes.toNat).freq.toNat = nodeKey t x + nodeKey t y := by
  have total := totalFreq_lt hK
  rw [← sum, m.sum_live] at total
  have noWrap : nodeKey t x + nodeKey t y < 2 ^ 40 := by omega
  rw [m.freq]
  exact BitVec.toNat_add_of_lt noWrap

theorem LiveSum.merge {a : List (Byte × Word)} (hK : a.length ≤ 256) {t u : TreeBuilder} {rest : List (BitVec 9)}
    {x y : BitVec 9} (sum : LiveSum a t) (ordered : OrderedLive t) (hcap : t.nnodes.toNat < 511)
    (m : Merges t u rest x y) : LiveSum a u := by
  have restKept : rest.map (nodeKey u) = rest.map (nodeKey t) :=
    List.map_congr_left fun i hi => m.key_kept (ordered.below i (m.rest_live hi))
  have keyNew : nodeKey u (BitVec.ofNat 9 t.nnodes.toNat) = nodeKey t x + nodeKey t y := by
    rw [nodeKey, toNat_newNode hcap, m.key_new hK sum]
  rw [LiveSum, m.live, List.map_append, List.sum_append, restKept, List.map_singleton, List.sum_singleton, keyNew,
    ← m.sum_live, sum]

theorem liveSum_btInit {a : List (Byte × Word)} (hK : a.length ≤ 256) (t0 : TreeBuilder) : LiveSum a (btInit a t0) := by
  rw [LiveSum, liveNodes_btInit hK, totalFreq]
  congr 1
  apply List.ext_getElem
  · simp
  · intro j hj _
    have below : j < a.length := by simpa using hj
    have index : j % 512 = j := Nat.mod_eq_of_lt (by omega)
    have small := a[j].2.isLt
    simp only [List.getElem_map, List.getElem_range, nodeKey, BitVec.toNat_ofNat, Nat.reducePow, index,
      (nodeAt_btInit_leaf a t0 below).2.2, BitVec.toNat_setWidth]
    omega

section
variable {a : List (Byte × Word)} {t0 : TreeBuilder} (hK : a.length ≤ 256)
include hK

theorem afterMerges_liveSum {n : Nat} (hn : n + 1 ≤ a.length) : LiveSum a (afterMerges a t0 n) :=
  afterMerges_induction hK (liveSum_btInit hK t0)
    (fun hn m h => h.merge hK (afterMerges_orderedLive hK (by omega)) (afterMerges_below_cap hK hn) m) hn

end

/-! ### The nodes -/

/-- Node `m` is internal, after its children, with their exact sum as frequency and the left one at least as frequent. -/
structure IsInternal (t : TreeBuilder) (m : Nat) : Prop where
  tag : (nodeAt t m).tag = .internal
  left_lt : (nodeAt t m).left.toNat < m
  right_lt : (nodeAt t m).right.toNat < m
  freq : (nodeAt t m).freq.toNat =
    (nodeAt t (nodeAt t m).left.toNat).freq.toNat + (nodeAt t (nodeAt t m).right.toNat).freq.toNat
  right_le : (nodeAt t (nodeAt t m).right.toNat).freq.toNat ≤ (nodeAt t (nodeAt t m).left.toNat).freq.toNat

/-- Node `j` is the leaf of entry `e`. -/
structure IsLeafOf (t : TreeBuilder) (j : Nat) (e : Byte × Word) : Prop where
  tag : (nodeAt t j).tag = .leaf
  byte : (nodeAt t j).byte = e.1
  freq : (nodeAt t j).freq.toNat = e.2.toNat

/-- The nodes of the tree memory: the leaves, the internal nodes so far, and EMPTY ones. -/
structure NodesOf (a : List (Byte × Word)) (t : TreeBuilder) : Prop where
  leaves : ∀ j, (h : j < a.length) → IsLeafOf t j a[j]
  internals : ∀ m, a.length ≤ m → m < t.nnodes.toNat → IsInternal t m
  empties : ∀ m, t.nnodes.toNat ≤ m → m < 511 → (nodeAt t m).tag = .empty

theorem nodesOf_btInit {a : List (Byte × Word)} (hK : a.length ≤ 256) (t0 : TreeBuilder) : NodesOf a (btInit a t0) := by
  have nnodes := nnodes_btInit hK t0
  refine ⟨fun j hj => ?_, fun m h1 h2 => by omega, fun m h1 h2 => nodeAt_btInit_empty a t0 (by omega) h2⟩
  obtain ⟨tag, byte, freq⟩ := nodeAt_btInit_leaf a t0 hj
  exact ⟨tag, byte, by rw [freq, BitVec.toNat_setWidth_of_le (by decide)]⟩

theorem IsInternal.kept {t u : TreeBuilder} {rest : List (BitVec 9)} {x y : BitVec 9} {m : Nat} (h : IsInternal t m)
    (merged : Merges t u rest x y) (hm : m < t.nnodes.toNat) : IsInternal u m := by
  have same : nodeAt u m = nodeAt t m := merged.kept m (Nat.ne_of_lt hm)
  have left : nodeAt u (nodeAt t m).left.toNat = _ := merged.kept _ (Nat.ne_of_lt (h.left_lt.trans hm))
  have right : nodeAt u (nodeAt t m).right.toNat = _ := merged.kept _ (Nat.ne_of_lt (h.right_lt.trans hm))
  obtain ⟨tag, leftLt, rightLt, freq, rightLe⟩ := h
  constructor <;> rw [same] <;> (try rw [left]) <;> (try rw [right]) <;> assumption

theorem Merges.isInternal_new {a : List (Byte × Word)} (hK : a.length ≤ 256) {t u : TreeBuilder}
    {rest : List (BitVec 9)} {x y : BitVec 9} (m : Merges t u rest x y) (ordered : OrderedLive t) (sum : LiveSum a t) :
    IsInternal u t.nnodes.toNat := by
  have xBelow := ordered.below x m.left_live
  have yBelow := ordered.below y m.right_live
  have xKept : nodeAt u x.toNat = nodeAt t x.toNat := m.kept _ (Nat.ne_of_lt xBelow)
  have yKept : nodeAt u y.toNat = nodeAt t y.toNat := m.kept _ (Nat.ne_of_lt yBelow)
  obtain ⟨-, pair, -⟩ := List.pairwise_append.1 (ordered.sorted m)
  have rightLe : nodeKey t y ≤ nodeKey t x := (List.pairwise_pair.1 pair).1
  refine ⟨m.tag, by rwa [m.left], by rwa [m.right], ?_, ?_⟩
  · rw [m.key_new hK sum, m.left, m.right, xKept, yKept, nodeKey, nodeKey]
  · rwa [m.left, m.right, xKept, yKept]

theorem NodesOf.merge {a : List (Byte × Word)} (hK : a.length ≤ 256) {t u : TreeBuilder} {rest : List (BitVec 9)}
    {x y : BitVec 9} (h : NodesOf a t) (ordered : OrderedLive t) (sum : LiveSum a t) (leavesBelow : a.length ≤ t.nnodes.toNat)
    (m : Merges t u rest x y) : NodesOf a u := by
  have nnodes := m.nnodes
  refine ⟨fun j hj => ?_, fun n h1 h2 => ?_, fun n h1 h2 => ?_⟩
  · obtain ⟨tag, byte, freq⟩ := h.leaves j hj
    have same : nodeAt u j = nodeAt t j := m.kept j (by omega)
    exact ⟨by rw [same, tag], by rw [same, byte], by rw [same, freq]⟩
  · rcases Nat.lt_or_eq_of_le (Nat.le_of_lt_succ (nnodes ▸ h2)) with older | rfl
    · exact (h.internals n h1 older).kept m older
    · exact m.isInternal_new hK ordered sum
  · rw [m.kept n (by omega)]
    exact h.empties n (by omega) h2

section
variable {a : List (Byte × Word)} {t0 : TreeBuilder} (hK : a.length ≤ 256)
include hK

theorem afterMerges_leavesBelow {n : Nat} (hn : n + 1 ≤ a.length) : a.length ≤ (afterMerges a t0 n).nnodes.toNat := by
  obtain ⟨-, hnodes⟩ := afterMerges_counts hK (t0 := t0) hn
  omega

theorem afterMerges_nodesOf {n : Nat} (hn : n + 1 ≤ a.length) : NodesOf a (afterMerges a t0 n) :=
  afterMerges_induction hK (nodesOf_btInit hK t0) (fun hn m h => h.merge hK (afterMerges_orderedLive hK (by omega))
    (afterMerges_liveSum hK (by omega)) (afterMerges_leavesBelow hK (by omega)) m) hn

/-- The node made last closes the working list. -/
theorem afterMerges_getLast {n : Nat} (hn : n + 1 ≤ a.length) :
    (liveNodes (afterMerges a t0 n)).getLast? = some (BitVec.ofNat 9 (a.length + n - 1)) := by
  cases n with
  | zero =>
    have init : liveNodes (afterMerges a t0 0) = _ := liveNodes_btInit hK t0
    rw [init, List.getLast?_map, List.getLast?_range, if_neg (by omega)]
    rfl
  | succ n =>
    obtain ⟨_, _, _, m⟩ := afterMerges_merges hK (t0 := t0) hn
    rw [m.live, List.getLast?_concat, (afterMerges_counts hK (by omega)).2]
    rfl

end

section
variable {a : List (Byte × Word)} {t0 : TreeBuilder} (h1 : 1 ≤ a.length) (hK : a.length ≤ 256)
include h1 hK

theorem buildTree_nnodes : (buildTree a t0).nnodes.toNat = 2 * a.length - 1 := by
  rw [buildTree_eq h1 hK]
  exact (afterMerges_counts hK (by omega)).2.trans (by omega)

theorem buildTree_root : (buildTree a t0).root.toNat = 2 * a.length - 2 := by
  have last := afterMerges_getLast hK (t0 := t0) (n := a.length - 1) (by omega)
  rw [liveNodes_last h1 hK, List.getLast?_singleton, Option.some_inj] at last
  rw [last, BitVec.toNat_ofNat]
  omega

theorem buildTree_nodesOf : NodesOf a (buildTree a t0) := by
  obtain ⟨leaves, internals, empties⟩ := afterMerges_nodesOf hK (t0 := t0) (n := a.length - 1) (by omega)
  rw [buildTree_eq h1 hK]
  exact ⟨fun j hj => ⟨(leaves j hj).tag, (leaves j hj).byte, (leaves j hj).freq⟩,
    fun m h h' => ⟨(internals m h h').tag, (internals m h h').left_lt, (internals m h h').right_lt,
      (internals m h h').freq, (internals m h h').right_le⟩, empties⟩

theorem buildTree_rootFreq : (nodeAt (buildTree a t0) (buildTree a t0).root.toNat).freq.toNat = totalFreq a := by
  have sum := afterMerges_liveSum hK (t0 := t0) (n := a.length - 1) (by omega)
  rw [LiveSum, liveNodes_last h1 hK, List.map_singleton, List.sum_singleton, nodeKey] at sum
  rwa [nodeAt_buildTree h1 hK]

end

/-- Settles O46, by the invariants of the merges at the last one. -/
theorem builtTreeStructure : Obligations.BuiltTreeStructure := by
  intro a t0 h1 hK t
  have nnodes : t.nnodes.toNat = _ := buildTree_nnodes h1 hK
  obtain ⟨leaves, internals, empties⟩ : NodesOf a t := buildTree_nodesOf h1 hK
  refine ⟨nnodes, congrArg TreeBuilder.rootv (buildTree_eq h1 hK), buildTree_root h1 hK, fun j hj => ?_, fun m h h' => ?_,
    buildTree_rootFreq h1 hK, fun m h => empties m (nnodes ▸ h)⟩
  · obtain ⟨tag, byte, freq⟩ := leaves j hj
    exact ⟨tag, byte, freq⟩
  · obtain ⟨tag, left, right, freq, rightLe⟩ := internals m h (nnodes ▸ h')
    exact ⟨tag, left, right, freq, rightLe⟩

end Sys2Proof.Machine
end

section
/-! PROOFS. Parents and the order of creation (42_codetree.md, R130 (c), (f)): a live node has no parent, every other node has one; and
a merge is never less frequent than the merge before it. -/

namespace Sys2Proof.Machine

/-- Node `n` is a child of node `m`. -/
def IsChild (t : TreeBuilder) (m n : Nat) : Prop := (nodeAt t m).left.toNat = n ∨ (nodeAt t m).right.toNat = n

/-- Of the internal nodes, which begin at index `k`, exactly one has node `n` as a child, and on one side only. -/
def HasOneParent (k : Nat) (t : TreeBuilder) (n : Nat) : Prop :=
  ∃ m, k ≤ m ∧ m < t.nnodes.toNat ∧
    (((nodeAt t m).left.toNat = n ∧ (nodeAt t m).right.toNat ≠ n) ∨
      ((nodeAt t m).right.toNat = n ∧ (nodeAt t m).left.toNat ≠ n)) ∧
    ∀ m', k ≤ m' → m' < t.nnodes.toNat → IsChild t m' n → m' = m

/-- The live nodes are those without a parent. -/
structure Parents (k : Nat) (t : TreeBuilder) : Prop where
  live : ∀ i ∈ liveNodes t, ∀ m, k ≤ m → m < t.nnodes.toNat → ¬ IsChild t m i.toNat
  others : ∀ n, n < t.nnodes.toNat → (∀ i ∈ liveNodes t, i.toNat ≠ n) → HasOneParent k t n

section
variable {a : List (Byte × Word)} {t u : TreeBuilder} {rest : List (BitVec 9)} {x y : BitVec 9}

theorem Merges.isChild_new (m : Merges t u rest x y) {n : Nat} :
    IsChild u t.nnodes.toNat n ↔ x.toNat = n ∨ y.toNat = n := by rw [IsChild, m.left, m.right]

theorem Merges.isChild_older (m : Merges t u rest x y) {n p : Nat} (h : p < t.nnodes.toNat) :
    IsChild u p n ↔ IsChild t p n := by rw [IsChild, m.kept p (Nat.ne_of_lt h), IsChild]

theorem Merges.older_or_new (m : Merges t u rest x y) {p : Nat} (h : p < u.nnodes.toNat) :
    p < t.nnodes.toNat ∨ p = t.nnodes.toNat :=
  Nat.lt_or_eq_of_le (Nat.le_of_lt_succ (h.trans_eq m.nnodes))

theorem OrderedLive.children_ne (ordered : OrderedLive t) (m : Merges t u rest x y) : x.toNat ≠ y.toNat := by
  have distinct := (m.perm.nodup_iff.2 ordered.nodup).sublist (List.sublist_append_right rest [x, y])
  intro same
  simp [BitVec.eq_of_toNat_eq same] at distinct

theorem OrderedLive.rest_ne (ordered : OrderedLive t) (m : Merges t u rest x y) {i : BitVec 9} (hi : i ∈ rest) :
    ¬ (x.toNat = i.toNat ∨ y.toNat = i.toNat) := by
  obtain ⟨-, -, apart⟩ := List.nodup_append.1 (m.perm.nodup_iff.2 ordered.nodup)
  rintro (same | same)
  · exact apart i hi x (by simp) (BitVec.eq_of_toNat_eq same.symm)
  · exact apart i hi y (by simp) (BitVec.eq_of_toNat_eq same.symm)

/-- The new node's children lost no parent and gained one. -/
theorem Merges.hasOneParent_child {k n : Nat} (m : Merges t u rest x y) (ordered : OrderedLive t) (hk : k ≤ t.nnodes.toNat)
    (parents : Parents k t) (hn : x.toNat = n ∨ y.toNat = n) : HasOneParent k u n := by
  have ne := ordered.children_ne m
  refine ⟨t.nnodes.toNat, hk, by rw [m.nnodes]; exact Nat.lt_succ_self _, ?_, fun p hp hp' child => ?_⟩
  · rw [m.left, m.right]
    rcases hn with rfl | rfl
    · exact .inl ⟨rfl, ne.symm⟩
    · exact .inr ⟨rfl, ne⟩
  · rcases m.older_or_new hp' with older | new
    · rw [m.isChild_older older] at child
      rcases hn with rfl | rfl
      · exact absurd child (parents.live x m.left_live p hp older)
      · exact absurd child (parents.live y m.right_live p hp older)
    · exact new

theorem Merges.hasOneParent_kept {k n : Nat} (m : Merges t u rest x y) (hn : ¬ (x.toNat = n ∨ y.toNat = n))
    (h : HasOneParent k t n) : HasOneParent k u n := by
  obtain ⟨p, hp, hp', sides, only⟩ := h
  refine ⟨p, hp, by rw [m.nnodes]; exact Nat.lt_succ_of_lt hp', by rwa [m.kept p (Nat.ne_of_lt hp')], fun q hq hq' child => ?_⟩
  rcases m.older_or_new hq' with older | rfl
  · exact only q hq older ((m.isChild_older older).1 child)
  · exact absurd (m.isChild_new.1 child) hn

theorem Parents.merge (h : Parents a.length t) (ordered : OrderedLive t) (nodes : NodesOf a t) (hcap : t.nnodes.toNat < 511)
    (leavesBelow : a.length ≤ t.nnodes.toNat) (m : Merges t u rest x y) : Parents a.length u := by
  have xBelow := ordered.below x m.left_live
  have yBelow := ordered.below y m.right_live
  constructor
  · intro i hi p hp hp' child
    rcases m.mem_live.1 hi with hi | rfl
    · rcases m.older_or_new hp' with older | rfl
      · exact h.live i (m.rest_live hi) p hp older ((m.isChild_older older).1 child)
      · exact ordered.rest_ne m hi (m.isChild_new.1 child)
    · rw [toNat_newNode hcap] at child
      rcases m.older_or_new hp' with older | rfl
      · have left := (nodes.internals p hp older).left_lt
        have right := (nodes.internals p hp older).right_lt
        rcases (m.isChild_older older).1 child with same | same <;> omega
      · rcases m.isChild_new.1 child with same | same <;> omega
  · intro n hn notLive
    by_cases isNewChild : x.toNat = n ∨ y.toNat = n
    · exact m.hasOneParent_child ordered leavesBelow h isNewChild
    · refine m.hasOneParent_kept isNewChild (h.others n ?_ fun i hi same => ?_)
      · rcases m.older_or_new hn with older | rfl
        · exact older
        · exact absurd (toNat_newNode hcap) (notLive _ (m.mem_live.2 (.inr rfl)))
      · rcases m.live_cases hi with hi | rfl | rfl
        · exact notLive i (m.mem_live.2 (.inl hi)) same
        · exact isNewChild (.inl same)
        · exact isNewChild (.inr same)

end

theorem parents_btInit {a : List (Byte × Word)} (hK : a.length ≤ 256) (t0 : TreeBuilder) :
    Parents a.length (btInit a t0) := by
  have nnodes := nnodes_btInit hK t0
  refine ⟨fun _ _ m h h' => by omega, fun n hn notLive => absurd (Nat.mod_eq_of_lt (by omega)) (notLive (BitVec.ofNat 9 n) ?_)⟩
  rw [liveNodes_btInit hK]
  exact List.mem_map.2 ⟨n, List.mem_range.2 (by omega), rfl⟩

/-! ### The order of creation -/

/-- Internal nodes do not fall in frequency, and every live node is at least as frequent as the last merge's left child. -/
structure Rising (k : Nat) (t : TreeBuilder) : Prop where
  sorted : ∀ m, k ≤ m → m + 1 < t.nnodes.toNat → (nodeAt t m).freq.toNat ≤ (nodeAt t (m + 1)).freq.toNat
  live : ∀ m, k ≤ m → m + 1 = t.nnodes.toNat → ∀ z ∈ liveNodes t, nodeKey t (nodeAt t m).left ≤ nodeKey t z

theorem Rising.merge {a : List (Byte × Word)} (hK : a.length ≤ 256) {t u : TreeBuilder} {rest : List (BitVec 9)}
    {x y : BitVec 9} (h : Rising a.length t) (ordered : OrderedLive t) (sum : LiveSum a t) (nodes : NodesOf a t)
    (hcap : t.nnodes.toNat < 511) (m : Merges t u rest x y) : Rising a.length u := by
  have keyNew := m.key_new hK sum
  constructor
  · intro p hp hp'
    rw [m.nnodes] at hp'
    rw [m.kept p (by omega)]
    rcases Nat.lt_or_eq_of_le (Nat.le_of_lt_succ hp') with older | last
    · rw [m.kept (p + 1) (by omega)]
      exact h.sorted p hp older
    · have freq := (nodes.internals p hp (by omega)).freq
      have rightLe := (nodes.internals p hp (by omega)).right_le
      have xFrequent := h.live p hp last x m.left_live
      have yFrequent := h.live p hp last y m.right_live
      rw [last, keyNew, freq]
      simp only [nodeKey] at *
      omega
  · intro p hp last z hz
    rw [m.nnodes] at last
    obtain rfl : p = t.nnodes.toNat := by omega
    rw [m.left, m.key_kept (ordered.below x m.left_live)]
    rcases m.mem_live.1 hz with hz | rfl
    · rw [m.key_kept (ordered.below z (m.rest_live hz))]
      obtain ⟨-, -, before⟩ := List.pairwise_append.1 (ordered.sorted m)
      exact (before z hz x (by simp)).1
    · rw [nodeKey, nodeKey, toNat_newNode hcap, keyNew]
      exact Nat.le_add_right _ _

section
variable {a : List (Byte × Word)} {t0 : TreeBuilder} (hK : a.length ≤ 256)
include hK

theorem afterMerges_parents {n : Nat} (hn : n + 1 ≤ a.length) : Parents a.length (afterMerges a t0 n) :=
  afterMerges_induction hK (parents_btInit hK t0) (fun hn m h => h.merge (afterMerges_orderedLive hK (by omega))
    (afterMerges_nodesOf hK (by omega)) (afterMerges_below_cap hK hn) (afterMerges_leavesBelow hK (by omega)) m) hn

theorem afterMerges_rising {n : Nat} (hn : n + 1 ≤ a.length) : Rising a.length (afterMerges a t0 n) := by
  have nnodes := nnodes_btInit hK t0
  exact afterMerges_induction hK ⟨fun _ _ _ => by omega, fun _ _ _ => by omega⟩
    (fun hn m h => h.merge hK (afterMerges_orderedLive hK (by omega)) (afterMerges_liveSum hK (by omega))
      (afterMerges_nodesOf hK (by omega)) (afterMerges_below_cap hK hn) m) hn

end

/-- Settles O47: at the last merge the root alone is live. -/
theorem everyNodeHasOneParent : Obligations.EveryNodeHasOneParent := by
  intro a t0 h1 hK t
  have root : t.root.toNat = _ := buildTree_root h1 hK
  have nodes : nodeAt t = _ := nodeAt_buildTree h1 hK
  have nnodes : (afterMerges a t0 (a.length - 1)).nnodes.toNat = 2 * a.length - 1 :=
    (afterMerges_counts hK (by omega)).2.trans (by omega)
  rw [nodes]
  constructor
  · intro n hn
    have notLive : ∀ i ∈ liveNodes (afterMerges a t0 (a.length - 1)), i.toNat ≠ n := by
      intro i hi
      rw [liveNodes_last h1 hK, List.mem_singleton] at hi
      rw [hi, root]
      omega
    have oneParent := (afterMerges_parents hK (t0 := t0) (n := a.length - 1) (by omega)).others n (by omega) notLive
    rwa [HasOneParent, nnodes] at oneParent
  · intro m h h'
    exact (afterMerges_rising hK (by omega)).sorted m h (nnodes ▸ h')

end Sys2Proof.Machine
end

section
/-! PROOFS. BUILD as a function of the Alphabet alone (42_codetree.md, R120, R131): the tree memory shows a code tree, and which one does
not depend on what the memory held before. -/

namespace Sys2Proof.Machine

/-- A code tree: what the tree memory holds from a node downwards. -/
inductive CodeTree where
  | leaf (e : Byte × Word)
  | node (l r : CodeTree)

namespace CodeTree

/-- The sum of the leaves' frequencies. -/
def weight : CodeTree → Nat
  | leaf e => e.2.toNat
  | node l r => l.weight + r.weight

/-- The leaves, left before right. -/
def entries : CodeTree → List (Byte × Word)
  | leaf e => [e]
  | node l r => l.entries ++ r.entries

end CodeTree

/-- Node `n` of the tree memory is the root of the code tree. -/
def Shows (t : TreeBuilder) : CodeTree → BitVec 9 → Prop
  | .leaf e, n => (nodeAt t n.toNat).tag = .leaf ∧ (nodeAt t n.toNat).byte = e.1 ∧
      (nodeAt t n.toNat).freq.toNat = e.2.toNat
  | .node l r, n => (nodeAt t n.toNat).tag = .internal ∧ (nodeAt t n.toNat).freq.toNat = l.weight + r.weight ∧
      Shows t l (nodeAt t n.toNat).left ∧ Shows t r (nodeAt t n.toNat).right

theorem Shows.key {t : TreeBuilder} {T : CodeTree} {n : BitVec 9} (h : Shows t T n) : nodeKey t n = T.weight := by
  cases T with
  | leaf e => exact h.2.2
  | node l r => exact h.2.1

theorem Shows.congr {t u : TreeBuilder} (same : nodeAt u = nodeAt t) {T : CodeTree} {n : BitVec 9} (h : Shows t T n) :
    Shows u T n := by
  induction T generalizing n with
  | leaf e => rwa [Shows, same]
  | node l r ihl ihr =>
    obtain ⟨tag, freq, left, right⟩ := h
    rw [Shows, same]
    exact ⟨tag, freq, ihl left, ihr right⟩

/-! ### The merges of R122 on code trees -/

/-- The last two trees of the sorted forest become the left and right child of a new one. -/
def mergeTrees (F : List CodeTree) : List CodeTree :=
  match (stableSortDesc CodeTree.weight F).reverse with
  | y :: x :: rest => (.node x y :: rest).reverse
  | few => few.reverse

/-- The forest after `n` merges. -/
def forest (a : List (Byte × Word)) (n : Nat) : List CodeTree := mergeTrees^[n] (a.map .leaf)

theorem forest_succ (a : List (Byte × Word)) (n : Nat) : forest a (n + 1) = mergeTrees (forest a n) :=
  Function.iterate_succ_apply' mergeTrees n (a.map .leaf)

/-- The code tree of an Alphabet. -/
def codeTreeOf (a : List (Byte × Word)) : CodeTree := (forest a (a.length - 1)).headD (.leaf (0, 0))

theorem mergeTrees_eq {F rest : List CodeTree} {x y : CodeTree}
    (h : (stableSortDesc CodeTree.weight F).reverse = y :: x :: rest) : mergeTrees F = rest.reverse ++ [.node x y] := by
  rw [mergeTrees, h]
  exact List.reverse_cons

theorem entries_mergeTrees (F : List CodeTree) :
    ((mergeTrees F).flatMap CodeTree.entries).Perm (F.flatMap CodeTree.entries) := by
  have sorted : (stableSortDesc CodeTree.weight F).reverse.Perm F :=
    (List.reverse_perm _).trans (stableSortDesc_perm _ F)
  refine List.Perm.trans ?_ (sorted.flatMap_right _)
  unfold mergeTrees
  split
  · next y x rest h =>
    rw [h]
    refine ((List.reverse_perm _).flatMap_right _).trans ?_
    simp only [List.flatMap_cons, CodeTree.entries, ← List.append_assoc]
    exact List.perm_append_comm.append_right _
  · exact (List.reverse_perm _).flatMap_right _

theorem entries_forest (a : List (Byte × Word)) (n : Nat) : ((forest a n).flatMap CodeTree.entries).Perm a := by
  induction n with
  | zero =>
    have leaves : (forest a 0).flatMap CodeTree.entries = a := by
      rw [forest, Function.iterate_zero, id, List.flatMap_map]
      exact List.flatMap_singleton' a
    rw [leaves]
  | succ n ih => exact (forest_succ a n) ▸ (entries_mergeTrees _).trans ih

/-! ### The builder follows the merges on code trees -/

theorem forall₂_orderedInsert {α β : Type} {R : α → β → Prop} {key : α → Nat} {key' : β → Nat}
    (same : ∀ {a b}, R a b → key a = key' b) {a : α} {b : β} (hab : R a b) {l : List α} {m : List β}
    (h : List.Forall₂ R l m) :
    List.Forall₂ R (l.orderedInsert (fun c d => key d ≤ key c) a) (m.orderedInsert (fun c d => key' d ≤ key' c) b) := by
  induction h with
  | nil => exact .cons hab .nil
  | cons hcd rest ih =>
    rw [List.orderedInsert_cons, List.orderedInsert_cons, same hab, same hcd]
    split
    · exact .cons hab (.cons hcd rest)
    · exact .cons hcd ih

/-- Lists related element by element, with equal keys, are sorted alike. -/
theorem forall₂_stableSortDesc {α β : Type} {R : α → β → Prop} {key : α → Nat} {key' : β → Nat}
    (same : ∀ {a b}, R a b → key a = key' b) {l : List α} {m : List β} (h : List.Forall₂ R l m) :
    List.Forall₂ R (stableSortDesc key l) (stableSortDesc key' m) := by
  induction h with
  | nil => exact .nil
  | cons hab _ ih => exact forall₂_orderedInsert (R := R) same hab ih

/-- Node `i` exists and shows the code tree. -/
def ShowsTree (t : TreeBuilder) (i : BitVec 9) (T : CodeTree) : Prop := Shows t T i ∧ i.toNat < t.nnodes.toNat

/-- The live nodes show the trees of the forest, in order. -/
def ShowsForest (t : TreeBuilder) (F : List CodeTree) : Prop := List.Forall₂ (ShowsTree t) (liveNodes t) F

section
variable {a : List (Byte × Word)} {t u : TreeBuilder} {rest : List (BitVec 9)} {x y : BitVec 9}

/-- A merge leaves what an older node shows. -/
theorem Shows.kept (nodes : NodesOf a t) (m : Merges t u rest x y) {T : CodeTree} {n : BitVec 9} (h : Shows t T n)
    (hn : n.toNat < t.nnodes.toNat) : Shows u T n := by
  induction T generalizing n with
  | leaf e => rwa [Shows, m.kept n.toNat (Nat.ne_of_lt hn)]
  | node l r ihl ihr =>
    obtain ⟨tag, freq, left, right⟩ := h
    have isInternal : IsInternal t n.toNat := by
      refine nodes.internals _ (Nat.le_of_not_lt fun isLeaf => ?_) hn
      have := (nodes.leaves _ isLeaf).tag
      rw [tag] at this
      cases this
    rw [Shows, m.kept n.toNat (Nat.ne_of_lt hn)]
    exact ⟨tag, freq, ihl left (isInternal.left_lt.trans hn), ihr right (isInternal.right_lt.trans hn)⟩

theorem ShowsTree.kept (nodes : NodesOf a t) (m : Merges t u rest x y) {i : BitVec 9} {T : CodeTree}
    (h : ShowsTree t i T) : ShowsTree u i T := by
  obtain ⟨shown, below⟩ := h
  exact ⟨shown.kept nodes m below, by rw [m.nnodes]; exact Nat.lt_succ_of_lt below⟩

theorem ShowsForest.merge (hK : a.length ≤ 256) {F : List CodeTree} (h : ShowsForest t F) (sum : LiveSum a t)
    (nodes : NodesOf a t) (hcap : t.nnodes.toNat < 511) (m : Merges t u rest x y) : ShowsForest u (mergeTrees F) := by
  have sorted : List.Forall₂ (ShowsTree t) (btSorted t).reverse (stableSortDesc CodeTree.weight F).reverse :=
    List.forall₂_reverse_iff.2 (forall₂_stableSortDesc (fun shown => shown.1.key) h)
  have reversed : (btSorted t).reverse = y :: x :: rest.reverse := by rw [m.sorted]; simp
  rw [reversed] at sorted
  obtain ⟨Y, _, showsY, tail, sortedF⟩ := List.forall₂_cons_left_iff.1 sorted
  obtain ⟨X, R, showsX, showsR, rfl⟩ := List.forall₂_cons_left_iff.1 tail
  have restShown : List.Forall₂ (ShowsTree u) rest R.reverse := by
    refine List.forall₂_reverse_iff.1 ?_
    rw [List.reverse_reverse]
    exact showsR.imp fun _ _ shown => shown.kept nodes m
  have newShown : ShowsTree u (BitVec.ofNat 9 t.nnodes.toNat) (.node X Y) := by
    rw [ShowsTree, Shows, toNat_newNode hcap, m.tag, m.key_new hK sum, showsX.1.key, showsY.1.key, m.left, m.right, m.nnodes]
    exact ⟨⟨rfl, rfl, (showsX.kept nodes m).1, (showsY.kept nodes m).1⟩, Nat.lt_succ_self _⟩
  rw [ShowsForest, mergeTrees_eq sortedF, m.live]
  exact List.rel_append restShown (.cons newShown .nil)

end

section
variable {a : List (Byte × Word)} {t0 : TreeBuilder} (hK : a.length ≤ 256)
include hK

theorem showsForest_btInit : ShowsForest (btInit a t0) (forest a 0) := by
  rw [ShowsForest, liveNodes_btInit hK, forest, Function.iterate_zero, id, List.forall₂_map_left_iff,
    List.forall₂_map_right_iff]
  refine List.forall₂_of_length_eq_of_get (by simp) fun j hj hj' => ?_
  have index : j % 512 = j := Nat.mod_eq_of_lt (by omega)
  obtain ⟨tag, byte, freq⟩ := (nodesOf_btInit hK t0).leaves j hj'
  have below : j < (btInit a t0).nnodes.toNat := by rwa [nnodes_btInit hK]
  simpa [ShowsTree, Shows, index] using ⟨⟨tag, byte, freq⟩, below⟩

theorem afterMerges_showsForest {n : Nat} (hn : n + 1 ≤ a.length) : ShowsForest (afterMerges a t0 n) (forest a n) := by
  induction n with
  | zero => exact showsForest_btInit hK
  | succ n ih =>
    obtain ⟨_, _, _, m⟩ := afterMerges_merges hK (t0 := t0) hn
    rw [forest_succ]
    exact (ih (by omega)).merge hK (afterMerges_liveSum hK (by omega)) (afterMerges_nodesOf hK (by omega)) (afterMerges_below_cap hK hn) m

end

section
variable {a : List (Byte × Word)} {t0 : TreeBuilder} (h1 : 1 ≤ a.length) (hK : a.length ≤ 256)
include h1 hK

theorem forest_last : forest a (a.length - 1) = [codeTreeOf a] := by
  have shown := afterMerges_showsForest hK (t0 := State.reset.tree) (n := a.length - 1) (by omega)
  rw [ShowsForest, liveNodes_last h1 hK] at shown
  obtain ⟨T, _, -, none, one⟩ := List.forall₂_cons_left_iff.1 shown
  rw [List.forall₂_nil_left_iff.1 none] at one
  rw [codeTreeOf, one]
  rfl

/-- What BUILD leaves at the root is the code tree of the Alphabet, whatever the tree memory held. -/
theorem buildTree_shows : Shows (buildTree a t0) (codeTreeOf a) (buildTree a t0).root := by
  have shown := afterMerges_showsForest hK (t0 := t0) (n := a.length - 1) (by omega)
  rw [ShowsForest, liveNodes_last h1 hK, forest_last h1 hK] at shown
  obtain ⟨⟨atRoot, -⟩, -⟩ := List.forall₂_cons.1 shown
  exact atRoot.congr (nodeAt_buildTree h1 hK)

theorem entries_codeTreeOf : (codeTreeOf a).entries.Perm a := by
  have perm := entries_forest a (a.length - 1)
  rwa [forest_last h1 hK, List.flatMap_singleton] at perm

end

end Sys2Proof.Machine
end

section
/-! PROOFS. Codes of a code tree (43_codemap.md, R141, R146): the traversal, lengths, freedom from one code beginning another, and the
Kraft sum, by recursion on the tree. -/

namespace Sys2Proof.Machine

/-- A byte with a path, the path entered behind `p`. -/
def behind (p : Bits) (w : Byte × Bits) : Byte × Bits := (w.1, p ++ w.2)

@[simp] theorem behind_fst (p : Bits) (w : Byte × Bits) : (behind p w).1 = w.1 := rfl
@[simp] theorem behind_snd (p : Bits) (w : Byte × Bits) : (behind p w).2 = p ++ w.2 := rfl

theorem map_behind_behind (p q : Bits) (ws : List (Byte × Bits)) :
    (ws.map (behind q)).map (behind p) = ws.map (behind (p ++ q)) := by
  simp [behind, Function.comp_def]

namespace CodeTree

/-- Each leaf's byte with its path from the root, left before right (R141). -/
def paths : CodeTree → List (Byte × Bits)
  | leaf e => [(e.1, [])]
  | node l r => l.paths.map (behind [false]) ++ r.paths.map (behind [true])

/-- The length of the longest path. -/
def height : CodeTree → Nat
  | leaf _ => 0
  | node l r => max l.height r.height + 1

/-- The number of nodes. -/
def size : CodeTree → Nat
  | leaf _ => 1
  | node l r => l.size + r.size + 1

theorem mem_paths_node {l r : CodeTree} {b : Byte} {u : Bits} :
    (b, u) ∈ (node l r).paths ↔ ∃ v, ((b, v) ∈ l.paths ∧ u = false :: v) ∨ ((b, v) ∈ r.paths ∧ u = true :: v) := by
  simp only [paths, List.mem_append, List.mem_map, Prod.exists, behind, Prod.mk.injEq, List.singleton_append]
  constructor
  · rintro (⟨_, v, h, rfl, rfl⟩ | ⟨_, v, h, rfl, rfl⟩)
    · exact ⟨v, .inl ⟨h, rfl⟩⟩
    · exact ⟨v, .inr ⟨h, rfl⟩⟩
  · rintro ⟨v, ⟨h, rfl⟩ | ⟨h, rfl⟩⟩
    · exact .inl ⟨b, v, h, rfl, rfl⟩
    · exact .inr ⟨b, v, h, rfl, rfl⟩

theorem bytes_paths (T : CodeTree) : T.paths.map Prod.fst = T.entries.map Prod.fst := by
  induction T with
  | leaf e => rfl
  | node l r ihl ihr => simp [paths, entries, ← ihl, ← ihr, Function.comp_def]

theorem length_le_height {T : CodeTree} {b : Byte} {u : Bits} (h : (b, u) ∈ T.paths) : u.length ≤ T.height := by
  induction T generalizing u with
  | leaf e =>
    obtain ⟨-, rfl⟩ := Prod.mk.inj (List.mem_singleton.1 h)
    exact Nat.zero_le _
  | node l r ihl ihr =>
    rw [height]
    obtain ⟨v, ⟨hv, rfl⟩ | ⟨hv, rfl⟩⟩ := mem_paths_node.1 h
    · exact Nat.succ_le_succ ((ihl hv).trans (le_max_left _ _))
    · exact Nat.succ_le_succ ((ihr hv).trans (le_max_right _ _))

theorem height_lt_entries (T : CodeTree) : T.height < T.entries.length := by
  induction T with
  | leaf e => exact Nat.zero_lt_one
  | node l r ihl ihr =>
    rw [height, entries, List.length_append]
    omega

theorem size_eq (T : CodeTree) : T.size + 1 = 2 * T.entries.length := by
  induction T with
  | leaf e => rfl
  | node l r ihl ihr =>
    rw [size, entries, List.length_append]
    omega

/-- A code that begins another is the other. -/
theorem eq_of_begins {T : CodeTree} {b c : Byte} {u v : Bits} (hu : (b, u) ∈ T.paths) (hv : (c, v) ∈ T.paths)
    (begins : u <+: v) : b = c ∧ u = v := by
  induction T generalizing u v with
  | leaf e =>
    obtain ⟨rfl, rfl⟩ := Prod.mk.inj (List.mem_singleton.1 hu)
    obtain ⟨rfl, rfl⟩ := Prod.mk.inj (List.mem_singleton.1 hv)
    exact ⟨rfl, rfl⟩
  | node l r ihl ihr =>
    obtain ⟨u', ⟨hu', rfl⟩ | ⟨hu', rfl⟩⟩ := mem_paths_node.1 hu <;>
      obtain ⟨v', ⟨hv', rfl⟩ | ⟨hv', rfl⟩⟩ := mem_paths_node.1 hv <;>
      obtain ⟨same, tail⟩ := List.cons_prefix_cons.1 begins
    · exact (ihl hu' hv' tail).imp id (congrArg _)
    · cases same
    · cases same
    · exact (ihr hu' hv' tail).imp id (congrArg _)

/-- The Kraft sum, scaled by `2 ^ h`. -/
theorem kraft {T : CodeTree} {h : Nat} (hT : T.height ≤ h) : (T.paths.map (fun w => 2 ^ (h - w.2.length))).sum = 2 ^ h := by
  induction T generalizing h with
  | leaf e => simp [paths]
  | node l r ihl ihr =>
    rw [height] at hT
    obtain ⟨k, rfl⟩ : ∃ k, h = k + 1 := ⟨h - 1, by omega⟩
    have left := ihl (h := k) (by omega)
    have right := ihr (h := k) (by omega)
    simp only [paths, List.map_append, List.map_map, List.sum_append, Function.comp_def, behind_snd,
      List.singleton_append, List.length_cons, Nat.add_sub_add_right, left, right]
    omega

end CodeTree

/-- The traversal of R141 lists the paths below the node, behind the path to it. -/
theorem visit_eq {t : TreeBuilder} {T : CodeTree} {n : BitVec 9} (shown : Shows t T n) {fuel : Nat} (hf : T.height < fuel)
    (p : Bits) : visit t fuel n p = T.paths.map (behind p) := by
  induction T generalizing n fuel p with
  | leaf e =>
    obtain ⟨tag, byte, -⟩ := shown
    obtain ⟨k, rfl⟩ : ∃ k, fuel = k + 1 := ⟨fuel - 1, by omega⟩
    simp [visit, tag, byte, CodeTree.paths, behind]
  | node l r ihl ihr =>
    obtain ⟨tag, -, left, right⟩ := shown
    rw [CodeTree.height] at hf
    obtain ⟨k, rfl⟩ : ∃ k, fuel = k + 1 := ⟨fuel - 1, by omega⟩
    have leftPaths := ihl left (fuel := k) (by omega) (p ++ [false])
    have rightPaths := ihr right (fuel := k) (by omega) (p ++ [true])
    simp only [visit, tag, leftPaths, rightPaths, CodeTree.paths, List.map_append, map_behind_behind]

end Sys2Proof.Machine
end

section
/-! PROOFS. The explicit-stack generator (43_codemap.md, R142): from a stack entry it works the whole subtree off, writes its codes, and
leaves the stack below and the path to the entry as they were. -/

namespace Sys2Proof.Machine

/-- The code-map entry of a code. -/
def entryOf (code : Bits) : CodeEntry := { valid := true, len := BitVec.ofNat 8 code.length, code := code }

/-- Code-map writes in order, a later one staying (R145). -/
def recordAll (codes : Byte → CodeEntry) (writes : List (Byte × Bits)) : Byte → CodeEntry :=
  writes.foldl (fun f w => Function.update f w.1 (entryOf w.2)) codes

theorem recordAll_append (codes : Byte → CodeEntry) (ws vs : List (Byte × Bits)) :
    recordAll codes (ws ++ vs) = recordAll (recordAll codes ws) vs := List.foldl_append

theorem recordAll_apply (codes : Byte → CodeEntry) (ws : List (Byte × Bits)) (b : Byte) :
    recordAll codes ws b = ((ws.reverse.find? (fun w => w.1 = b)).map (fun w => entryOf w.2)).getD (codes b) := by
  induction ws using List.reverseRecOn with
  | nil => rfl
  | append_singleton ws w ih =>
    rw [recordAll_append, List.reverse_concat, List.find?_cons]
    by_cases h : w.1 = b
    · subst h
      simp [recordAll]
    · simp only [h, decide_false]
      rw [← ih]
      exact Function.update_of_ne (Ne.symm h) _ _

/-- The top of the stack, at cell `k`, is the entry that pushes at the end of the path `p` make, and PATH holds `p` but for its
last bit. -/
structure OnTop (g : CodeMapGen) (k : Nat) (n : BitVec 9) (p : Bits) : Prop where
  sp : g.sp.toNat = k + 1
  top : Table.get StkEntry.blank g.stk k = { node := n, depth := BitVec.ofNat 8 p.length, bit := p.getLastD false }
  path : Table.first false (p.length - 1) g.path = p.dropLast

/-- The generator after popping the entry at cell `k`, the path to it set whole. -/
structure Popped (g g1 : CodeMapGen) (k : Nat) (p : Bits) : Prop where
  sp : g1.sp.toNat = k
  stk : g1.stk = g.stk
  path : Table.first false p.length g1.path = p
  cmap : codeOf g1 = codeOf g

/-- The stack below cell `k` and the path `p` are kept, and the codes are written. -/
structure WorkedOff (g g' : CodeMapGen) (k : Nat) (p : Bits) (writes : List (Byte × Bits)) : Prop where
  sp : g'.sp.toNat = k
  stk : ∀ i, i < k → Table.get StkEntry.blank g'.stk i = Table.get StkEntry.blank g.stk i
  path : Table.first false (p.length - 1) g'.path = p.dropLast
  codes : codeOf g' = recordAll (codeOf g) writes

theorem Table.first_of_le {α : Type} {blank : α} {t : List α} {m n : Nat} {p : List α} (h : Table.first blank n t = p)
    (hm : m ≤ n) : Table.first blank m t = p.take m := by
  subst h
  apply List.ext_getElem
  · simpa using hm
  · intro i h1 h2
    rw [List.getElem_take, Table.getElem_first, Table.getElem_first]

theorem dropLast_concat_getLastD {p : Bits} (h : 0 < p.length) : p.dropLast ++ [p.getLastD false] = p := by
  have ne : p ≠ [] := List.ne_nil_of_length_pos h
  rw [List.getLastD_eq_getLast?, List.getLast?_eq_some_getLast ne, Option.getD_some, List.dropLast_concat_getLast]

/-- The entry popped next, and the generator without it (the first lines of a round of R142). -/
def popEntry (g : CodeMapGen) : StkEntry × CodeMapGen :=
  let e := Table.get StkEntry.blank g.stk (g.sp - 1).toNat
  (e, { g with
    sp := g.sp - 1
    path := if 0 < e.depth.toNat then Table.put false g.path (e.depth.toNat - 1) e.bit else g.path })

theorem OnTop.pop {g : CodeMapGen} {k : Nat} {n : BitVec 9} {p : Bits} (h : OnTop g k n p) (hp : p.length ≤ 255) :
    (popEntry g).1 = { node := n, depth := BitVec.ofNat 8 p.length, bit := p.getLastD false } ∧
      Popped g (popEntry g).2 k p := by
  obtain ⟨sp, top, path⟩ := h
  have spBefore : (g.sp - 1).toNat = k := by
    rw [BitVec.toNat_sub_of_le (BitVec.le_def.2 (by simpa using by omega)), sp]
    rfl
  have entry : (popEntry g).1 = _ := (congrArg _ spBefore).trans top
  have depth : (popEntry g).1.depth.toNat = p.length := by rw [entry]; exact Nat.mod_eq_of_lt (by omega)
  have bit : (popEntry g).1.bit = p.getLastD false := by rw [entry]
  have pathSet : (popEntry g).2.path =
      if 0 < p.length then Table.put false g.path (p.length - 1) (p.getLastD false) else g.path := by
    rw [← depth, ← bit]
    rfl
  refine ⟨entry, spBefore, rfl, ?_, rfl⟩
  rw [pathSet]
  split
  · next pos =>
    have before : Table.first false (p.length - 1) (Table.put false g.path (p.length - 1) (p.getLastD false)) = p.dropLast := by
      rw [← path]
      exact Table.first_congr false fun i hi => Table.get_put_other false _ _ (by omega)
    have whole := Table.first_succ false (p.length - 1) (Table.put false g.path (p.length - 1) (p.getLastD false))
    rw [Nat.sub_add_cancel pos, before, Table.get_put_same, dropLast_concat_getLastD pos] at whole
    exact whole
  · next empty => rw [List.length_eq_zero_iff.1 (by omega : p.length = 0)]; rfl

theorem genLoop_succ {t : TreeBuilder} {g g1 : CodeMapGen} {k : Nat} (sp : g.sp.toNat = k + 1) (round : genStep t g = .ok g1)
    (m : Nat) : genLoop t (m + 1) g = genLoop t m g1 := by
  have notEmpty : g.sp ≠ 0 := fun h => by simp [h] at sp
  rw [genLoop, if_neg notEmpty, round, Run.bind_ok]

theorem genStep_leaf {t : TreeBuilder} {g : CodeMapGen} (tag : (nodeAt t (popEntry g).1.node.toNat).tag = .leaf) :
    genStep t g = .ok (putCode (popEntry g).2 (nodeAt t (popEntry g).1.node.toNat).byte
      { valid := true, len := (popEntry g).1.depth
        code := Table.first false (popEntry g).1.depth.toNat (popEntry g).2.path }) := by
  rcases genStep_cases t g with ⟨_, h⟩ | ⟨other, _⟩ | ⟨other | other, _⟩
  · exact h
  all_goals exact absurd (other.symm.trans tag) (by decide)

theorem genStep_internal {t : TreeBuilder} {g : CodeMapGen}
    (tag : (nodeAt t (popEntry g).1.node.toNat).tag = .internal) :
    genStep t g = .ok (stkPush (stkPush (popEntry g).2
      { node := (nodeAt t (popEntry g).1.node.toNat).right, depth := (popEntry g).1.depth + 1, bit := true })
      { node := (nodeAt t (popEntry g).1.node.toNat).left, depth := (popEntry g).1.depth + 1, bit := false }) := by
  rcases genStep_cases t g with ⟨other, _⟩ | ⟨_, h⟩ | ⟨other | other, _⟩
  · exact absurd (other.symm.trans tag) (by decide)
  · exact h
  all_goals exact absurd (other.symm.trans tag) (by decide)

theorem sp_stkPush {g : CodeMapGen} {k : Nat} (e : StkEntry) (sp : g.sp.toNat = k) (hk : k < 511) :
    (stkPush g e).sp.toNat = k + 1 := by
  rw [← sp]
  exact BitVec.toNat_add_of_lt (y := 1#9) (by simpa using by omega)

theorem get_stkPush (g : CodeMapGen) (e : StkEntry) (i : Nat) :
    Table.get StkEntry.blank (stkPush g e).stk i = if i = g.sp.toNat then e else Table.get StkEntry.blank g.stk i :=
  Table.get_put _ _ _ _ _

@[simp] theorem path_stkPush (g : CodeMapGen) (e : StkEntry) : (stkPush g e).path = g.path := rfl

theorem codeOf_stkPush (g : CodeMapGen) (e : StkEntry) : codeOf (stkPush g e) = codeOf g := rfl

theorem codeOf_putCode_eq (g : CodeMapGen) (b : Byte) (e : CodeEntry) :
    codeOf (putCode g b e) = Function.update (codeOf g) b e := by
  funext c
  rw [codeOf_putCode, Function.update_apply]

theorem depth_succ (p : Bits) (b : Bool) : BitVec.ofNat 8 p.length + 1 = BitVec.ofNat 8 (p ++ [b]).length := by
  rw [List.length_append, List.length_singleton, BitVec.ofNat_add]
  rfl

/-- The generator works a subtree off in as many rounds as it has nodes. -/
theorem genLoop_tree {t : TreeBuilder} {T : CodeTree} {n : BitVec 9} (shown : Shows t T n) {g : CodeMapGen} {k : Nat}
    {p : Bits} (onTop : OnTop g k n p) (hk : k ≤ p.length) (hp : p.length + T.height ≤ 255) :
    ∃ g', (∀ m, genLoop t (m + T.size) g = genLoop t m g') ∧
      WorkedOff g g' k p (T.paths.map (behind p)) := by
  induction T generalizing n g k p with
  | leaf e =>
    obtain ⟨tag, byte, -⟩ := shown
    obtain ⟨entry, popped⟩ := onTop.pop (by omega)
    have depth : (BitVec.ofNat 8 p.length).toNat = p.length := Nat.mod_eq_of_lt (by omega)
    have round := genStep_leaf (t := t) (g := g) (by rwa [entry])
    rw [entry, byte, depth, popped.path] at round
    refine ⟨_, fun m => genLoop_succ onTop.sp round m, popped.sp, fun i _ => ?_, ?_, ?_⟩
    · rw [← popped.stk]
      rfl
    · exact (Table.first_of_le popped.path (Nat.sub_le _ _)).trans (List.dropLast_eq_take).symm
    · rw [codeOf_putCode_eq, popped.cmap]
      simp [CodeTree.paths, behind, recordAll, entryOf]
  | node l r ihl ihr =>
    obtain ⟨tag, -, left, right⟩ := shown
    rw [CodeTree.height] at hp
    obtain ⟨entry, popped⟩ := onTop.pop (by omega)
    have round := genStep_internal (t := t) (g := g) (by rwa [entry])
    rw [entry] at round
    generalize (popEntry g).2 = g1 at popped round
    have sp1 := sp_stkPush { node := (nodeAt t n.toNat).right, depth := BitVec.ofNat 8 p.length + 1, bit := true } popped.sp
      (by omega)
    have sp2 := sp_stkPush { node := (nodeAt t n.toNat).left, depth := BitVec.ofNat 8 p.length + 1, bit := false } sp1
      (by omega)
    have leftOnTop := OnTop.mk (p := p ++ [false]) (n := (nodeAt t n.toNat).left) sp2
      (by rw [get_stkPush, sp1, if_pos rfl, depth_succ p false, List.getLastD_concat]) (by simpa using popped.path)
    obtain ⟨g2, loopLeft, leftDone⟩ := ihl left leftOnTop (by simpa using by omega) (by simpa using by omega)
    have rightOnTop : OnTop g2 k (nodeAt t n.toNat).right (p ++ [true]) := by
      refine ⟨leftDone.sp, ?_, by simpa using leftDone.path⟩
      rw [leftDone.stk k (Nat.lt_succ_self k), get_stkPush, sp1, if_neg (Nat.ne_of_lt (Nat.lt_succ_self k)), get_stkPush,
        popped.sp, if_pos rfl, depth_succ p true, List.getLastD_concat]
    obtain ⟨g3, loopRight, rightDone⟩ := ihr right rightOnTop (by simpa using by omega) (by simpa using by omega)
    refine ⟨g3, fun m => ?_, rightDone.sp, fun i hi => ?_, ?_, ?_⟩
    · rw [CodeTree.size, ← Nat.add_assoc, genLoop_succ onTop.sp round, Nat.add_comm l.size, ← Nat.add_assoc, loopLeft, loopRight]
    · rw [rightDone.stk i hi, leftDone.stk i (by omega), get_stkPush, sp1, if_neg (by omega), get_stkPush, popped.sp,
        if_neg (by omega), popped.stk]
    · have whole : Table.first false p.length g3.path = p := by simpa using rightDone.path
      exact (Table.first_of_le whole (Nat.sub_le _ _)).trans (List.dropLast_eq_take).symm
    · rw [rightDone.codes, leftDone.codes, codeOf_stkPush, codeOf_stkPush, popped.cmap, ← recordAll_append]
      simp only [CodeTree.paths, List.map_append, map_behind_behind]

end Sys2Proof.Machine
end

section
/-! PROOFS. The code map of an Alphabet (43_codemap.md, R140 to R146): which codes GENMAP writes, as a function of the Alphabet alone. -/

namespace Sys2Proof.Machine

/-! ### GENMAP -/

theorem genCodes_of_two {a : List (Byte × Word)} (h : 2 ≤ a.length) (t : TreeBuilder) (g : CodeMapGen) :
    genCodes a t g =
      genLoop t 511 (stkPush { invalidateAll g with sp := 0 } { node := t.root, depth := 0, bit := false }) := by
  match a, h with
  | _ :: _ :: _, _ => rfl

section
variable {a : List (Byte × Word)} (h2 : 2 ≤ a.length) (hK : a.length ≤ 256)
include h2 hK

theorem length_entries_codeTreeOf : (codeTreeOf a).entries.length = a.length :=
  (entries_codeTreeOf (by omega) hK).length_eq

theorem height_codeTreeOf : (codeTreeOf a).height ≤ a.length - 1 := by
  have below := (codeTreeOf a).height_lt_entries
  rw [length_entries_codeTreeOf h2 hK] at below
  omega

/-- GENMAP of two or more entries writes the paths of the code tree. -/
theorem genCodes_tree (t0 : TreeBuilder) (g0 : CodeMapGen) :
    ∃ g, genCodes a (buildTree a t0) g0 = .ok g ∧
      codeOf g = recordAll (codeOf (invalidateAll g0)) (codeTreeOf a).paths := by
  have height := height_codeTreeOf h2 hK
  have size := (codeTreeOf a).size_eq
  rw [length_entries_codeTreeOf h2 hK] at size
  have onTop : OnTop (stkPush { invalidateAll g0 with sp := 0 }
      { node := (buildTree a t0).root, depth := 0, bit := false }) 0 (buildTree a t0).root [] :=
    ⟨rfl, by rw [get_stkPush]; rfl, rfl⟩
  obtain ⟨g, loop, done⟩ := genLoop_tree (buildTree_shows (by omega) hK) onTop (Nat.zero_le _)
    (by rw [List.length_nil]; omega)
  have empty : g.sp = 0 := BitVec.eq_of_toNat_eq done.sp
  have ends (m : Nat) : genLoop (buildTree a t0) m g = .ok g := by
    cases m <;> rw [genLoop, if_pos empty]
  refine ⟨g, ?_, ?_⟩
  · have rounds := loop (511 - (codeTreeOf a).size)
    rw [Nat.sub_add_cancel (by omega), ends] at rounds
    rw [genCodes_of_two h2, rounds]
  · have unchanged : (codeTreeOf a).paths.map (behind []) = (codeTreeOf a).paths := List.map_id' _
    rw [done.codes, unchanged]
    rfl

end

/-- The codes of an Alphabet, in the order GENMAP writes them (R141, R143). -/
def codesOf : List (Byte × Word) → List (Byte × Bits)
  | [] => []
  | [e] => [(e.1, singleCode)]
  | a => (codeTreeOf a).paths

theorem codesOf_of_two {a : List (Byte × Word)} (h : 2 ≤ a.length) : codesOf a = (codeTreeOf a).paths := by
  match a, h with
  | _ :: _ :: _, _ => rfl

/-- GENMAP never fails, and writes the codes of the Alphabet, whatever the hidden state held. -/
theorem genCodes_codesOf {a : List (Byte × Word)} (hK : a.length ≤ 256) (t0 : TreeBuilder) (g0 : CodeMapGen) :
    ∃ g, genCodes a (buildTree a t0) g0 = .ok g ∧ codeOf g = recordAll (codeOf (invalidateAll g0)) (codesOf a) := by
  match a, hK with
  | [], _ => exact ⟨_, rfl, rfl⟩
  | [e], _ => exact ⟨_, rfl, codeOf_putCode_eq _ _ _⟩
  | _ :: _ :: _, hK => exact genCodes_tree (Nat.le_add_left 2 _) hK t0 g0

/-! ### The codes of an Alphabet -/

theorem bytes_codesOf {a : List (Byte × Word)} (hK : a.length ≤ 256) : ((codesOf a).map Prod.fst).Perm (a.map Prod.fst) := by
  match a, hK with
  | [], _ => exact .refl _
  | [e], _ => exact .refl _
  | _ :: _ :: _, hK =>
    rw [codesOf_of_two (Nat.le_add_left 2 _), CodeTree.bytes_paths]
    exact (entries_codeTreeOf (Nat.le_add_left 1 _) hK).map _

theorem length_pos_of_mem_codesOf {a : List (Byte × Word)} (hK : a.length ≤ 256) {b : Byte} {u : Bits}
    (h : (b, u) ∈ codesOf a) : 1 ≤ u.length := by
  match a, hK with
  | [], _ => cases h
  | [e], _ =>
    obtain ⟨-, rfl⟩ := Prod.mk.inj (List.mem_singleton.1 h)
    exact Nat.le_refl 1
  | e :: f :: es, hK =>
    have two : 2 ≤ (e :: f :: es).length := Nat.le_add_left 2 _
    have entries := length_entries_codeTreeOf two hK
    rw [codesOf_of_two two] at h
    cases hT : codeTreeOf (e :: f :: es) with
    | leaf e =>
      rw [hT, CodeTree.entries, List.length_singleton] at entries
      omega
    | node l r =>
      rw [hT] at h
      obtain ⟨v, ⟨-, rfl⟩ | ⟨-, rfl⟩⟩ := CodeTree.mem_paths_node.1 h <;> exact Nat.le_add_left 1 _

theorem length_le_of_mem_codesOf {a : List (Byte × Word)} (hK : a.length ≤ 256) {b : Byte} {u : Bits}
    (h : (b, u) ∈ codesOf a) : u.length ≤ max 1 (a.length - 1) := by
  match a, hK with
  | [], _ => cases h
  | [e], _ =>
    obtain ⟨-, rfl⟩ := Prod.mk.inj (List.mem_singleton.1 h)
    exact le_max_left _ _
  | e :: f :: es, hK =>
    have two : 2 ≤ (e :: f :: es).length := Nat.le_add_left 2 _
    rw [codesOf_of_two two] at h
    exact (CodeTree.length_le_height h).trans ((height_codeTreeOf two hK).trans (le_max_right _ _))

theorem eq_of_begins_codesOf {a : List (Byte × Word)} {b c : Byte} {u v : Bits} (hu : (b, u) ∈ codesOf a)
    (hv : (c, v) ∈ codesOf a) (begins : u <+: v) : b = c ∧ u = v := by
  match a with
  | [] => cases hu
  | [e] =>
    obtain ⟨rfl, rfl⟩ := Prod.mk.inj (List.mem_singleton.1 hu)
    obtain ⟨rfl, rfl⟩ := Prod.mk.inj (List.mem_singleton.1 hv)
    exact ⟨rfl, rfl⟩
  | _ :: _ :: _ => exact CodeTree.eq_of_begins hu hv begins

/-! ### The code map of distinct symbols -/

theorem recordAll_of_mem {codes : Byte → CodeEntry} {ws : List (Byte × Bits)} (distinct : (ws.map Prod.fst).Nodup)
    {b : Byte} {u : Bits} (h : (b, u) ∈ ws) : recordAll codes ws b = entryOf u := by
  have found : ws.reverse.find? (fun w => w.1 = b) = some (b, u) := by
    cases hf : ws.reverse.find? (fun w => w.1 = b) with
    | none => exact absurd (List.find?_eq_none.1 hf _ (List.mem_reverse.2 h)) (by simp)
    | some w =>
      have sameByte : w.1 = b := by simpa using List.find?_some hf
      rw [List.inj_on_of_nodup_map distinct (List.mem_reverse.1 (List.mem_of_find?_eq_some hf)) h sameByte]
  rw [recordAll_apply, found]
  rfl

theorem recordAll_of_notMem {codes : Byte → CodeEntry} {ws : List (Byte × Bits)} {b : Byte} (h : b ∉ ws.map Prod.fst) :
    recordAll codes ws b = codes b := by
  have none : ws.reverse.find? (fun w => w.1 = b) = none := by
    refine List.find?_eq_none.2 fun w hw same => h ?_
    exact List.mem_map.2 ⟨w, List.mem_reverse.1 hw, by simpa using same⟩
  rw [recordAll_apply, none]
  rfl

/-- The code map holds exactly the codes of the Alphabet. -/
structure HoldsCodes (a : List (Byte × Word)) (g : CodeMapGen) : Prop where
  code : ∀ {b u}, (b, u) ∈ codesOf a → codeOf g b = entryOf u
  invalid : ∀ {b}, b ∉ a.map Prod.fst → (codeOf g b).valid = false

theorem genCodes_holdsCodes {a : List (Byte × Word)} (distinct : (a.map Prod.fst).Nodup) (hK : a.length ≤ 256)
    (t0 : TreeBuilder) (g0 : CodeMapGen) : ∃ g, genCodes a (buildTree a t0) g0 = .ok g ∧ HoldsCodes a g := by
  obtain ⟨g, run, codes⟩ := genCodes_codesOf hK t0 g0
  have bytes := bytes_codesOf hK
  refine ⟨g, run, fun h => ?_, fun h => ?_⟩
  · rw [codes, recordAll_of_mem (bytes.nodup_iff.2 distinct) h]
  · rw [codes, recordAll_of_notMem (mt bytes.mem_iff.1 h)]
    exact codeOf_invalidateAll g0 _

theorem exists_code {a : List (Byte × Word)} (hK : a.length ≤ 256) {b : Byte} (h : b ∈ a.map Prod.fst) :
    ∃ u, (b, u) ∈ codesOf a := by
  obtain ⟨⟨_, u⟩, hw, rfl⟩ := List.mem_map.1 ((bytes_codesOf hK).mem_iff.2 h)
  exact ⟨u, hw⟩

section
variable {a : List (Byte × Word)} {g : CodeMapGen} (codes : HoldsCodes a g) (hK : a.length ≤ 256)
include codes hK

theorem HoldsCodes.valid_iff {b : Byte} : (codeOf g b).valid = true ↔ b ∈ a.map Prod.fst := by
  constructor
  · intro valid
    by_contra absent
    rw [codes.invalid absent] at valid
    cases valid
  · intro present
    obtain ⟨u, hu⟩ := exists_code hK present
    rw [codes.code hu]
    rfl

theorem HoldsCodes.exists_of_valid {b : Byte} (valid : (codeOf g b).valid = true) :
    ∃ u, (b, u) ∈ codesOf a ∧ codeOf g b = entryOf u := by
  obtain ⟨u, hu⟩ := exists_code hK ((codes.valid_iff hK).1 valid)
  exact ⟨u, hu, codes.code hu⟩

end

theorem len_entryOf {u : Bits} (h : u.length ≤ 255) : (entryOf u).len.toNat = u.length := Nat.mod_eq_of_lt (by omega)

/-! ### The obligations -/

/-- Settles O49: the generator's writes are those of the traversal, and the last one to an entry stays. -/
theorem stackGeneratorIsTheTraversal : Obligations.StackGeneratorIsTheTraversal := by
  intro a t0 g0 h2 hK t
  obtain ⟨g, run, codes⟩ := genCodes_tree h2 hK t0 g0
  have height := height_codeTreeOf h2 hK
  have traversal : visit t 256 t.root [] = (codeTreeOf a).paths :=
    (visit_eq (buildTree_shows (by omega) hK) (by omega) []).trans (List.map_id' _)
  refine ⟨g, run, fun b => ?_⟩
  have written := congrFun codes b
  rw [recordAll_apply] at written
  rw [traversal]
  split
  · next w found =>
    rw [found] at written
    exact written
  · next none =>
    rw [none] at written
    rw [written]
    exact codeOf_invalidateAll g0 b

/-- Settles O50: the code map holds the codes of the Alphabet, which are paths of a tree with `K` leaves. -/
theorem codesArePrefixFree : Obligations.CodesArePrefixFree := by
  intro a t0 g0 distinct hK
  obtain ⟨g, run, codes⟩ := genCodes_holdsCodes distinct hK t0 g0
  refine ⟨g, run, fun b => codes.valid_iff hK, fun b valid => ?_, fun b c ne validB validC begins => ?_⟩
  · obtain ⟨u, hu, entry⟩ := codes.exists_of_valid hK valid
    have bound := length_le_of_mem_codesOf hK hu
    rw [entry]
    exact ⟨length_pos_of_mem_codesOf hK hu, len_entryOf (by omega), bound⟩
  · obtain ⟨u, hu, entryB⟩ := codes.exists_of_valid hK validB
    obtain ⟨v, hv, entryC⟩ := codes.exists_of_valid hK validC
    rw [entryB, entryC] at begins
    exact ne (eq_of_begins_codesOf hu hv begins).1

/-- Settles O51: the sum over the Alphabet is the sum over the paths of its tree. -/
theorem kraftSumIsOne : Obligations.KraftSumIsOne := by
  intro a t0 g0 distinct h2 hK
  obtain ⟨g, run, codes⟩ := genCodes_holdsCodes distinct hK t0 g0
  have height := height_codeTreeOf h2 hK
  have term : ∀ w ∈ (codeTreeOf a).paths, 2 ^ (255 - (codeOf g w.1).len.toNat) = 2 ^ (255 - w.2.length) := by
    intro w hw
    have bound := CodeTree.length_le_height hw
    rw [codes.code (codesOf_of_two h2 ▸ hw), len_entryOf (by omega)]
  refine ⟨g, run, ?_⟩
  calc (a.map (fun e => 2 ^ (255 - (codeOf g e.1).len.toNat))).sum
      = ((a.map Prod.fst).map (fun b => 2 ^ (255 - (codeOf g b).len.toNat))).sum := by rw [List.map_map]; rfl
    _ = (((codeTreeOf a).paths.map Prod.fst).map (fun b => 2 ^ (255 - (codeOf g b).len.toNat))).sum :=
        (((codesOf_of_two h2 ▸ bytes_codesOf hK).map _).sum_eq).symm
    _ = ((codeTreeOf a).paths.map (fun w => 2 ^ (255 - w.2.length))).sum := by
        rw [List.map_map]; exact congrArg List.sum (List.map_congr_left term)
    _ = 2 ^ 255 := CodeTree.kraft (by omega)

end Sys2Proof.Machine
end

section
/-! PROOFS. The Alphabet of an input (41_alphabet.md, R111), and its scanner (R110): each byte scanned counts in the Alphabet so far. -/

namespace Sys2Proof.Machine

/-! ### First occurrences -/

theorem firstOccurrences_concat (seen l : List Byte) (b : Byte) :
    firstOccurrences seen (l ++ [b]) =
      if b ∈ firstOccurrences seen l then firstOccurrences seen l else firstOccurrences seen l ++ [b] := by
  induction l generalizing seen with
  | nil => rfl
  | cons c l ih =>
    rw [List.cons_append, firstOccurrences, firstOccurrences]
    split <;> exact ih _

theorem mem_firstOccurrences {seen l : List Byte} {b : Byte} : b ∈ firstOccurrences seen l ↔ b ∈ seen ∨ b ∈ l := by
  induction l generalizing seen with
  | nil => simp [firstOccurrences]
  | cons c l ih =>
    rw [firstOccurrences]
    split
    · next old =>
      rw [ih, List.mem_cons]
      constructor
      · rintro (h | h)
        · exact .inl h
        · exact .inr (.inr h)
      · rintro (h | rfl | h)
        · exact .inl h
        · exact .inl old
        · exact .inr h
    · rw [ih]
      simp [or_assoc]

theorem nodup_firstOccurrences {seen : List Byte} (h : seen.Nodup) (l : List Byte) : (firstOccurrences seen l).Nodup := by
  induction l generalizing seen with
  | nil => exact h
  | cons c l ih =>
    rw [firstOccurrences]
    split
    · exact ih h
    · next new => exact ih (List.nodup_append.2 ⟨h, List.nodup_singleton c, fun _ hx _ hy e => new (by simp_all)⟩)

/-! ### The Alphabet of an input -/

theorem bytes_alphabetOf (input : List Byte) : (alphabetOf input).map Prod.fst = firstOccurrences [] input := by
  rw [alphabetOf, List.map_map]
  exact List.map_id' _

theorem nodup_alphabetOf (input : List Byte) : ((alphabetOf input).map Prod.fst).Nodup := by
  rw [bytes_alphabetOf]
  exact nodup_firstOccurrences List.nodup_nil input

theorem mem_bytes_alphabetOf {input : List Byte} {b : Byte} : b ∈ (alphabetOf input).map Prod.fst ↔ b ∈ input := by
  rw [bytes_alphabetOf, mem_firstOccurrences]
  simp

theorem length_le_of_nodup_bytes {l : List Byte} (h : l.Nodup) : l.length ≤ 256 := by
  have distinct : (l.map BitVec.toNat).Nodup := h.map fun _ _ => BitVec.eq_of_toNat_eq
  have inRange : l.map BitVec.toNat ⊆ List.range 256 := by
    intro n hn
    obtain ⟨b, -, rfl⟩ := List.mem_map.1 hn
    exact List.mem_range.2 b.isLt
  simpa using (distinct.subperm inRange).length_le

theorem length_alphabetOf_le (input : List Byte) : (alphabetOf input).length ≤ 256 := by
  simpa using length_le_of_nodup_bytes (nodup_alphabetOf input)

theorem sum_alphabetOf (input : List Byte) : ((alphabetOf input).map Prod.snd).sum = input.length := by
  have same : (firstOccurrences [] input).Perm input.dedup :=
    (List.perm_ext_iff_of_nodup (nodup_firstOccurrences List.nodup_nil _) (List.nodup_dedup _)).2 fun b => by
      rw [mem_firstOccurrences, List.mem_dedup]
      simp
  rw [← List.sum_map_count_dedup_eq_length input, alphabetOf, List.map_map]
  exact (same.map _).sum_eq

theorem count_alphabetOf {input : List Byte} {e : Byte × Nat} (h : e ∈ alphabetOf input) :
    e.1 ∈ input ∧ e.2 = input.count e.1 := by
  obtain ⟨b, hb, rfl⟩ := List.mem_map.1 h
  exact ⟨by simpa using mem_firstOccurrences.1 hb, rfl⟩

/-- Settles O35, by what `firstOccurrences` keeps: each byte of the input once. -/
theorem alphabetOfAnInput : Obligations.AlphabetOfAnInput := by
  intro input
  refine ⟨nodup_alphabetOf input, fun e he => ?_, sum_alphabetOf input, length_alphabetOf_le input, ?_,
    fun b => mem_bytes_alphabetOf.symm⟩
  · obtain ⟨present, count⟩ := count_alphabetOf he
    rw [count]
    exact List.count_pos_iff.2 present
  · have inInput : (alphabetOf input).map Prod.fst ⊆ input := fun b => mem_bytes_alphabetOf.1
    simpa using ((nodup_alphabetOf input).subperm inInput).length_le

/-! ### Counting a byte in an Alphabet -/

/-- The Alphabet of an input with 32-bit counts (R113). -/
def wordAlphabet (input : List Byte) : List (Byte × Word) :=
  (alphabetOf input).map (fun e => (e.1, BitVec.ofNat 32 e.2))

theorem scannedAlphabet_eq (s : State) : scannedAlphabet s = wordAlphabet (inputOf s) := rfl

theorem bytes_wordAlphabet (input : List Byte) : (wordAlphabet input).map Prod.fst = firstOccurrences [] input := by
  rw [wordAlphabet, List.map_map, ← bytes_alphabetOf]
  rfl

theorem nodup_wordAlphabet (input : List Byte) : ((wordAlphabet input).map Prod.fst).Nodup := by
  rw [bytes_wordAlphabet]
  exact nodup_firstOccurrences List.nodup_nil input

theorem mem_bytes_wordAlphabet {input : List Byte} {b : Byte} : b ∈ (wordAlphabet input).map Prod.fst ↔ b ∈ input := by
  rw [bytes_wordAlphabet, ← bytes_alphabetOf]
  exact mem_bytes_alphabetOf

theorem length_wordAlphabet_le (input : List Byte) : (wordAlphabet input).length ≤ 256 := by
  rw [wordAlphabet, List.length_map]
  exact length_alphabetOf_le input

/-- One more byte `b` in an Alphabet: counted at its entry, or a new entry. -/
def countByte (b : Byte) (a : List (Byte × Word)) : List (Byte × Word) :=
  if b ∈ a.map Prod.fst then a.map (fun e => if e.1 = b then (e.1, e.2 + 1) else e) else a ++ [(b, 1)]

theorem wordAlphabet_eq (input : List Byte) :
    wordAlphabet input = (firstOccurrences [] input).map (fun b => (b, BitVec.ofNat 32 (input.count b))) := by
  rw [wordAlphabet, alphabetOf, List.map_map]
  rfl

theorem wordAlphabet_concat (l : List Byte) (b : Byte) : wordAlphabet (l ++ [b]) = countByte b (wordAlphabet l) := by
  rw [countByte, bytes_wordAlphabet, wordAlphabet_eq, wordAlphabet_eq, firstOccurrences_concat]
  split
  · rw [List.map_map]
    refine List.map_congr_left fun c _ => ?_
    by_cases h : c = b
    · subst h
      simp [List.count_append, BitVec.ofNat_add]
    · simp [List.count_append, h, Ne.symm h]
  · next new =>
    have absent : b ∉ l := fun h => new (mem_firstOccurrences.2 (.inr h))
    rw [List.map_append, List.map_singleton, List.count_append, List.count_eq_zero_of_not_mem absent]
    congr 1
    · refine List.map_congr_left fun c hc => ?_
      have other : b ≠ c := fun h => new (h ▸ hc)
      simp [List.count_append, other]
    · simp

/-! ### One byte of the scan -/

theorem toNat_entry_succ {k : BitVec 9} (h : k.toNat ≤ 256) : (k + 1).toNat = k.toNat + 1 :=
  BitVec.toNat_add_of_lt (y := 1#9) (by simpa using by omega)

theorem State.mem_bytes_alphabet {s : State} {b : Byte} :
    b ∈ s.alphabet.map Prod.fst ↔ ∃ j, j < s.k.toNat ∧ s.byteAt .alphaSym j = b := by
  simp [State.alphabet]

theorem State.symbols_inj {s : State} (distinct : (s.alphabet.map Prod.fst).Nodup) {i j : Nat} (hi : i < s.k.toNat)
    (hj : j < s.k.toNat) (same : s.byteAt .alphaSym i = s.byteAt .alphaSym j) : i = j := by
  have inj := List.nodup_iff_injective_getElem.1 distinct (a₁ := ⟨i, by simpa using hi⟩) (a₂ := ⟨j, by simpa using hj⟩)
    (by simpa using same)
  exact Fin.mk.inj_iff.1 inj

/-- What one byte of the scan does (R110): it counts at the byte's only entry, or writes a new one at K. -/
theorem scanByte_cases {s : State} {b : Byte} (distinct : (s.alphabet.map Prod.fst).Nodup) :
    (∃ j, j < s.k.toNat ∧ (∀ i, i < s.k.toNat → (s.byteAt .alphaSym i = b ↔ i = j)) ∧
        scanByte b s = (s.putFreq j (s.freqAt j + 1)).withJ (BitVec.ofNat 9 j)) ∨
      ((∀ i, i < s.k.toNat → s.byteAt .alphaSym i ≠ b) ∧
        scanByte b s = (((s.putByte .alphaSym s.k.toNat b).putFreq s.k.toNat 1).withK (s.k + 1)).withJ s.k) := by
  unfold scanByte
  cases found : findSym s b s.k.toNat 0 with
  | some j =>
    obtain ⟨-, below, symbol, -⟩ := findSym_some found
    rw [Nat.zero_add] at below
    refine .inl ⟨j, below, fun i hi => ⟨fun h => ?_, fun h => h ▸ symbol⟩, rfl⟩
    exact State.symbols_inj distinct hi below (h.trans symbol.symm)
  | none => exact .inr ⟨fun i hi => findSym_none found i (Nat.zero_le _) (by omega), rfl⟩

theorem alphabet_scanByte {s : State} {b : Byte} (distinct : (s.alphabet.map Prod.fst).Nodup) (hk : s.k.toNat ≤ 256) :
    (scanByte b s).alphabet = countByte b s.alphabet := by
  rcases scanByte_cases (b := b) distinct with ⟨j, hj, only, run⟩ | ⟨absent, run⟩
  · have present : b ∈ s.alphabet.map Prod.fst := State.mem_bytes_alphabet.2 ⟨j, hj, (only j hj).2 rfl⟩
    rw [run, countByte, if_pos present]
    apply List.ext_getElem
    · simp
    · intro i hi _
      have below : i < s.k.toNat := by simpa using hi
      by_cases here : i = j
      · subst here
        simp [(only i hj).2 rfl, State.freqAt_putFreq]
      · simp [mt (only i below).1 here, here, State.freqAt_putFreq]
  · have new : b ∉ s.alphabet.map Prod.fst := fun h =>
      let ⟨i, hi, symbol⟩ := State.mem_bytes_alphabet.1 h
      absent i hi symbol
    have length : ((((s.putByte .alphaSym s.k.toNat b).putFreq s.k.toNat 1).withK (s.k + 1)).withJ s.k).alphabet.length =
        s.k.toNat + 1 := (State.length_alphabet _).trans (toNat_entry_succ hk)
    rw [run, countByte, if_neg new]
    apply List.ext_getElem
    · rw [length, List.length_append, State.length_alphabet, List.length_singleton]
    · intro i hi _
      rw [length] at hi
      by_cases last : i = s.k.toNat
      · subst last
        simp [State.byteAt_putByte_same, State.freqAt_putFreq]
      · have older : i < s.alphabet.length := by rw [State.length_alphabet]; omega
        rw [List.getElem_append_left older]
        simp [State.byteAt_putByte_other _ _ _ _ _ _ (fun h : _ ∧ _ => last h.2), State.freqAt_putFreq, last]

/-- Both Alphabet memories are in canonical form and list only entries that exist (R40, R48). -/
def CanonicalAlphabet (s : State) : Prop :=
  (Memory.wf s.alphaSym ∧ Memory.below s.alphaSym Config.alphaCap) ∧
    (Memory.wf s.alphaFreq ∧ Memory.below s.alphaFreq Config.alphaCap)

/-- `t` is `s` after scanning the bytes `l`. -/
structure Scanned (s : State) (l : List Byte) (t : State) : Prop where
  shape : ScanShape s t
  alphabet : t.alphabet = wordAlphabet l
  rest : SameEntriesFrom (wordAlphabet l).length s t
  ip : t.cursors.ip = BitVec.ofNat 32 l.length
  canonical : CanonicalAlphabet s → CanonicalAlphabet t

theorem Scanned.k {s t : State} {l : List Byte} (h : Scanned s l t) : t.k.toNat = (wordAlphabet l).length := by
  rw [← h.alphabet, State.length_alphabet]

theorem Scanned.scanByte {s t : State} {l : List Byte} (h : Scanned s l t) (b : Byte) :
    Scanned s (l ++ [b]) ((scanByte b t).withIp (t.cursors.ip + 1)) := by
  have distinct : (t.alphabet.map Prod.fst).Nodup := h.alphabet ▸ nodup_wordAlphabet l
  have k := h.k
  have capacity := length_wordAlphabet_le l
  have alphabet : (Machine.scanByte b t).alphabet = wordAlphabet (l ++ [b]) := by
    rw [alphabet_scanByte distinct (by omega), h.alphabet, wordAlphabet_concat]
  have length : (Machine.scanByte b t).k.toNat = (wordAlphabet (l ++ [b])).length := by
    rw [← alphabet, State.length_alphabet]
  have capacity' := length_wordAlphabet_le (l ++ [b])
  have kept : ∀ j, (Machine.scanByte b t).k.toNat ≤ j →
      (Machine.scanByte b t).byteAt .alphaSym j = t.byteAt .alphaSym j ∧ (Machine.scanByte b t).freqAt j = t.freqAt j ∧
        (wordAlphabet l).length ≤ j := by
    intro j hj
    rcases scanByte_cases (b := b) distinct with ⟨i, hi, -, run⟩ | ⟨-, run⟩
    · rw [run] at hj ⊢
      have above : t.k.toNat ≤ j := hj
      exact ⟨by simp, by simp [State.freqAt_putFreq, show j ≠ i by omega], by omega⟩
    · rw [run] at hj ⊢
      have advanced := toNat_entry_succ (k := t.k) (by omega)
      have above : (t.k + 1).toNat ≤ j := hj
      have other : j ≠ t.k.toNat := by omega
      exact ⟨by simp [State.byteAt_putByte_other _ _ _ _ _ _ (fun h : _ ∧ _ => other h.2)],
        by simp [State.freqAt_putFreq, other], by omega⟩
  refine ⟨?_, alphabet, fun j hj => ?_, ?_, fun canonical => ?_⟩
  · refine (h.shape.trans (scanByte_shape b t)).trans ⟨_, _, _, _, (Machine.scanByte b t).cursors.j, rfl⟩
  · obtain ⟨symbol, freq, old⟩ := kept j (length ▸ hj)
    obtain ⟨symbol', freq'⟩ := h.rest j old
    exact ⟨by simpa using symbol.trans symbol', by simpa using freq.trans freq'⟩
  · rw [State.withIp_eq, State.withCursors_cursors, Cursors.withIp_ip, h.ip, List.length_append, List.length_singleton,
      BitVec.ofNat_add]
    rfl
  · obtain ⟨⟨symWf, symBelow⟩, freqWf, freqBelow⟩ := h.canonical canonical
    rcases scanByte_cases (b := b) distinct with ⟨i, hi, -, run⟩ | ⟨-, run⟩
    · have inside : i < Config.alphaCap := by rw [Config.alphaCap]; omega
      rw [run]
      exact ⟨⟨symWf, symBelow⟩, Memory.write_wf _ _ freqWf, Memory.write_below _ freqBelow inside⟩
    · have advanced := toNat_entry_succ (k := t.k) (by omega)
      have written : (Machine.scanByte b t).k = t.k + 1 := by rw [run]; rfl
      have inside : t.k.toNat < Config.alphaCap := by rw [Config.alphaCap]; rw [written] at length; omega
      rw [run]
      exact ⟨⟨Memory.write_wf _ _ symWf, Memory.write_below _ symBelow inside⟩, Memory.write_wf _ _ freqWf,
        Memory.write_below _ freqBelow inside⟩

/-! ### The whole scan -/

theorem State.bytesFrom_succ (s : State) (sp : ByteSpace) (i n : Nat) :
    s.bytesFrom sp i (n + 1) = s.byteAt sp i :: s.bytesFrom sp (i + 1) n := by
  rw [State.bytesFrom, List.range_succ_eq_map, List.map_cons, List.map_map, State.bytesFrom]
  congr 1
  refine List.map_congr_left fun j _ => ?_
  rw [Function.comp_apply]
  congr 1
  omega

theorem ScanShape.byteAt {s t : State} (h : ScanShape s t) {sp : ByteSpace} (other : sp ≠ .alphaSym) (i : Nat) :
    t.byteAt sp i = s.byteAt sp i := by
  obtain ⟨_, _, _, _, _, rfl⟩ := h
  cases sp with
  | alphaSym => exact absurd rfl other
  | _ => rfl

theorem Scanned.scanLoop {s t : State} {l : List Byte} {n : Nat} (h : Scanned s l t) (hn : l.length + n < 2 ^ 32) :
    Scanned s (l ++ s.bytesFrom .ibuf l.length n) (scanLoop n t) := by
  induction n generalizing t l with
  | zero =>
    have none : s.bytesFrom .ibuf l.length 0 = [] := rfl
    rwa [Machine.scanLoop, none, List.append_nil]
  | succ n ih =>
    have ip : t.cursors.ip.toNat = l.length := by
      rw [h.ip, BitVec.toNat_ofNat]
      exact Nat.mod_eq_of_lt (by omega)
    have next : t.byteAt .ibuf t.cursors.ip.toNat = s.byteAt .ibuf l.length := by
      rw [ip]
      exact h.shape.byteAt (by decide) _
    have step := ih (h.scanByte (t.byteAt .ibuf t.cursors.ip.toNat)) (by simpa using by omega)
    rw [List.append_assoc, next, List.length_append, List.length_singleton, List.singleton_append] at step
    rw [State.bytesFrom_succ, Machine.scanLoop, next]
    exact step

theorem scanned_scan (s : State) : Scanned s (inputOf s) (scan s) := by
  have start : Scanned s [] ((s.withK 0).withIp 0) :=
    ⟨⟨_, _, _, _, s.cursors.j, rfl⟩, rfl, fun j _ => ⟨rfl, rfl⟩, rfl, id⟩
  exact start.scanLoop (n := s.ilen.toNat) (by simpa using s.ilen.isLt)

/-- Settles O34: the scan has scanned the whole input. -/
theorem scanBuildsTheAlphabet : Obligations.ScanBuildsTheAlphabet := by
  intro s
  have scanned := scanned_scan s
  have k := scanned.k
  rw [← scannedAlphabet_eq] at k
  refine ⟨scanned.alphabet, k, k.trans_le (length_wordAlphabet_le _), fun e he => ?_, scanned.rest,
    fun i => scanned.shape.byteAt (by decide) i, fun i => scanned.shape.byteAt (by decide) i,
    fun i => scanned.shape.byteAt (by decide) i⟩
  have bound : (inputOf s).count e.1 ≤ (inputOf s).length := List.count_le_length
  have length : (inputOf s).length = s.ilen.toNat := State.length_bytesFrom _ _ _ _
  have small := s.ilen.isLt
  rw [(count_alphabetOf he).2]
  omega

end Sys2Proof.Machine
end

section
/-! PROOFS. Payload bytes and stream bits (20_memory.md, R44; 40_bitbuffer.md, R94, R95, R99), under both bit orders. -/

namespace Sys2Proof.Machine

/-! ### Cells of a bit sequence, false past its end -/

theorem Table.first_add {α : Type} (blank : α) (m n : Nat) (t : List α) :
    Table.first blank (m + n) t = Table.first blank m t ++ Table.first blank n (t.drop m) := by
  apply List.ext_getElem
  · simp
  · intro i _ _
    rw [Table.getElem_first]
    by_cases h : i < m
    · rw [List.getElem_append_left (by simpa using h), Table.getElem_first]
    · rw [List.getElem_append_right (by simpa using h), Table.getElem_first, Table.length_first]
      simp only [Table.get, List.getD_eq_getElem?_getD, List.getElem?_drop]
      rw [Nat.add_sub_cancel' (Nat.le_of_not_lt h)]

theorem Table.first_eq_append {α : Type} (blank : α) {n : Nat} {t : List α} (h : t.length ≤ n) :
    Table.first blank n t = t ++ List.replicate (n - t.length) blank := by
  apply List.ext_getElem
  · simpa using (Nat.add_sub_cancel' h).symm
  · intro i _ _
    rw [Table.getElem_first, Table.get]
    by_cases inside : i < t.length
    · rw [List.getElem_append_left inside, List.getD_eq_getElem _ _ inside]
    · rw [List.getElem_append_right (Nat.le_of_not_lt inside), List.getElem_replicate,
        List.getD_eq_default _ _ (Nat.le_of_not_lt inside)]

/-! ### One byte -/

/-- The eight bits that make a byte are read back from it, under each bit order. -/
theorem unpackByte_packByte_octet (order : PackOrder) (b0 b1 b2 b3 b4 b5 b6 b7 : Bool) :
    unpackByte order (packByte order [b0, b1, b2, b3, b4, b5, b6, b7]) = [b0, b1, b2, b3, b4, b5, b6, b7] := by
  cases order <;> revert b0 b1 b2 b3 b4 b5 b6 b7 <;> decide +kernel

theorem packByte_first (order : PackOrder) (bits : Bits) : packByte order bits = packByte order (Table.first false 8 bits) := by
  have cell (i : Nat) (h : i < 8) : (Table.first false 8 bits).getD i false = bits.getD i false := by
    rw [List.getD_eq_getElem _ _ (by simpa using h), Table.getElem_first, Table.get]
  rw [packByte, packByte]
  congr 2
  refine List.map_congr_left fun i hi => ?_
  rw [cell i (List.mem_range.1 hi)]

theorem unpackByte_packByte (order : PackOrder) (bits : Bits) :
    unpackByte order (packByte order bits) = Table.first false 8 bits := by
  rw [packByte_first]
  have eight := Table.length_first false 8 bits
  generalize Table.first false 8 bits = octet at eight
  match octet, eight with
  | [_, _, _, _, _, _, _, _], _ => exact unpackByte_packByte_octet order ..

theorem getElem_unpackByte_msbFirst (v : Byte) (t : Nat) (h : t < (unpackByte .msbFirst v).length) :
    (unpackByte .msbFirst v)[t] = v.getLsbD (7 - t) := by
  simp only [unpackByte, List.getElem_map, List.getElem_range]

theorem getElem_unpackByte_lsbFirst (v : Byte) (t : Nat) (h : t < (unpackByte .lsbFirst v).length) :
    (unpackByte .lsbFirst v)[t] = v.getLsbD t := by
  simp only [unpackByte, List.getElem_map, List.getElem_range]

theorem unpackByte_injective (order : PackOrder) {v w : Byte} (h : unpackByte order v = unpackByte order w) : v = w := by
  have bit (t : Nat) (ht : t < 8) := List.getElem_of_eq h (i := t) (by simpa using ht)
  apply BitVec.eq_of_getLsbD_eq
  intro i hi
  cases order with
  | msbFirst =>
    simp only [getElem_unpackByte_msbFirst] at bit
    simpa [show 7 - (7 - i) = i by omega] using bit (7 - i) (by omega)
  | lsbFirst =>
    simp only [getElem_unpackByte_lsbFirst] at bit
    exact bit i hi

theorem packByte_unpackByte (order : PackOrder) (v : Byte) (rest : Bits) :
    packByte order (unpackByte order v ++ rest) = v := by
  apply unpackByte_injective order
  rw [unpackByte_packByte]
  have octet : 8 = (unpackByte order v).length + 0 := (length_unpackByte order v).symm
  conv_lhs => rw [octet]
  rw [Table.first_add, Table.first, List.append_nil]
  apply List.ext_getElem
  · simp
  · intro i h _
    rw [Table.getElem_first, Table.get, List.getD_eq_getElem _ _ (by simp at h ⊢; omega), List.getElem_append_left]

/-! ### Many bytes -/

theorem flatMap_unpackByte_packBytes (order : PackOrder) (n : Nat) (bits : Bits) :
    (packBytes order n bits).flatMap (unpackByte order) = Table.first false (8 * n) bits := by
  induction n generalizing bits with
  | zero => rfl
  | succ n ih => rw [packBytes, List.flatMap_cons, unpackByte_packByte, ih, Nat.mul_succ, Nat.add_comm, Table.first_add]

theorem packBytes_flatMap_unpackByte (order : PackOrder) (bytes : List Byte) :
    packBytes order bytes.length (bytes.flatMap (unpackByte order)) = bytes := by
  induction bytes with
  | nil => rfl
  | cons v bytes ih =>
    rw [List.length_cons, packBytes, List.flatMap_cons, packByte_unpackByte,
      List.drop_left' (length_unpackByte order v), ih]

theorem getElem_packBytes (order : PackOrder) (n : Nat) (bits : Bits) (j : Nat) (h : j < (packBytes order n bits).length) :
    (packBytes order n bits)[j] = packByte order (bits.drop (8 * j)) := by
  induction n generalizing bits j with
  | zero => simp [packBytes] at h
  | succ n ih =>
    cases j with
    | zero => rfl
    | succ j =>
      simp only [packBytes, List.getElem_cons_succ]
      rw [ih, List.drop_drop, Nat.mul_succ, Nat.add_comm]

theorem getLsbD_packByte_msbFirst (bits : Bits) {t : Nat} (h : t < 8) :
    (packByte .msbFirst bits).getLsbD (7 - t) = bits.getD t false := by
  have cell := List.getElem_of_eq (unpackByte_packByte .msbFirst bits) (i := t) (by simpa using h)
  rw [getElem_unpackByte_msbFirst, Table.getElem_first] at cell
  exact cell

/-- Bit `i` of the stream, or the padding, in the payload (R44). -/
theorem getLsbD_packBytes_msbFirst {n : Nat} (bits : Bits) {i : Nat} (h : i < 8 * n) :
    ((packBytes .msbFirst n bits).getD (i / 8) 0).getLsbD (7 - i % 8) = bits.getD i false := by
  rw [List.getD_eq_getElem _ _ (by rw [length_packBytes]; omega), getElem_packBytes,
    getLsbD_packByte_msbFirst _ (Nat.mod_lt i (by decide)), List.getD_eq_getElem?_getD, List.getElem?_drop,
    Nat.div_add_mod, List.getD_eq_getElem?_getD]

/-! ### The obligations -/

/-- Settles O42: cell `i` of the sequence, false past its end, stands at its place in the payload. -/
theorem packPlacesBitsMsbFirst : Obligations.PackPlacesBitsMsbFirst := by
  intro bits n hn
  refine ⟨length_packBytes _ _ _, fun i hi => ?_, fun i hi hi' => ?_⟩
  · rw [getLsbD_packBytes_msbFirst bits (by omega), List.getD_eq_getElem _ _ hi]
  · rw [getLsbD_packBytes_msbFirst bits hi', List.getD_eq_default _ _ hi]

/-- Settles O43: unpacking gives the cells of the sequence up to a byte's end, and packing undoes unpacking. -/
theorem packAndUnpackAreInverse : Obligations.PackAndUnpackAreInverse := by
  intro order
  refine ⟨fun bits => ?_, packBytes_flatMap_unpackByte order⟩
  rw [flatMap_unpackByte_packBytes, Table.first_eq_append false (by omega)]

end Sys2Proof.Machine
end

section
/-! PROOFS. The tree walk (45_decode.md, R172, R176, R177) as a walk over the code tree: it meets no bad node, does not depend on what the
tree memory held, ignores bits behind those it needs, and reads codes back. -/

namespace Sys2Proof.Machine

/-- The walk of R172 over the code tree `node L R`, the walker at the inner node `node l r`, `n` bytes still wanted. -/
def walkTree (L R : CodeTree) : Bits → CodeTree → CodeTree → Nat → WalkEnd × List Byte
  | _, _, _, 0 => (.allOut, [])
  | [], _, _, _ + 1 => (.exhausted, [])
  | b :: bs, l, r, n + 1 =>
    match (if b then r else l) with
    | .leaf e => ((walkTree L R bs L R n).1, e.1 :: (walkTree L R bs L R n).2)
    | .node l' r' => walkTree L R bs l' r' (n + 1)

theorem walkTree_cons_leaf {L R l r : CodeTree} {b : Bool} {bs : Bits} {n : Nat} {e : Byte × Word}
    (h : (if b then r else l) = .leaf e) :
    walkTree L R (b :: bs) l r (n + 1) = ((walkTree L R bs L R n).1, e.1 :: (walkTree L R bs L R n).2) := by
  rw [walkTree, h]

theorem walkTree_cons_node {L R l r l' r' : CodeTree} {b : Bool} {bs : Bits} {n : Nat}
    (h : (if b then r else l) = .node l' r') : walkTree L R (b :: bs) l r (n + 1) = walkTree L R bs l' r' (n + 1) := by
  rw [walkTree, h]

theorem walkBits_eq_walkTree {t : TreeBuilder} {L R l r : CodeTree} {cur : BitVec 9} (root : Shows t (.node L R) t.root)
    (here : Shows t (.node l r) cur) (bits : Bits) (n : Nat) : walkBits t bits cur n = walkTree L R bits l r n := by
  induction bits generalizing cur l r n with
  | nil => cases n <;> rfl
  | cons b bs ih =>
    cases n with
    | zero => rfl
    | succ n =>
      obtain ⟨-, -, left, right⟩ := here
      have child : Shows t (if b then r else l) (childOf (nodeAt t cur.toNat) b) := by
        cases b
        · exact left
        · exact right
      cases hc : (if b then r else l) with
      | leaf e =>
        rw [hc] at child
        obtain ⟨tag, byte, -⟩ := child
        rw [walkTree_cons_leaf hc, ← ih root n]
        simp [walkBits, tag, byte]
      | node l' r' =>
        rw [hc] at child
        rw [walkTree_cons_node hc, ← ih child (n + 1)]
        simp [walkBits, child.1]

theorem walkTree_ne_badNode (L R : CodeTree) (bits : Bits) (l r : CodeTree) (n : Nat) :
    (walkTree L R bits l r n).1 ≠ .badNode := by
  induction bits generalizing l r n with
  | nil => cases n <;> exact WalkEnd.noConfusion
  | cons b bs ih =>
    cases n with
    | zero => exact WalkEnd.noConfusion
    | succ n =>
      cases hc : (if b then r else l) with
      | leaf e => rw [walkTree_cons_leaf hc]; exact ih L R n
      | node l' r' => rw [walkTree_cons_node hc]; exact ih l' r' (n + 1)

/-- A walk gives no more bytes than wanted, and all of them when it ends well. -/
theorem length_walkTree (L R : CodeTree) (bits : Bits) (l r : CodeTree) (n : Nat) :
    (walkTree L R bits l r n).2.length ≤ n ∧
      ((walkTree L R bits l r n).1 = .allOut → (walkTree L R bits l r n).2.length = n) := by
  induction bits generalizing l r n with
  | nil =>
    cases n with
    | zero => exact ⟨Nat.le_refl 0, fun _ => rfl⟩
    | succ n => exact ⟨Nat.zero_le _, nofun⟩
  | cons b bs ih =>
    cases n with
    | zero => exact ⟨Nat.le_refl 0, fun _ => rfl⟩
    | succ n =>
      cases hc : (if b then r else l) with
      | leaf e =>
        obtain ⟨le, all⟩ := ih L R n
        rw [walkTree_cons_leaf hc]
        exact ⟨Nat.succ_le_succ le, fun h => congrArg Nat.succ (all h)⟩
      | node l' r' => rw [walkTree_cons_node hc]; exact ih l' r' (n + 1)

/-- Bits behind those it needs do not change a walk (R173). -/
theorem walkTree_append {L R : CodeTree} {bits : Bits} {l r : CodeTree} {n : Nat}
    (h : (walkTree L R bits l r n).1 = .allOut) (more : Bits) :
    walkTree L R (bits ++ more) l r n = walkTree L R bits l r n := by
  induction bits generalizing l r n with
  | nil =>
    cases n with
    | zero => cases more <;> rfl
    | succ n => cases h
  | cons b bs ih =>
    cases n with
    | zero => rfl
    | succ n =>
      cases hc : (if b then r else l) with
      | leaf e =>
        rw [walkTree_cons_leaf hc] at h
        rw [List.cons_append, walkTree_cons_leaf hc, walkTree_cons_leaf hc, ih h]
      | node l' r' =>
        rw [walkTree_cons_node hc] at h
        rw [List.cons_append, walkTree_cons_node hc, walkTree_cons_node hc, ih h]

/-- A code leads the walk to its leaf. -/
theorem walkTree_code {L R l r : CodeTree} {b : Byte} {u : Bits} (h : (b, u) ∈ (CodeTree.node l r).paths) (rest : Bits)
    (n : Nat) :
    walkTree L R (u ++ rest) l r (n + 1) = ((walkTree L R rest L R n).1, b :: (walkTree L R rest L R n).2) := by
  induction u generalizing l r with
  | nil => obtain ⟨_, ⟨-, h⟩ | ⟨-, h⟩⟩ := CodeTree.mem_paths_node.1 h <;> cases h
  | cons c u ih =>
    have below : (b, u) ∈ (if c then r else l).paths := by
      obtain ⟨_, ⟨h, same⟩ | ⟨h, same⟩⟩ := CodeTree.mem_paths_node.1 h <;> cases same <;> exact h
    cases hc : (if c then r else l) with
    | leaf e =>
      rw [hc] at below
      obtain ⟨rfl, rfl⟩ := Prod.mk.inj (List.mem_singleton.1 below)
      exact walkTree_cons_leaf hc
    | node l' r' =>
      rw [hc] at below
      exact (walkTree_cons_node hc).trans (ih below)

/-- The codes of bytes, one after another, are walked back to the bytes. -/
theorem walkTree_codes {L R : CodeTree} {code : Byte → Bits} {input : List Byte}
    (h : ∀ b ∈ input, (b, code b) ∈ (CodeTree.node L R).paths) (rest : Bits) :
    walkTree L R (input.flatMap code ++ rest) L R input.length = (.allOut, input) := by
  induction input with
  | nil => cases rest <;> rfl
  | cons b input ih =>
    rw [List.flatMap_cons, List.append_assoc, List.length_cons, walkTree_code (h b List.mem_cons_self),
      ih fun c hc => h c (List.mem_cons_of_mem _ hc)]

end Sys2Proof.Machine
end

section
/-! PROOFS. DECODE whole (45_decode.md, R170 to R179): how it ends and which bytes it writes, as a function of CNT, the Alphabet and the
payload's bits. -/

namespace Sys2Proof.Machine

/-! ### The loop of R172 -/

/-- The end of a walk as the end of the loop. -/
def endOf : WalkEnd → State → Run State
  | .allOut => .ok
  | .exhausted => decodeFail .decExhausted
  | .badNode => decodeFail .decNode

/-- The loop wrote the bytes `vs` from OC on and stayed inside the BitBuffer. -/
structure Walked (s t : State) (vs : List Byte) : Prop where
  cnt : t.cnt = s.cnt
  obuf : t.obuf = Memory.writeMany s.obuf s.cursors.oc.toNat vs
  nbits : t.bb.nbits = s.bb.nbits
  rp : t.bb.rp.toNat ≤ t.bb.nbits.toNat

theorem toNat_rp_succ {b : BitBuffer} (h : b.rp.toNat < b.nbits.toNat) : (b.rp + 1).toNat = b.rp.toNat + 1 :=
  BitVec.toNat_add_of_lt (y := 1#35) (Nat.lt_of_le_of_lt h b.nbits.isLt)

/-- The bit at RP, and the bits behind it. -/
theorem drop_bbValue {b : BitBuffer} (h : b.rp.toNat < b.nbits.toNat) :
    (bbValue b).drop b.rp.toNat = Table.get false b.bits b.rp.toNat :: (bbValue b).drop (b.rp.toNat + 1) := by
  rw [List.drop_eq_getElem_cons (by rwa [length_bbValue])]
  congr 1
  exact Table.getElem_first false _ _ _ _

/-- The BitBuffer after a pop (R96). -/
def bbAdvance (b : BitBuffer) : BitBuffer := { b with rp := b.rp + 1 }

/-- The walker at an inner node `cur`, one bit on (R172). -/
def atNode (s : State) (cur : BitVec 9) : State := (s.withBb (bbAdvance s.bb)).withCur cur

/-- The walker back at the root, one bit and one byte on (R172). -/
def atLeaf (s : State) (cur : BitVec 9) : State :=
  (((atNode s cur).putByte .obuf s.cursors.oc.toNat (nodeAt s.tree cur.toNat).byte).withOc (s.cursors.oc + 1)).withCur
    s.tree.root

@[simp] theorem atNode_tree (s : State) (cur : BitVec 9) : (atNode s cur).tree = s.tree := rfl
@[simp] theorem atNode_bb (s : State) (cur : BitVec 9) : (atNode s cur).bb = bbAdvance s.bb := rfl
@[simp] theorem atNode_cnt (s : State) (cur : BitVec 9) : (atNode s cur).cnt = s.cnt := rfl
@[simp] theorem atNode_obuf (s : State) (cur : BitVec 9) : (atNode s cur).obuf = s.obuf := rfl
@[simp] theorem atNode_cur (s : State) (cur : BitVec 9) : (atNode s cur).cursors.cur = cur := rfl
@[simp] theorem atNode_oc (s : State) (cur : BitVec 9) : (atNode s cur).cursors.oc = s.cursors.oc := rfl
@[simp] theorem atLeaf_tree (s : State) (cur : BitVec 9) : (atLeaf s cur).tree = s.tree := by simp [atLeaf]
@[simp] theorem atLeaf_bb (s : State) (cur : BitVec 9) : (atLeaf s cur).bb = bbAdvance s.bb := by simp [atLeaf]
@[simp] theorem atLeaf_cnt (s : State) (cur : BitVec 9) : (atLeaf s cur).cnt = s.cnt := by simp [atLeaf]
@[simp] theorem atLeaf_obuf (s : State) (cur : BitVec 9) :
    (atLeaf s cur).obuf = Memory.write s.obuf s.cursors.oc.toNat (nodeAt s.tree cur.toNat).byte := by
  simp [atLeaf, State.putByte]
@[simp] theorem atLeaf_cur (s : State) (cur : BitVec 9) : (atLeaf s cur).cursors.cur = s.tree.root := by simp [atLeaf]
@[simp] theorem atLeaf_oc (s : State) (cur : BitVec 9) : (atLeaf s cur).cursors.oc = s.cursors.oc + 1 := by simp [atLeaf]

/-- One round of the loop (R172), a byte wanted and a bit left. -/
theorem walkLoop_round {n : Nat} {s : State} (more : s.cursors.oc.toNat < s.cnt.toNat)
    (below : s.bb.rp.toNat < s.bb.nbits.toNat) :
    ∃ cur, cur = childOf (nodeAt s.tree s.cursors.cur.toNat) (Table.get false s.bb.bits s.bb.rp.toNat) ∧
      walkLoop (n + 1) s = match (nodeAt s.tree cur.toNat).tag with
        | .leaf => walkLoop n (atLeaf s cur)
        | .internal => walkLoop n (atNode s cur)
        | .empty => decodeFail .decNode (atNode s cur)
        | .reserved => decodeFail .decNode (atNode s cur) := by
  have notEmpty : s.bb.rp ≠ s.bb.nbits := fun h => absurd (congrArg BitVec.toNat h) (Nat.ne_of_lt below)
  refine ⟨_, rfl, ?_⟩
  rw [walkLoop, if_pos more, bbPopBit, if_neg notEmpty]
  rfl

/-- The loop of R172 does the walk over the bits from RP on. -/
theorem walkLoop_eq {n k : Nat} {s : State} {bits : Bits} (bitsAtRp : (bbValue s.bb).drop s.bb.rp.toNat = bits)
    (bitsLeft : s.bb.rp.toNat + n = s.bb.nbits.toNat) (wanted : s.cursors.oc.toNat + k = s.cnt.toNat) :
    ∃ u, walkLoop n s = endOf (walkBits s.tree bits s.cursors.cur k).1 u ∧
      Walked s u (walkBits s.tree bits s.cursors.cur k).2 := by
  induction n generalizing s k bits with
  | zero =>
    have noBits : bits = [] := by
      rw [← bitsAtRp, List.drop_eq_nil_iff, length_bbValue]
      omega
    subst noBits
    cases k with
    | zero => exact ⟨s, if_neg (by omega), rfl, rfl, rfl, by omega⟩
    | succ k => exact ⟨s, if_pos (by omega), rfl, rfl, rfl, by omega⟩
  | succ n ih =>
    have below : s.bb.rp.toNat < s.bb.nbits.toNat := by omega
    have advanced := toNat_rp_succ below
    have bitsNext := drop_bbValue below
    rw [bitsAtRp] at bitsNext
    subst bitsNext
    cases k with
    | zero => exact ⟨s, if_neg (by omega), rfl, rfl, rfl, by omega⟩
    | succ k =>
      have more : s.cursors.oc.toNat < s.cnt.toNat := by omega
      have bitsBehind : (bbValue (bbAdvance s.bb)).drop (bbAdvance s.bb).rp.toNat = (bbValue s.bb).drop (s.bb.rp.toNat + 1) :=
        congrArg (fun i => (bbValue s.bb).drop i) advanced
      have bitsLeftBehind : (bbAdvance s.bb).rp.toNat + n = (bbAdvance s.bb).nbits.toNat :=
        (congrArg (· + n) advanced).trans (show s.bb.rp.toNat + 1 + n = s.bb.nbits.toNat by omega)
      have inside : (bbAdvance s.bb).rp.toNat ≤ (bbAdvance s.bb).nbits.toNat := advanced.trans_le below
      obtain ⟨cur, hcur, round⟩ := walkLoop_round (n := n) more below
      rw [round, walkBits, ← hcur]
      cases (nodeAt s.tree cur.toNat).tag with
      | leaf =>
        have oc : (s.cursors.oc + 1).toNat = s.cursors.oc.toNat + 1 :=
          BitVec.toNat_add_of_lt (y := 1#32) (Nat.lt_of_le_of_lt more s.cnt.isLt)
        obtain ⟨u, run, cnt, obuf, nbits, rp⟩ := ih (k := k) (s := atLeaf s cur) bitsBehind bitsLeftBehind
          (by rw [atLeaf_oc, atLeaf_cnt, oc]; omega)
        rw [atLeaf_tree, atLeaf_cur] at run obuf
        rw [atLeaf_obuf, atLeaf_oc, oc] at obuf
        rw [atLeaf_cnt] at cnt
        exact ⟨u, run, cnt, obuf, nbits, rp⟩
      | internal =>
        obtain ⟨u, run, cnt, obuf, nbits, rp⟩ := ih (k := k + 1) (s := atNode s cur) bitsBehind bitsLeftBehind wanted
        exact ⟨u, run, cnt, obuf, nbits, rp⟩
      | empty => exact ⟨atNode s cur, rfl, rfl, rfl, rfl, inside⟩
      | reserved => exact ⟨atNode s cur, rfl, rfl, rfl, rfl, inside⟩

end Sys2Proof.Machine
end

section
/-! PROOFS. DECODE whole (45_decode.md, R170 to R179): how it ends, which bytes it writes and what it leaves alone, as a function of CNT, the
Alphabet and the payload's bits; and the obligations about it. -/

namespace Sys2Proof.Machine

/-! ### The outcome -/

/-- The walk of R172 for an Alphabet of two or more entries, and the copies of R174 for one. -/
def walkCode : CodeTree → Bits → Nat → WalkEnd × List Byte
  | .leaf e, _, n => (.allOut, List.replicate n e.1)
  | .node L R, bits, n => walkTree L R bits L R n

/-- How DECODE within capacity ends and which bytes it gives (R174, R175). -/
def decodeOutcome (a : List (Byte × Word)) (bits : Bits) (n : Nat) : WalkEnd × List Byte :=
  if n = 0 then (.allOut, [])
  else if a.length = 0 then (.badNode, [])
  else walkCode (codeTreeOf a) bits n

theorem walkCode_ne_badNode (T : CodeTree) (bits : Bits) (n : Nat) : (walkCode T bits n).1 ≠ .badNode := by
  cases T with
  | leaf e => exact WalkEnd.noConfusion
  | node L R => exact walkTree_ne_badNode L R bits L R n

theorem length_walkCode (T : CodeTree) (bits : Bits) (n : Nat) :
    (walkCode T bits n).2.length ≤ n ∧ ((walkCode T bits n).1 = .allOut → (walkCode T bits n).2.length = n) := by
  cases T with
  | leaf e => exact ⟨List.length_replicate.le, fun _ => List.length_replicate⟩
  | node L R => exact length_walkTree L R bits L R n

theorem walkCode_append {T : CodeTree} {bits : Bits} {n : Nat} (h : (walkCode T bits n).1 = .allOut) (more : Bits) :
    walkCode T (bits ++ more) n = walkCode T bits n := by
  cases T with
  | leaf e => rfl
  | node L R => exact walkTree_append h more

theorem decodeOutcome_ne_badNode {a : List (Byte × Word)} (h : a.length ≠ 0) (bits : Bits) (n : Nat) :
    (decodeOutcome a bits n).1 ≠ .badNode := by
  rw [decodeOutcome, if_neg h]
  split
  · exact WalkEnd.noConfusion
  · exact walkCode_ne_badNode _ bits n

theorem length_decodeOutcome (a : List (Byte × Word)) (bits : Bits) (n : Nat) :
    (decodeOutcome a bits n).2.length ≤ n ∧
      ((decodeOutcome a bits n).1 = .allOut → (decodeOutcome a bits n).2.length = n) := by
  rw [decodeOutcome]
  split
  · next none => exact ⟨Nat.zero_le n, fun _ => none.symm⟩
  · split
    · exact ⟨Nat.zero_le n, nofun⟩
    · exact length_walkCode _ bits n

theorem decodeOutcome_append {a : List (Byte × Word)} {bits : Bits} {n : Nat} (h : (decodeOutcome a bits n).1 = .allOut)
    (more : Bits) : decodeOutcome a (bits ++ more) n = decodeOutcome a bits n := by
  rw [decodeOutcome] at h ⊢
  rw [decodeOutcome]
  split_ifs at h ⊢
  · rfl
  · exact walkCode_append h more

/-! ### The payload's bits -/

@[simp] theorem accept_alphabet (i : Instr) (s : State) : (accept i s).alphabet = s.alphabet := by simp [State.alphabet]

@[simp] theorem accept_payloadBits (i : Instr) (s : State) : payloadBits (accept i s) = payloadBits s := by
  simp [payloadBits, State.bytesFrom]

@[simp] theorem length_payloadBits (s : State) : (payloadBits s).length = 8 * s.plen.toNat := by
  simp [payloadBits, Nat.mul_comm]

theorem toNat_unpacked (s : State) : (BitVec.ofNat 35 (8 * s.plen.toNat)).toNat = 8 * s.plen.toNat := by
  have small := s.plen.isLt
  rw [BitVec.toNat_ofNat]
  exact Nat.mod_eq_of_lt (by omega)

theorem bbUnpack_bbValue (s : State) : bbValue (bbUnpack s).bb = payloadBits s := by
  have nbits : (bbUnpack s).bb.nbits.toNat = (payloadBits s).length := by
    rw [length_payloadBits]
    exact toNat_unpacked s
  rw [bbValue, nbits]
  exact Table.first_putFirst false _ _

/-! ### The command -/

/-- STATE and ERR after a walk that ended so. -/
def EndedAs : WalkEnd → State → Prop
  | .allOut => EndedDone
  | .exhausted => EndedError .decExhausted
  | .badNode => EndedError .decNode

/-- The fields DECODE can change. -/
def DecodeTouches (s t : State) : Prop :=
  ∃ status cmdr olen obuf phase tree bb oc cur,
    t = { s with
          status := status, cmdr := cmdr, olen := olen, obuf := obuf, phase := phase, tree := tree, bb := bb
          cursors := { s.cursors with oc := oc, cur := cur } }

/-- The BitBuffer after DECODE: as before without a walk, else the unpacked payload with RP inside. -/
def BufferAfterDecode (s : State) (b : BitBuffer) : Prop :=
  if s.cnt = 0 ∨ s.k.toNat ≤ 1 then b = s.bb
  else b.nbits = BitVec.ofNat 35 (8 * s.plen.toNat) ∧ b.rp.toNat ≤ b.nbits.toNat

/-- `t` is `s` after a DECODE with outcome `w`. -/
structure Decoded (s t : State) (w : WalkEnd × List Byte) : Prop where
  touches : DecodeTouches s t
  statusRest : StatusRestKept s t
  ended : EndedAs w.1 t
  obuf : t.obuf = Memory.writeMany s.obuf 0 w.2
  olen : t.olen = if w.1 = .allOut then s.cnt else 0
  bb : BufferAfterDecode s t.bb

theorem DecodeShape.touches {s u : State} (h : DecodeShape (accept .decode s) u) :
    DecodeTouches s (finish u) ∧ ∀ e, DecodeTouches s (raiseError e u) := by
  obtain ⟨_, _, _, _, _, _, _, rfl⟩ := h
  exact ⟨⟨_, _, _, _, _, _, _, _, _, rfl⟩, fun _ => ⟨_, _, _, _, _, _, _, _, _, rfl⟩⟩

theorem DecodeShape.status {s u : State} (h : DecodeShape s u) : u.status = s.status := by
  obtain ⟨_, _, _, _, _, _, _, rfl⟩ := h
  rfl

/-- A body that ends as the walk `w` does, with the bytes of `w` written, makes a DECODE with that outcome. -/
theorem decoded_of_body {s u : State} {w : WalkEnd × List Byte}
    (run : decodeBody (accept .decode s) = (endOf w.1 u).bind (fun v => .ok (v.withOlen s.cnt)))
    (obuf : u.obuf = Memory.writeMany s.obuf 0 w.2) (bb : BufferAfterDecode s u.bb) :
    ∃ t, exec .decode s = .next t ∧ Decoded s t w := by
  have shape := decodeBody_shape (accept .decode s)
  have completed : exec .decode s = _ := congrArg complete run
  rw [run] at shape
  obtain ⟨outcome, vs⟩ := w
  cases outcome with
  | allOut =>
    exact ⟨_, completed, shape.touches.1, finish_statusRestKept shape.status,
      finish_endedDone ((congrArg statusErr shape.status).trans (accept_err .decode s)), obuf, rfl, bb⟩
  | exhausted =>
    exact ⟨_, completed, shape.touches.2 _, raiseError_statusRestKept shape.status, raiseError_endedError _ _, obuf, rfl, bb⟩
  | badNode =>
    exact ⟨_, completed, shape.touches.2 _, raiseError_statusRestKept shape.status, raiseError_endedError _ _, obuf, rfl, bb⟩

/-- The state in which the walk begins (R171): accepted, the tree built, the payload unpacked. -/
def unpacked (s : State) : State :=
  (bbUnpack ((build (s.withPhase .build)).withPhase .unpack)).withPhase .walk

theorem decodeBody_of_walk {s : State} (fits : DecodeFits s) (hcnt : s.cnt ≠ 0) (hk : 2 ≤ s.k.toNat) :
    decodeBody s = (walk (unpacked s)).bind (fun v => .ok (v.withOlen v.cnt)) := by
  have someEntry : s.k ≠ 0 := fun h => by simp [h] at hk
  have moreEntries : s.k ≠ 1 := fun h => by simp [h] at hk
  exact (if_neg fits.checksPass).trans ((if_neg hcnt).trans ((if_neg someEntry).trans (if_neg moreEntries)))

/-- The state in which the loop of R172 begins. -/
def walkStart (s : State) : State := ((unpacked s).withOc 0).withCur (unpacked s).tree.root

theorem walk_unpacked_eq (s : State) : walk (unpacked s) = walkLoop (unpacked s).bb.nbits.toNat (walkStart s) := rfl

theorem unpacked_nbits (s : State) : (unpacked s).bb.nbits = BitVec.ofNat 35 (8 * s.plen.toNat) := rfl
theorem walkStart_bb (s : State) : (walkStart s).bb = (unpacked s).bb := rfl
theorem walkStart_rp (s : State) : (walkStart s).bb.rp = 0 := rfl
theorem walkStart_tree (s : State) : (walkStart s).tree = buildTree s.alphabet s.tree := rfl
theorem walkStart_cnt (s : State) : (walkStart s).cnt = s.cnt := by simp [walkStart, unpacked]
theorem walkStart_obuf (s : State) : (walkStart s).obuf = s.obuf := by simp [walkStart, unpacked]
theorem walkStart_cur (s : State) : (walkStart s).cursors.cur = (buildTree s.alphabet s.tree).root := rfl
theorem walkStart_oc (s : State) : (walkStart s).cursors.oc = 0 := rfl

theorem walkStart_bits (s : State) : (bbValue (walkStart s).bb).drop (walkStart s).bb.rp.toNat = payloadBits s := by
  rw [walkStart_rp, walkStart_bb]
  exact bbUnpack_bbValue ((build (s.withPhase .build)).withPhase .unpack)

/-- The walk of DECODE is the walk over the tree built for the Alphabet and the payload's bits. -/
theorem walk_unpacked (s : State) :
    ∃ u, walk (unpacked s) =
        endOf (walkBits (buildTree s.alphabet s.tree) (payloadBits s) (buildTree s.alphabet s.tree).root s.cnt.toNat).1 u ∧
      Walked (walkStart s) u
        (walkBits (buildTree s.alphabet s.tree) (payloadBits s) (buildTree s.alphabet s.tree).root s.cnt.toNat).2 := by
  have walked := walkLoop_eq (n := (unpacked s).bb.nbits.toNat) (k := s.cnt.toNat) (walkStart_bits s)
    (by rw [walkStart_rp, walkStart_bb]; exact Nat.zero_add _) (by rw [walkStart_oc, walkStart_cnt]; exact Nat.zero_add _)
  rwa [walkStart_tree, walkStart_cur, ← walk_unpacked_eq] at walked

theorem codeTreeOf_eq_node {a : List (Byte × Word)} (h2 : 2 ≤ a.length) (hK : a.length ≤ 256) :
    ∃ L R, codeTreeOf a = .node L R := by
  have entries := length_entries_codeTreeOf h2 hK
  cases h : codeTreeOf a with
  | leaf e =>
    rw [h, CodeTree.entries, List.length_singleton] at entries
    omega
  | node L R => exact ⟨L, R, rfl⟩

/-- The walk over the built tree is the outcome of its Alphabet, whatever the tree memory held. -/
theorem walkBits_buildTree {a : List (Byte × Word)} (h2 : 2 ≤ a.length) (hK : a.length ≤ 256) (t0 : TreeBuilder) (bits : Bits)
    {n : Nat} (hn : n ≠ 0) :
    walkBits (buildTree a t0) bits (buildTree a t0).root n = decodeOutcome a bits n := by
  obtain ⟨L, R, tree⟩ := codeTreeOf_eq_node h2 hK
  have shown := buildTree_shows (t0 := t0) (by omega : 1 ≤ a.length) hK
  rw [tree] at shown
  rw [decodeOutcome, if_neg hn, if_neg (by omega), tree]
  exact walkBits_eq_walkTree shown shown bits n

section
variable {s : State} (fits : DecodeFits s)
include fits

theorem DecodeFits.accepted : DecodeFits (accept .decode s) := ⟨fits.k_le, fits.plen_le, fits.cnt_le⟩

theorem decoded_of_noCount (none : s.cnt = 0) : ∃ t, exec .decode s = .next t ∧ Decoded s t (.allOut, []) := by
  refine decoded_of_body (u := build ((accept .decode s).withPhase .build)) ?_ rfl ?_
  · rw [decodeBody_of_noCount fits.accepted none, none]
    rfl
  · rw [BufferAfterDecode, if_pos (.inl none)]
    rfl

theorem decoded_of_noEntries (nonzero : s.cnt ≠ 0) (noEntries : s.k = 0) :
    ∃ t, exec .decode s = .next t ∧ Decoded s t (.badNode, []) := by
  refine decoded_of_body (u := build ((accept .decode s).withPhase .build)) ?_ rfl ?_
  · rw [decodeBody_of_noEntries fits.accepted nonzero noEntries]
    rfl
  · rw [BufferAfterDecode, if_pos (.inr (by rw [noEntries]; exact Nat.zero_le 1))]
    rfl

theorem decoded_of_oneEntry (nonzero : s.cnt ≠ 0) (oneEntry : s.k = 1) :
    ∃ t, exec .decode s = .next t ∧ Decoded s t (.allOut, List.replicate s.cnt.toNat (s.byteAt .alphaSym 0)) := by
  refine decoded_of_body (u := fillSingle (build ((accept .decode s).withPhase .build))) ?_ rfl ?_
  · rw [decodeBody_of_oneEntry fits.accepted nonzero oneEntry]
    rfl
  · rw [BufferAfterDecode, if_pos (.inr (by rw [oneEntry]; exact Nat.le_refl 1))]
    rfl

theorem decoded_of_walk (nonzero : s.cnt ≠ 0) (two : 2 ≤ s.k.toNat) :
    ∃ t, exec .decode s = .next t ∧ Decoded s t
      (walkBits (buildTree s.alphabet s.tree) (payloadBits s) (buildTree s.alphabet s.tree).root s.cnt.toNat) := by
  obtain ⟨u, run, cnt, obuf, nbits, rp⟩ := walk_unpacked (accept .decode s)
  have body := decodeBody_of_walk fits.accepted nonzero two
  simp only [accept_alphabet, accept_payloadBits, accept_tree, accept_cnt, walkStart_obuf, walkStart_cnt, walkStart_oc,
    accept_obuf] at run cnt obuf
  rw [run] at body
  refine decoded_of_body (u := u) (body.trans ?_) obuf ?_
  · cases (walkBits (buildTree s.alphabet s.tree) (payloadBits s) (buildTree s.alphabet s.tree).root s.cnt.toNat).1 with
    | allOut => rw [endOf, Run.bind_ok, Run.bind_ok, cnt]
    | exhausted => rfl
    | badNode => rfl
  · rw [BufferAfterDecode, if_neg (by rintro (h | h); exacts [nonzero h, absurd two (by omega)])]
    rw [walkStart_bb, unpacked_nbits] at nbits
    exact ⟨nbits, rp⟩

end

theorem exec_decode_of_fits {s : State} (fits : DecodeFits s) :
    ∃ t, exec .decode s = .next t ∧ Decoded s t (decodeOutcome s.alphabet (payloadBits s) s.cnt.toNat) := by
  by_cases none : s.cnt = 0
  · have outcome : decodeOutcome s.alphabet (payloadBits s) s.cnt.toNat = (.allOut, []) := by
      rw [decodeOutcome, none]
      rfl
    exact outcome ▸ decoded_of_noCount fits none
  have count : s.cnt.toNat ≠ 0 := fun h => none (BitVec.eq_of_toNat_eq h)
  by_cases noEntries : s.k = 0
  · have outcome : decodeOutcome s.alphabet (payloadBits s) s.cnt.toNat = (.badNode, []) := by
      rw [decodeOutcome, if_neg count, State.length_alphabet, noEntries]
      rfl
    exact outcome ▸ decoded_of_noEntries fits none noEntries
  by_cases oneEntry : s.k = 1
  · have single : s.alphabet = [(s.byteAt .alphaSym 0, s.freqAt 0)] := by rw [State.alphabet, oneEntry]; rfl
    have outcome : decodeOutcome s.alphabet (payloadBits s) s.cnt.toNat =
        (.allOut, List.replicate s.cnt.toNat (s.byteAt .alphaSym 0)) := by
      rw [decodeOutcome, if_neg count, single]
      rfl
    exact outcome ▸ decoded_of_oneEntry fits none oneEntry
  have two : 2 ≤ s.k.toNat := by
    have k0 : s.k.toNat ≠ 0 := fun h => noEntries (BitVec.eq_of_toNat_eq h)
    have k1 : s.k.toNat ≠ 1 := fun h => oneEntry (BitVec.eq_of_toNat_eq h)
    omega
  rw [← walkBits_buildTree (by simpa using two) (by simpa using fits.k_le) s.tree (payloadBits s) count]
  exact decoded_of_walk fits none two

end Sys2Proof.Machine
end

section
/-! PROOFS. The obligations about DECODE (45_decode.md), read off its outcome. -/

namespace Sys2Proof.Machine

/-! ### Ends exclude each other -/

theorem EndedDone.not_error {t : State} (done : EndedDone t) {e : ErrCode} : ¬ EndedError e t :=
  fun error => stDone_ne_stError (done.1.symm.trans error.1)

theorem EndedError.not_error {t : State} {e e' : ErrCode} (error : EndedError e t) (ne : errNumber e ≠ errNumber e') :
    ¬ EndedError e' t :=
  fun error' => ne (error.2.symm.trans error'.2)

theorem EndedAs.allOut_of_done {w : WalkEnd} {t : State} (ended : EndedAs w t) (done : EndedDone t) : w = .allOut := by
  cases w with
  | allOut => rfl
  | exhausted => exact absurd ended done.not_error
  | badNode => exact absurd ended done.not_error

/-! ### Every DECODE -/

/-- `t` is `s` after a DECODE that failed a capacity check (R178). -/
structure DecodeRefused (s t : State) : Prop where
  touches : DecodeTouches s t
  statusRest : StatusRestKept s t
  ended : EndedError .capacity t
  obuf : t.obuf = s.obuf
  olen : t.olen = 0
  bb : t.bb = s.bb

theorem exec_decode_refused {s : State}
    (h : 256 < s.k.toNat ∨ s.cfg.pbufCap < s.plen.toNat ∨ s.cfg.obufCap < s.cnt.toNat) :
    ∃ t, exec .decode s = .next t ∧ DecodeRefused s t :=
  ⟨_, congrArg complete (decodeBody_of_overCapacity (s := accept .decode s) h),
    ⟨_, _, _, _, _, _, _, s.cursors.oc, s.cursors.cur, rfl⟩, raiseError_statusRestKept (i := .decode) rfl,
    raiseError_endedError _ _, rfl, rfl, rfl⟩

theorem exec_decode_cases {s t : State} (run : exec .decode s = .next t) :
    (DecodeFits s ∧ Decoded s t (decodeOutcome s.alphabet (payloadBits s) s.cnt.toNat)) ∨
      (¬ DecodeFits s ∧ DecodeRefused s t) := by
  by_cases fits : DecodeFits s
  · obtain ⟨_, run', decoded⟩ := exec_decode_of_fits fits
    cases run.symm.trans run'
    exact .inl ⟨fits, decoded⟩
  · have exceeds : 256 < s.k.toNat ∨ s.cfg.pbufCap < s.plen.toNat ∨ s.cfg.obufCap < s.cnt.toNat := by
      by_contra none
      exact fits ⟨by omega, by omega, by omega⟩
    obtain ⟨_, run', refused⟩ := exec_decode_refused exceeds
    cases run.symm.trans run'
    exact .inr ⟨fits, refused⟩

theorem exec_decode_touches {s t : State} (run : exec .decode s = .next t) : DecodeTouches s t ∧ StatusRestKept s t := by
  rcases exec_decode_cases run with ⟨-, decoded⟩ | ⟨-, refused⟩
  · exact ⟨decoded.touches, decoded.statusRest⟩
  · exact ⟨refused.touches, refused.statusRest⟩

theorem exec_decode_done {s t : State} (run : exec .decode s = .next t) (done : EndedDone t) :
    DecodeFits s ∧ Decoded s t (decodeOutcome s.alphabet (payloadBits s) s.cnt.toNat) := by
  rcases exec_decode_cases run with decoded | ⟨-, refused⟩
  · exact decoded
  · exact absurd refused.ended done.not_error

theorem DecodeTouches.epoch {s t : State} (h : DecodeTouches s t) : t.epoch = s.epoch := by
  obtain ⟨_, _, _, _, _, _, _, _, _, rfl⟩ := h
  rfl

/-- Byte `i` of OBUF is byte `i` of the outcome, and past its end what it was. -/
theorem Decoded.byteAt_obuf {s t : State} {w : WalkEnd × List Byte} (h : Decoded s t w) (i : Nat) :
    t.byteAt .obuf i = w.2[i]?.getD (s.byteAt .obuf i) :=
  State.byteAt_of_writeMany_zero (sp := .obuf) h.obuf h.touches.epoch i

theorem Decoded.byteAt_obuf_past {s t : State} {w : WalkEnd × List Byte} (h : Decoded s t w) {i : Nat}
    (hi : w.2.length ≤ i) : t.byteAt .obuf i = s.byteAt .obuf i := by
  rw [h.byteAt_obuf, List.getElem?_eq_none hi, Option.getD_none]

/-! ### The obligations -/

/-- Settles O27: the outcome of two or more entries is the walk over the built tree. -/
theorem decodeWalksTheRebuiltTree : Obligations.DecodeWalksTheRebuiltTree := by
  intro s h2 hk hcnt hplen hcap tree w
  have count : s.cnt.toNat ≠ 0 := fun h => hcnt (BitVec.eq_of_toNat_eq h)
  have outcome : w = decodeOutcome s.alphabet (payloadBits s) s.cnt.toNat :=
    walkBits_buildTree (by simpa using h2) (by simpa using hk) s.tree (payloadBits s) count
  have entries : s.alphabet.length ≠ 0 := by rw [State.length_alphabet]; omega
  obtain ⟨-, lengthAll⟩ := length_decodeOutcome s.alphabet (payloadBits s) s.cnt.toNat
  obtain ⟨t, run, decoded⟩ := exec_decode_of_fits ⟨hk, hplen, hcap⟩
  rw [← outcome] at decoded lengthAll
  have walked : ¬ (s.cnt = 0 ∨ s.k.toNat ≤ 1) := by
    rintro (h | h)
    · exact hcnt h
    · omega
  have bb := decoded.bb
  rw [BufferAfterDecode, if_neg walked] at bb
  have ended := decoded.ended
  have olen := decoded.olen
  refine ⟨outcome ▸ decodeOutcome_ne_badNode entries _ _, t, run, decoded.statusRest, ?_, fun i hi => ?_, fun i hi => ?_,
    fun all => ⟨lengthAll all, ?_, ?_⟩, fun exhausted => ⟨?_, ?_⟩⟩
  · rw [bb.1, toNat_unpacked]
  · rw [decoded.byteAt_obuf, List.getElem?_eq_getElem hi, Option.getD_some]
  · exact decoded.byteAt_obuf_past hi
  · rwa [all] at ended
  · rw [olen, if_pos all]
  · rwa [exhausted] at ended
  · rw [olen, if_neg (by rw [exhausted]; decide)]

/-- Settles O28: a walk over a code tree meets no bad node, and a refused DECODE raises another code. -/
theorem decodeNeverMeetsABadNode : Obligations.DecodeNeverMeetsABadNode := by
  intro s t hk run
  have entries : s.alphabet.length ≠ 0 := by rw [State.length_alphabet]; omega
  rcases exec_decode_cases run with ⟨-, decoded⟩ | ⟨-, refused⟩
  · have ended := decoded.ended
    have good := decodeOutcome_ne_badNode entries (payloadBits s) s.cnt.toNat
    cases hw : (decodeOutcome s.alphabet (payloadBits s) s.cnt.toNat).1 with
    | allOut => rw [hw] at ended; exact EndedDone.not_error ended
    | exhausted => rw [hw] at ended; exact EndedError.not_error ended (by decide)
    | badNode => exact absurd hw good
  · exact refused.ended.not_error (by decide)

theorem State.bytesFrom_add (s : State) (sp : ByteSpace) (i m n : Nat) :
    s.bytesFrom sp i (m + n) = s.bytesFrom sp i m ++ s.bytesFrom sp (i + m) n := by
  rw [State.bytesFrom, List.range_add, List.map_append, List.map_map]
  simp only [State.bytesFrom, Function.comp_def, Nat.add_assoc]

/-- A payload that begins with the bytes of another begins with its bits. -/
theorem payloadBits_append {s u : State} (cfg : u.cfg = s.cfg) (longer : s.plen.toNat ≤ u.plen.toNat)
    (same : ∀ i, i < s.plen.toNat → u.byteAt .pbuf i = s.byteAt .pbuf i) :
    ∃ more, payloadBits u = payloadBits s ++ more := by
  have first : u.bytesFrom .pbuf 0 s.plen.toNat = s.bytesFrom .pbuf 0 s.plen.toNat :=
    State.bytesFrom_congr fun j hj => by simpa using same j hj
  refine ⟨(u.bytesFrom .pbuf (0 + s.plen.toNat) (u.plen.toNat - s.plen.toNat)).flatMap (unpackByte u.cfg.packOrder), ?_⟩
  rw [payloadBits, payloadBits, ← first, ← cfg, ← List.flatMap_append, ← State.bytesFrom_add, Nat.add_sub_cancel' longer]

/-- Settles O29: a walk that ends well is that of every longer payload. -/
theorem decodeIgnoresTrailingPayload : Obligations.DecodeIgnoresTrailingPayload := by
  intro s t u run done cfg cnt k entries longer plenFits same
  obtain ⟨⟨hk, -, hcap⟩, decoded⟩ := exec_decode_done run done
  have allOut := decoded.ended.allOut_of_done done
  obtain ⟨more, bits⟩ := payloadBits_append cfg longer same
  obtain ⟨v, runU, decodedU⟩ := exec_decode_of_fits (s := u) ⟨k ▸ hk, plenFits, by rwa [cnt, cfg]⟩
  rw [State.alphabet_congr k entries, cnt, bits, decodeOutcome_append allOut] at decodedU
  have ended := decodedU.ended
  rw [allOut] at ended
  have olen : t.olen = s.cnt := by rw [decoded.olen, if_pos allOut]
  refine ⟨v, runU, ended, by rw [decodedU.olen, olen, if_pos allOut, cnt], fun i hi => ?_⟩
  have below : i < (decodeOutcome s.alphabet (payloadBits s) s.cnt.toNat).2.length := by
    rwa [(length_decodeOutcome _ _ _).2 allOut, ← olen]
  rw [decoded.byteAt_obuf, decodedU.byteAt_obuf, List.getElem?_eq_getElem below, Option.getD_some, Option.getD_some]

/-- Settles O30: only the fields DECODE touches can change, and OBUF below the end of the outcome. -/
theorem decodeFrame : Obligations.DecodeFrame := by
  intro s t run
  obtain ⟨touches, statusRest⟩ := exec_decode_touches run
  have obuf : SameBytesFrom .obuf s.cnt.toNat s t := by
    intro i hi
    rcases exec_decode_cases run with ⟨-, decoded⟩ | ⟨-, refused⟩
    · exact decoded.byteAt_obuf_past ((length_decodeOutcome _ _ _).1.trans hi)
    · rw [State.byteAt, State.byteAt, State.bytesOf, State.bytesOf, refused.obuf, refused.touches.epoch]
  obtain ⟨_, _, _, _, _, _, _, _, _, rfl⟩ := touches
  exact ⟨⟨rfl, rfl, rfl, rfl⟩, rfl, rfl, rfl, rfl, rfl, statusRest, fun _ => rfl, fun _ => rfl, fun _ _ => ⟨rfl, rfl⟩, rfl,
    rfl, rfl, rfl, obuf⟩

end Sys2Proof.Machine
end

section
/-! PROOFS. ENCODE whole (44_encode.md, R155 to R161): the codes of the input, the bits EMIT pushes, and what the command leaves, for every
input within IBUF_CAP. -/

namespace Sys2Proof.Machine

/-! ### The code of a byte -/

/-- The code of a byte of the Alphabet. -/
def codeFor (a : List (Byte × Word)) (b : Byte) : Bits := (recordAll (fun _ => CodeEntry.blank) (codesOf a) b).code

theorem mem_codesOf_codeFor {a : List (Byte × Word)} (distinct : (a.map Prod.fst).Nodup) (hK : a.length ≤ 256) {b : Byte}
    (h : b ∈ a.map Prod.fst) : (b, codeFor a b) ∈ codesOf a := by
  obtain ⟨u, hu⟩ := exists_code hK h
  rwa [codeFor, recordAll_of_mem ((bytes_codesOf hK).nodup_iff.2 distinct) hu]

theorem HoldsCodes.eq_codeFor {a : List (Byte × Word)} {g : CodeMapGen} (codes : HoldsCodes a g)
    (distinct : (a.map Prod.fst).Nodup) (hK : a.length ≤ 256) {b : Byte} (h : b ∈ a.map Prod.fst) :
    codeOf g b = entryOf (codeFor a b) :=
  codes.code (mem_codesOf_codeFor distinct hK h)

/-- The bits ENCODE makes of the input: the codes of its bytes, one after another. -/
def encodedBits (s : State) : Bits := (inputOf s).flatMap (codeFor (scannedAlphabet s))

/-! ### Pushing (R93) -/

theorem bbPushSeq_append (cap : Nat) (us vs : Bits) (b : BitBuffer) :
    bbPushSeq cap (us ++ vs) b = (bbPushSeq cap us b).bind (bbPushSeq cap vs) := by
  induction us generalizing b with
  | nil => rfl
  | cons v us ih =>
    rw [List.cons_append, bbPushSeq, bbPushSeq]
    cases bbPushBit cap v b with
    | ok b' => exact ih b'
    | raised e b' => rfl

theorem bbPushSeq_error {cap : Nat} {bits : Bits} {b b' : BitBuffer} {e : ErrCode}
    (h : bbPushSeq cap bits b = .raised e b') : e = .capacity := by
  induction bits generalizing b with
  | nil => cases h
  | cons v vs ih =>
    rw [bbPushSeq] at h
    cases hb : bbPushBit cap v b with
    | ok b1 => rw [hb] at h; exact ih h
    | raised e1 b1 => rw [hb] at h; cases h; exact (bbPushBit_error hb).1

/-! ### EMIT (R157) -/

/-- The bits of one code are pushed as a sequence. -/
theorem emitBits_bb (bits : Bits) (s : State) :
    (emitBits bits s).map State.bb = bbPushSeq s.cfg.bitbufCap bits s.bb := by
  induction bits generalizing s with
  | nil => rfl
  | cons v vs ih =>
    rw [emitBits, bbPushSeq]
    cases bbPushBit s.cfg.bitbufCap v s.bb with
    | ok b => exact ih _
    | raised e b => rfl

theorem Run.map_eq_ok {σ τ : Type} {f : σ → τ} {r : Run σ} {y : τ} (h : r.map f = .ok y) : ∃ x, r = .ok x ∧ f x = y := by
  cases r with
  | ok x => cases h; exact ⟨x, rfl, rfl⟩
  | raised e x => cases h

theorem Run.map_eq_raised {σ τ : Type} {f : σ → τ} {r : Run σ} {e : ErrCode} {y : τ} (h : r.map f = .raised e y) :
    ∃ x, r = .raised e x ∧ f x = y := by
  cases r with
  | ok x => cases h
  | raised e x => cases h; exact ⟨x, rfl, rfl⟩

theorem EmitShape.keeps {s t : State} (h : EmitShape s t) :
    t.cfg = s.cfg ∧ t.gen = s.gen ∧ ∀ i, t.byteAt .ibuf i = s.byteAt .ibuf i := by
  obtain ⟨_, _, _, rfl⟩ := h
  exact ⟨rfl, rfl, fun _ => rfl⟩

theorem emitBits_ip {bits : Bits} {s t : State} (h : emitBits bits s = .ok t) : t.cursors.ip = s.cursors.ip := by
  induction bits generalizing s with
  | nil => cases h; rfl
  | cons v vs ih =>
    rw [emitBits] at h
    cases hb : bbPushBit s.cfg.bitbufCap v s.bb with
    | ok b => rw [hb] at h; exact (ih h :)
    | raised e b => rw [hb] at h; cases h

theorem first_entryOf {u : Bits} (h : u.length ≤ 255) : Table.first false (entryOf u).len.toNat (entryOf u).code = u := by
  rw [len_entryOf h]
  exact (Table.first_eq_append false (Nat.le_refl _)).trans (by simp)

/-- The loop pushes the codes of the bytes it reads, if each has one. -/
theorem emitLoop_bb {code : Byte → Bits} {n : Nat} {s : State} (hip : s.cursors.ip.toNat + n < 2 ^ 32)
    (coded : ∀ b ∈ s.bytesFrom .ibuf s.cursors.ip.toNat n, codeOf s.gen b = entryOf (code b) ∧ (code b).length ≤ 255) :
    (emitLoop n s).map State.bb =
      bbPushSeq s.cfg.bitbufCap ((s.bytesFrom .ibuf s.cursors.ip.toNat n).flatMap code) s.bb := by
  induction n generalizing s with
  | zero => rfl
  | succ n ih =>
    rw [State.bytesFrom_succ] at coded ⊢
    obtain ⟨entry, short⟩ := coded _ List.mem_cons_self
    rw [emitLoop, List.flatMap_cons, bbPushSeq_append]
    simp only [entry, first_entryOf short]
    rw [if_pos (show (entryOf _).valid = true from rfl)]
    have pushed := emitBits_bb (code (s.byteAt .ibuf s.cursors.ip.toNat)) (s.withCb 0)
    rw [State.withCb_eq, State.withCursors_cfg, State.withCursors_bb, ← State.withCb_eq] at pushed
    have shape := emitBits_shape (code (s.byteAt .ibuf s.cursors.ip.toNat)) (s.withCb 0)
    rw [← pushed]
    cases run : emitBits (code (s.byteAt .ibuf s.cursors.ip.toNat)) (s.withCb 0) with
    | raised e t => rfl
    | ok t =>
      rw [run] at shape
      obtain ⟨cfg, gen, ibuf⟩ := shape.keeps
      have next : (t.withIp (t.cursors.ip + 1)).cursors.ip.toNat = s.cursors.ip.toNat + 1 := by
        have ip : t.cursors.ip = (s.withCb 0).cursors.ip := emitBits_ip run
        rw [State.withIp_eq, State.withCursors_cursors, Cursors.withIp_ip, ip]
        exact BitVec.toNat_add_of_lt (y := 1#32) (by simpa using by omega)
      have read : (t.withIp (t.cursors.ip + 1)).bytesFrom .ibuf (t.withIp (t.cursors.ip + 1)).cursors.ip.toNat n =
          s.bytesFrom .ibuf (s.cursors.ip.toNat + 1) n := by
        rw [next]
        exact State.bytesFrom_congr fun j _ => ibuf _
      have tail := ih (s := t.withIp (t.cursors.ip + 1)) (by rw [next]; omega)
        (fun b hb => by
          have entryB := coded b (List.mem_cons_of_mem _ (read ▸ hb))
          rwa [← show (t.withIp (t.cursors.ip + 1)).gen = s.gen from gen] at entryB)
      rw [read] at tail
      rw [Run.bind_ok, Run.map_ok, Run.bind_ok]
      exact tail.trans (by rw [show (t.withIp (t.cursors.ip + 1)).cfg = s.cfg from cfg]; rfl)

/-! ### SCAN's results in the Alphabet memories -/

/-- The Alphabet memories of `t` are those of `s` with the entries `a` written from entry 0 on. -/
structure EntriesWritten (a : List (Byte × Word)) (s t : State) : Prop where
  symbol : ∀ j, t.byteAt .alphaSym j = (a[j]?.map Prod.fst).getD (s.byteAt .alphaSym j)
  freq : ∀ j, t.freqAt j = (a[j]?.map Prod.snd).getD (s.freqAt j)
  canonical : CanonicalAlphabet s → CanonicalAlphabet t

theorem Scanned.entriesWritten {s t : State} {l : List Byte} (h : Scanned s l t) : EntriesWritten (wordAlphabet l) s t := by
  have entry (j : Nat) (hj : j < (wordAlphabet l).length) : (wordAlphabet l)[j]? = some (t.byteAt .alphaSym j, t.freqAt j) := by
    have inside : j < t.alphabet.length := by rwa [h.alphabet]
    rw [← h.alphabet, List.getElem?_eq_getElem inside, State.getElem_alphabet]
  refine ⟨fun j => ?_, fun j => ?_, h.canonical⟩ <;> by_cases hj : j < (wordAlphabet l).length
  · rw [entry j hj]; rfl
  · rw [List.getElem?_eq_none (Nat.le_of_not_lt hj)]; exact (h.rest j (Nat.le_of_not_lt hj)).1
  · rw [entry j hj]; rfl
  · rw [List.getElem?_eq_none (Nat.le_of_not_lt hj)]; exact (h.rest j (Nat.le_of_not_lt hj)).2

theorem EntriesWritten.rest {a : List (Byte × Word)} {s t : State} (h : EntriesWritten a s t) :
    SameEntriesFrom a.length s t := by
  intro j hj
  rw [h.symbol, h.freq, List.getElem?_eq_none hj]
  exact ⟨rfl, rfl⟩

theorem EntriesWritten.alphabet {a : List (Byte × Word)} {s t : State} (h : EntriesWritten a s t)
    (hk : t.k.toNat = a.length) : t.alphabet = a := by
  apply List.ext_getElem
  · rw [State.length_alphabet, hk]
  · intro j _ hj
    rw [State.getElem_alphabet, h.symbol, h.freq, List.getElem?_eq_getElem hj]
    rfl

end Sys2Proof.Machine
end

section
/-! PROOFS. ENCODE between acceptance and completion (44_encode.md, R156, R161): the state EMIT begins in, its two ends, and what each
leaves. -/

namespace Sys2Proof.Machine

/-- The fields ENCODE can change. -/
def EncodeTouches (s t : State) : Prop :=
  ∃ status cmdr cnt k plen pbuf sym freq phase tree gen bb ip cb j,
    t = { s with
          status := status, cmdr := cmdr, cnt := cnt, k := k, plen := plen, pbuf := pbuf, alphaSym := sym, alphaFreq := freq
          phase := phase, tree := tree, gen := gen, bb := bb, cursors := { s.cursors with ip := ip, cb := cb, j := j } }

theorem EncodeShape.touches {s u : State} (h : EncodeShape (accept .encode s) u) :
    EncodeTouches s (finish u) ∧ ∀ e, EncodeTouches s (raiseError e u) := by
  obtain ⟨_, _, _, _, _, _, _, _, _, _, _, _, _, rfl⟩ := h
  exact ⟨⟨_, _, _, _, _, _, _, _, _, _, _, _, _, _, _, rfl⟩, fun _ => ⟨_, _, _, _, _, _, _, _, _, _, _, _, _, _, _, rfl⟩⟩

theorem EncodeShape.status {s u : State} (h : EncodeShape s u) : u.status = s.status := by
  obtain ⟨_, _, _, _, _, _, _, _, _, _, _, _, _, rfl⟩ := h
  rfl

/-! ### The state EMIT begins in -/

/-- The state after SCAN, with CNT set (R156). -/
def counted (s : State) : State := (scan (s.withPhase .scan)).withCnt (scan (s.withPhase .scan)).ilen

/-- The state EMIT begins in, the code map of `g` in place. -/
def emitStart (s : State) (g : CodeMapGen) : State :=
  ((((build ((counted s).withPhase .build)).withPhase .genmap)).withGen g).withPhase .emit

/-- What EMIT and its end read of the state EMIT begins in. -/
structure EmitReady (s t : State) : Prop where
  cfg : t.cfg = s.cfg
  ilen : t.ilen = s.ilen
  cnt : t.cnt = s.ilen
  k : t.k.toNat = (scannedAlphabet s).length
  pbuf : t.pbuf = s.pbuf
  bb : t.bb = s.bb
  ibuf : ∀ i, t.byteAt .ibuf i = s.byteAt .ibuf i
  entries : EntriesWritten (scannedAlphabet s) s t

theorem inputOf_withPhase (s : State) (p : Phase) : inputOf (s.withPhase p) = inputOf s := by
  simp [inputOf, State.bytesFrom]

theorem EntriesWritten.congr {a : List (Byte × Word)} {s t s' t' : State} (h : EntriesWritten a s t)
    (sym : s'.alphaSym = s.alphaSym) (freq : s'.alphaFreq = s.alphaFreq) (epoch : s'.epoch = s.epoch)
    (sym' : t'.alphaSym = t.alphaSym) (freq' : t'.alphaFreq = t.alphaFreq) (epoch' : t'.epoch = t.epoch) :
    EntriesWritten a s' t' := by
  refine ⟨fun j => ?_, fun j => ?_, fun canonical => ?_⟩
  · have symbol := h.symbol j
    rwa [State.byteAt, State.byteAt, State.bytesOf, State.bytesOf, ← sym, ← sym', ← epoch, ← epoch'] at symbol
  · have frequency := h.freq j
    rwa [State.freqAt, State.freqAt, ← freq, ← freq', ← epoch, ← epoch'] at frequency
  · have kept := h.canonical
    rw [CanonicalAlphabet, CanonicalAlphabet, ← sym, ← sym', ← freq, ← freq'] at kept
    exact kept canonical

theorem counted_ready (s : State) : EmitReady s (counted s) := by
  have scanned := scanned_scan (s.withPhase .scan)
  rw [inputOf_withPhase] at scanned
  have entries := scanned.entriesWritten.congr (s' := s) (t' := counted s) rfl rfl rfl rfl rfl rfl
  have k := scanned.k
  have shape := scanned.shape
  rw [counted] at entries ⊢
  generalize scan (s.withPhase .scan) = t at *
  obtain ⟨_, _, _, _, _, rfl⟩ := shape
  exact ⟨rfl, rfl, rfl, k, rfl, rfl, fun _ => rfl, entries⟩

theorem emitStart_ready (s : State) (g : CodeMapGen) : EmitReady s (emitStart s g) := by
  have ready := counted_ready s
  rw [emitStart]
  generalize counted s = t at *
  obtain ⟨cfg, ilen, cnt, k, pbuf, bb, ibuf, entries⟩ := ready
  refine ⟨by simpa using cfg, by simpa using ilen, by simpa using cnt, by simpa using k, by simpa using pbuf,
    by simpa using bb, fun i => by simpa using ibuf i, ?_⟩
  exact entries.congr rfl rfl rfl (by simp) (by simp) (by simp)

/-- GENMAP of ENCODE succeeds, and its code map holds the codes of the input's Alphabet (R144, R162 (a)). -/
theorem genCodes_scanned (s : State) :
    ∃ g, genCodes (scannedAlphabet s) (buildTree (scannedAlphabet s) s.tree) s.gen = .ok g ∧
      HoldsCodes (scannedAlphabet s) g :=
  genCodes_holdsCodes (nodup_wordAlphabet _) (length_wordAlphabet_le _) s.tree s.gen

theorem counted_hidden (s : State) : (counted s).tree = s.tree ∧ (counted s).gen = s.gen := by
  have shape := scan_shape (s.withPhase .scan)
  rw [counted]
  generalize scan (s.withPhase .scan) = t at *
  obtain ⟨_, _, _, _, _, rfl⟩ := shape
  exact ⟨rfl, rfl⟩

theorem genmap_built {t : State} {g : CodeMapGen}
    (h : genCodes t.alphabet (buildTree t.alphabet t.tree) t.gen = .ok g) :
    genmap ((build (t.withPhase .build)).withPhase .genmap) = .ok (((build (t.withPhase .build)).withPhase .genmap).withGen g) := by
  have alphabet : ((build (t.withPhase .build)).withPhase .genmap).alphabet = t.alphabet := by simp [State.alphabet]
  have built : ((build (t.withPhase .build)).withPhase .genmap).tree = buildTree t.alphabet t.tree := by
    simp [State.alphabet]
  have gen : ((build (t.withPhase .build)).withPhase .genmap).gen = t.gen := by simp
  rw [genmap, alphabet, built, gen, h, Run.map_ok]

theorem encodeBody_of_fits {s : State} {g : CodeMapGen} (hcap : s.ilen.toNat ≤ s.cfg.ibufCap)
    (hg : genCodes (scannedAlphabet s) (buildTree (scannedAlphabet s) s.tree) s.gen = .ok g) :
    encodeBody s = ((emit (emitStart s g)).onRaise emptyContainer).bind (fun v => .ok (bbPack (v.withPhase .pack))) := by
  obtain ⟨tree, gen⟩ := counted_hidden s
  have ready := counted_ready s
  have mapped := genmap_built (t := counted s) (g := g) (by rwa [ready.entries.alphabet ready.k, tree, gen])
  rw [counted] at mapped
  rw [encodeBody, if_neg (Nat.not_lt.2 hcap)]
  simp only
  rw [mapped, Run.bind_ok]
  rfl

/-! ### EMIT on it -/

theorem mem_inputOf {s : State} {b : Byte} (h : b ∈ inputOf s) : b ∈ (scannedAlphabet s).map Prod.fst :=
  mem_bytes_wordAlphabet.2 h

theorem length_codeFor {s : State} {b : Byte} (h : b ∈ inputOf s) :
    1 ≤ (codeFor (scannedAlphabet s) b).length ∧ (codeFor (scannedAlphabet s) b).length ≤ 255 := by
  have hK : (scannedAlphabet s).length ≤ 256 := length_wordAlphabet_le _
  have code := mem_codesOf_codeFor (nodup_wordAlphabet _) hK (mem_inputOf h)
  have bound := length_le_of_mem_codesOf hK code
  exact ⟨length_pos_of_mem_codesOf hK code, bound.trans (by omega)⟩

theorem emit_bb {s u : State} (ready : EmitReady s u) (codes : HoldsCodes (scannedAlphabet s) u.gen) :
    (emit u).map State.bb = bbPushSeq s.cfg.bitbufCap (encodedBits s) (bbClear s.bb) := by
  have input : ((u.withBb (bbClear u.bb)).withIp 0).bytesFrom .ibuf 0 u.ilen.toNat = inputOf s := by
    rw [inputOf, ready.ilen]
    exact State.bytesFrom_congr fun j _ => ready.ibuf _
  have coded : ∀ b ∈ inputOf s, codeOf u.gen b = entryOf (codeFor (scannedAlphabet s) b) ∧
      (codeFor (scannedAlphabet s) b).length ≤ 255 := fun b hb =>
    ⟨codes.eq_codeFor (nodup_wordAlphabet _) (length_wordAlphabet_le _) (mem_inputOf hb), (length_codeFor hb).2⟩
  have pushed := emitLoop_bb (code := codeFor (scannedAlphabet s)) (n := u.ilen.toNat)
    (s := (u.withBb (bbClear u.bb)).withIp 0) (by simpa using u.ilen.isLt) (fun b hb => coded b (input ▸ hb))
  rw [show ((u.withBb (bbClear u.bb)).withIp 0).cursors.ip.toNat = 0 from rfl, input] at pushed
  rw [emit, pushed, encodedBits, ← ready.bb, ← ready.cfg]
  rfl

/-! ### The two ends -/

/-- `t` is `s` after an ENCODE whose codes fit, `b` the BitBuffer after EMIT. -/
structure Encoded (s t : State) (b : BitBuffer) : Prop where
  touches : EncodeTouches s t
  statusRest : StatusRestKept s t
  ended : EndedDone t
  entries : EntriesWritten (scannedAlphabet s) s t
  k : t.k.toNat = (scannedAlphabet s).length
  cnt : t.cnt = s.ilen
  bb : t.bb = b
  plen : t.plen = BitVec.ofNat 32 (ceil8 b.nbits.toNat)
  pbuf : t.pbuf = Memory.writeMany s.pbuf 0 (packBytes s.cfg.packOrder (ceil8 b.nbits.toNat) (bbValue b))

/-- `t` is `s` after an ENCODE whose codes do not fit (R161 (b)). -/
structure EncodeOverflowed (s t : State) : Prop where
  touches : EncodeTouches s t
  statusRest : StatusRestKept s t
  ended : EndedError .capacity t
  entries : EntriesWritten (scannedAlphabet s) s t
  k : t.k = 0
  cnt : t.cnt = 0
  plen : t.plen = 0
  nbits : t.bb.nbits = 0
  rp : t.bb.rp = 0
  pbuf : t.pbuf = s.pbuf

theorem EmitReady.ofShape {s u v : State} (ready : EmitReady s u) (shape : EmitShape u v) :
    v.cfg = s.cfg ∧ v.cnt = s.ilen ∧ v.k.toNat = (scannedAlphabet s).length ∧ v.pbuf = s.pbuf ∧
      EntriesWritten (scannedAlphabet s) s v := by
  obtain ⟨cfg, -, cnt, k, pbuf, -, -, entries⟩ := ready
  obtain ⟨_, _, _, rfl⟩ := shape
  exact ⟨cfg, cnt, k, pbuf, entries.congr rfl rfl rfl rfl rfl rfl⟩

theorem encodedBits_accept (i : Instr) (s : State) :
    scannedAlphabet (accept i s) = scannedAlphabet s ∧ encodedBits (accept i s) = encodedBits s := by
  have input : inputOf (accept i s) = inputOf s := by simp [inputOf, State.bytesFrom]
  have alphabet : scannedAlphabet (accept i s) = scannedAlphabet s := by rw [scannedAlphabet, input, scannedAlphabet]
  exact ⟨alphabet, by rw [encodedBits, input, alphabet, encodedBits]⟩

/-- ENCODE of an input within IBUF_CAP: it ends DONE if pushing the codes does not overflow, else with ERR_CAPACITY. -/
theorem exec_encode_of_fits {s : State} (hcap : s.ilen.toNat ≤ s.cfg.ibufCap) :
    ∃ t, exec .encode s = .next t ∧
      ((∃ b, bbPushSeq s.cfg.bitbufCap (encodedBits s) (bbClear s.bb) = .ok b ∧ Encoded s t b) ∨
        (∃ b, bbPushSeq s.cfg.bitbufCap (encodedBits s) (bbClear s.bb) = .raised .capacity b ∧ EncodeOverflowed s t)) := by
  obtain ⟨g, hg, codes⟩ := genCodes_scanned (accept .encode s)
  have body := encodeBody_of_fits (s := accept .encode s) hcap hg
  have ready := emitStart_ready (accept .encode s) g
  have bodyShape := encodeBody_shape (accept .encode s)
  have emitShape := emit_shape (emitStart (accept .encode s) g)
  have pushed := emit_bb ready codes
  obtain ⟨alphabet, bits⟩ := encodedBits_accept .encode s
  rw [bits, accept_cfg, accept_bb] at pushed
  rw [body] at bodyShape
  have completed : exec .encode s = _ := congrArg complete body
  cases pushes : bbPushSeq s.cfg.bitbufCap (encodedBits s) (bbClear s.bb) with
  | ok b =>
    obtain ⟨v, run, bb⟩ := Run.map_eq_ok (pushed.trans pushes)
    rw [run] at emitShape bodyShape completed
    obtain ⟨cfg, cnt, k, pbuf, entries⟩ := ready.ofShape emitShape
    refine ⟨_, completed, .inl ⟨b, rfl, bodyShape.touches.1, finish_statusRestKept bodyShape.status,
      finish_endedDone ((congrArg statusErr bodyShape.status).trans (accept_err .encode s)), ?_, ?_, cnt, bb, ?_, ?_⟩⟩
    · exact alphabet ▸ entries.congr rfl rfl rfl rfl rfl rfl
    · exact alphabet ▸ k
    · rw [← bb]
      rfl
    · rw [← bb, ← accept_pbuf .encode s, ← accept_cfg .encode s, ← pbuf, ← cfg]
      rfl
  | raised e b =>
    obtain rfl := bbPushSeq_error pushes
    obtain ⟨v, run, bb⟩ := Run.map_eq_raised (pushed.trans pushes)
    rw [run] at emitShape bodyShape completed
    obtain ⟨cfg, cnt, k, pbuf, entries⟩ := ready.ofShape emitShape
    exact ⟨_, completed, .inr ⟨b, rfl, bodyShape.touches.2 _, raiseError_statusRestKept bodyShape.status,
      raiseError_endedError _ _, alphabet ▸ entries.congr rfl rfl rfl rfl rfl rfl, rfl, rfl, rfl, rfl, rfl, pbuf⟩⟩

/-- R161 (a): an input longer than IBUF_CAP is refused before any write. -/
theorem exec_encode_of_long {s : State} (h : s.cfg.ibufCap < s.ilen.toNat) :
    exec .encode s = .next (raiseError .capacity (accept .encode s)) :=
  congrArg complete (if_pos h : encodeBody (accept .encode s) = _)

end Sys2Proof.Machine
end

section
/-! PROOFS. The obligations about ENCODE (44_encode.md, R155 to R162) and the round trip (45_decode.md, R180). -/

namespace Sys2Proof.Machine

/-! ### Every ENCODE -/

theorem exec_encode_cases {s t : State} (run : exec .encode s = .next t) :
    (s.cfg.ibufCap < s.ilen.toNat ∧ t = raiseError .capacity (accept .encode s)) ∨
      (∃ b, bbPushSeq s.cfg.bitbufCap (encodedBits s) (bbClear s.bb) = .ok b ∧ Encoded s t b) ∨ EncodeOverflowed s t := by
  by_cases hcap : s.ilen.toNat ≤ s.cfg.ibufCap
  · obtain ⟨_, run', ⟨b, pushes, encoded⟩ | ⟨-, -, overflowed⟩⟩ := exec_encode_of_fits hcap <;> cases run.symm.trans run'
    · exact .inr (.inl ⟨b, pushes, encoded⟩)
    · exact .inr (.inr overflowed)
  · have long := Nat.lt_of_not_le hcap
    cases run.symm.trans (exec_encode_of_long long)
    exact .inl ⟨long, rfl⟩

theorem exec_encode_done {s t : State} (run : exec .encode s = .next t) (done : EndedDone t) :
    ∃ b, bbPushSeq s.cfg.bitbufCap (encodedBits s) (bbClear s.bb) = .ok b ∧ Encoded s t b := by
  rcases exec_encode_cases run with ⟨-, rfl⟩ | encoded | overflowed
  · exact absurd (raiseError_endedError _ _) done.not_error
  · exact encoded
  · exact absurd overflowed.ended done.not_error

theorem EncodeTouches.epoch {s t : State} (h : EncodeTouches s t) : t.epoch = s.epoch := by
  obtain ⟨_, _, _, _, _, _, _, _, _, _, _, _, _, _, _, rfl⟩ := h
  rfl

theorem EncodeTouches.cfg {s t : State} (h : EncodeTouches s t) : t.cfg = s.cfg := by
  obtain ⟨_, _, _, _, _, _, _, _, _, _, _, _, _, _, _, rfl⟩ := h
  rfl

/-! ### The pushed bits on legal parameters -/

theorem Config.pbufCap_lt_of_wellFormed {c : Config} (h : c.wellFormed = true) : c.pbufCap < 2 ^ 32 := by
  simp only [Config.wellFormed, Bool.and_eq_true, decide_eq_true_eq] at h
  obtain ⟨-, -, hpbuf⟩ := h
  exact hpbuf

theorem Config.bitbufCap_lt_of_wellFormed {c : Config} (h : c.wellFormed = true) : c.bitbufCap < 2 ^ 35 := by
  have := Config.pbufCap_lt_of_wellFormed h
  rw [Config.bitbufCap]
  omega

section
variable {s t : State} {b : BitBuffer} (legal : s.cfg.wellFormed = true)
include legal

/-- The codes are pushed whole exactly when they fit. -/
theorem pushes_iff_fits : (encodedBits s).length ≤ 8 * s.cfg.pbufCap ↔
    ∃ b, bbPushSeq s.cfg.bitbufCap (encodedBits s) (bbClear s.bb) = .ok b ∧ bbValue b = encodedBits s := by
  have cap := Config.bitbufCap_lt_of_wellFormed legal
  constructor
  · intro fits
    obtain ⟨b, pushes, value, -⟩ := bbPushSeq_of_fits (b := bbClear s.bb) cap ((Nat.zero_add _).trans_le fits)
    exact ⟨b, pushes, value⟩
  · rintro ⟨b, pushes, -⟩
    by_contra exceeds
    obtain ⟨_, raised, -⟩ := bbPushSeq_of_overflows (b := bbClear s.bb) (bits := encodedBits s) cap (Nat.zero_le _)
      ((Nat.lt_of_not_le exceeds).trans_eq (Nat.zero_add _).symm)
    cases pushes.symm.trans raised

theorem value_of_pushes (pushes : bbPushSeq s.cfg.bitbufCap (encodedBits s) (bbClear s.bb) = .ok b) :
    bbValue b = encodedBits s ∧ (encodedBits s).length ≤ 8 * s.cfg.pbufCap := by
  by_cases fits : (encodedBits s).length ≤ 8 * s.cfg.pbufCap
  · obtain ⟨_, pushes', value⟩ := (pushes_iff_fits legal).1 fits
    cases pushes.symm.trans pushes'
    exact ⟨value, fits⟩
  · obtain ⟨_, raised, -⟩ := bbPushSeq_of_overflows (b := bbClear s.bb) (bits := encodedBits s)
      (Config.bitbufCap_lt_of_wellFormed legal) (Nat.zero_le _)
      ((Nat.lt_of_not_le fits).trans_eq (Nat.zero_add _).symm)
    cases pushes.symm.trans raised

/-- NBITS, PLEN and the payload after a successful ENCODE. -/
structure PayloadOf (s t : State) : Prop where
  value : bbValue t.bb = encodedBits s
  nbits : t.bb.nbits.toNat = (encodedBits s).length
  plen : t.plen.toNat = ((encodedBits s).length + 7) / 8
  fits : t.plen.toNat ≤ s.cfg.pbufCap
  bytes : ∀ i, t.byteAt .pbuf i =
    (packBytes s.cfg.packOrder t.plen.toNat (encodedBits s))[i]?.getD (s.byteAt .pbuf i)

theorem Encoded.payload (encoded : Encoded s t b)
    (pushes : bbPushSeq s.cfg.bitbufCap (encodedBits s) (bbClear s.bb) = .ok b) : PayloadOf s t := by
  obtain ⟨value, fits⟩ := value_of_pushes legal pushes
  have nbits : b.nbits.toNat = (encodedBits s).length := by rw [← value, length_bbValue]
  have cap := Config.pbufCap_lt_of_wellFormed legal
  have plen : t.plen.toNat = ((encodedBits s).length + 7) / 8 := by
    rw [encoded.plen, nbits, ceil8, BitVec.toNat_ofNat]
    omega
  refine ⟨encoded.bb ▸ value, encoded.bb ▸ nbits, plen, by omega, fun i => ?_⟩
  rw [State.byteAt_of_writeMany_zero (sp := .pbuf) encoded.pbuf encoded.touches.epoch, value, nbits, plen, ceil8]

end

theorem PayloadOf.bytesFrom {s t : State} (h : PayloadOf s t) :
    t.bytesFrom .pbuf 0 t.plen.toNat = packBytes s.cfg.packOrder t.plen.toNat (encodedBits s) := by
  apply List.ext_getElem
  · simp
  · intro i _ hi
    rw [State.getElem_bytesFrom, Nat.zero_add, h.bytes, List.getElem?_eq_getElem hi, Option.getD_some]

/-! ### The obligations -/

/-- Settles O31, by the first test of the command. -/
theorem encodeRefusesALongInput : Obligations.EncodeRefusesALongInput := by
  intro s long
  exact ⟨_, exec_encode_of_long long, raiseError_endedError _ _, raiseError_statusRestKept (i := .encode) rfl, rfl⟩

/-- Settles O36: the code map holds the codes of the scanned Alphabet, and the pushed bits fit or they do not. -/
theorem encodePacksTheCodesOfTheInput : Obligations.EncodePacksTheCodesOfTheInput := by
  intro s legal hcap a
  obtain ⟨g, run, codes⟩ := genCodes_scanned s
  have hK : a.length ≤ 256 := length_wordAlphabet_le _
  have bits : (inputOf s).flatMap (fun b => (codeOf g b).code) = encodedBits s := by
    rw [encodedBits]
    refine List.flatMap_congr fun b hb => ?_
    rw [codes.eq_codeFor (nodup_wordAlphabet _) hK (mem_inputOf hb), entryOf]
  refine ⟨g, run, fun b hb => (codes.valid_iff hK).2 (mem_inputOf hb), ?_⟩
  simp only [bits]
  obtain ⟨t, ran, ends⟩ := exec_encode_of_fits hcap
  split
  · next fits =>
    obtain ⟨b, pushes, -⟩ := (pushes_iff_fits legal).1 fits
    rcases ends with ⟨b', pushes', encoded⟩ | ⟨b', raised, -⟩
    · have payload := encoded.payload legal pushes'
      exact ⟨t, ran, encoded.ended, encoded.statusRest, encoded.entries.alphabet encoded.k, encoded.cnt, payload.nbits,
        payload.value, payload.plen, payload.bytesFrom⟩
    · cases pushes.symm.trans raised
  · next overflows =>
    rcases ends with ⟨b', pushes, -⟩ | ⟨b', -, failed⟩
    · exact absurd (value_of_pushes legal pushes).2 overflows
    · refine ⟨t, ran, failed.ended, failed.statusRest, failed.k, failed.cnt, failed.plen, failed.nbits, failed.rp,
        fun i => ?_⟩
      rw [State.byteAt, State.byteAt, State.bytesOf, State.bytesOf, failed.pbuf, failed.touches.epoch]

/-- The codes of a list of bytes are as long as the list, at least, and 255 times as long, at most. -/
theorem length_flatMap_codes {code : Byte → Bits} {l : List Byte} (h : ∀ b ∈ l, 1 ≤ (code b).length ∧ (code b).length ≤ 255) :
    l.length ≤ (l.flatMap code).length ∧ (l.flatMap code).length ≤ 255 * l.length := by
  induction l with
  | nil => exact ⟨Nat.le_refl _, Nat.le_refl _⟩
  | cons b l ih =>
    obtain ⟨low, high⟩ := ih fun c hc => h c (List.mem_cons_of_mem _ hc)
    obtain ⟨pos, short⟩ := h b List.mem_cons_self
    rw [List.flatMap_cons, List.length_append, List.length_cons]
    omega

theorem length_inputOf (s : State) : (inputOf s).length = s.ilen.toNat := State.length_bytesFrom _ _ _ _

theorem getElem_inputOf (s : State) (i : Nat) (h : i < (inputOf s).length) : (inputOf s)[i] = s.byteAt .ibuf i :=
  (State.getElem_bytesFrom _ _ _ _ _ h).trans (by rw [Nat.zero_add])

/-- The 32-bit counts are exact (R113). -/
theorem toNat_count {s : State} {e : Byte × Nat} (h : e ∈ alphabetOf (inputOf s)) : (BitVec.ofNat 32 e.2).toNat = e.2 := by
  have bound : (inputOf s).count e.1 ≤ (inputOf s).length := List.count_le_length
  have small := s.ilen.isLt
  rw [length_inputOf] at bound
  rw [(count_alphabetOf h).2, BitVec.toNat_ofNat]
  exact Nat.mod_eq_of_lt (by omega)

/-- Settles O37: the Alphabet is the input's, and every code has 1 to 255 bits. -/
theorem successfulEncodeContainer : Obligations.SuccessfulEncodeContainer := by
  intro s t legal run done
  obtain ⟨b, pushes, encoded⟩ := exec_encode_done run done
  have payload := encoded.payload legal pushes
  have alphabet := encoded.entries.alphabet encoded.k
  obtain ⟨low, high⟩ := length_flatMap_codes (l := inputOf s) fun b hb => length_codeFor hb
  rw [length_inputOf] at low high
  have hK : (scannedAlphabet s).length ≤ 256 := length_wordAlphabet_le _
  rw [alphabet, payload.nbits, payload.plen]
  refine ⟨encoded.k.trans_le hK, encoded.cnt, rfl, nodup_wordAlphabet _, fun e he => ?_, ?_, low, high⟩
  · obtain ⟨e, inAlphabet, rfl⟩ := List.mem_map.1 he
    obtain ⟨present, count⟩ := count_alphabetOf inAlphabet
    show 1 ≤ (BitVec.ofNat 32 e.2).toNat
    rw [toNat_count inAlphabet, count]
    exact List.count_pos_iff.2 present
  · have counts : (scannedAlphabet s).map (fun e => e.2.toNat) = (alphabetOf (inputOf s)).map Prod.snd := by
      rw [scannedAlphabet, List.map_map]
      exact List.map_congr_left fun e he => toNat_count he
    rw [counts, sum_alphabetOf, length_inputOf, encoded.cnt]

/-- Settles O38: only the fields ENCODE touches can change, and of those memories the entries SCAN writes and the payload. -/
theorem encodeFrame : Obligations.EncodeFrame := by
  intro s t legal run
  have facts : EncodeTouches s t ∧ StatusRestKept s t ∧ SameEntriesFrom (scannedAlphabet s).length s t ∧
      (EndedDone t → SameBytesFrom .pbuf t.plen.toNat s t) ∧ (¬ EndedDone t → SameBytes .pbuf s t) := by
    rcases exec_encode_cases run with ⟨-, rfl⟩ | ⟨b, pushes, encoded⟩ | failed
    · exact ⟨⟨_, _, _, _, _, _, _, _, _, _, _, _, s.cursors.ip, s.cursors.cb, s.cursors.j, rfl⟩,
        raiseError_statusRestKept (i := .encode) rfl, fun _ _ => ⟨rfl, rfl⟩, fun _ _ _ => rfl, fun _ _ => rfl⟩
    · refine ⟨encoded.touches, encoded.statusRest, encoded.entries.rest, fun _ i hi => ?_, fun not => absurd encoded.ended not⟩
      rw [(encoded.payload legal pushes).bytes, List.getElem?_eq_none (by simpa using hi), Option.getD_none]
    · refine ⟨failed.touches, failed.statusRest, failed.entries.rest, fun done => absurd failed.ended done.not_error,
        fun _ i => ?_⟩
      rw [State.byteAt, State.byteAt, State.bytesOf, State.bytesOf, failed.pbuf, failed.touches.epoch]
  obtain ⟨⟨_, _, _, _, _, _, _, _, _, _, _, _, _, _, _, rfl⟩, statusRest, entries, payload, kept⟩ := facts
  exact ⟨⟨rfl, rfl, rfl, rfl⟩, rfl, rfl, rfl, statusRest, fun _ => rfl, fun _ => rfl, rfl, rfl, entries, payload, kept⟩

theorem inputOf_congr {s s' : State} (ilen : s'.ilen = s.ilen)
    (same : ∀ i, i < s.ilen.toNat → s'.byteAt .ibuf i = s.byteAt .ibuf i) : inputOf s' = inputOf s := by
  rw [inputOf, inputOf, ilen]
  exact State.bytesFrom_congr fun j hj => by simpa using same j hj

/-- The Alphabet and the code bits are functions of the input. -/
theorem encodedBits_congr {s s' : State} (input : inputOf s' = inputOf s) :
    scannedAlphabet s' = scannedAlphabet s ∧ encodedBits s' = encodedBits s := by
  have alphabet : scannedAlphabet s' = scannedAlphabet s := by rw [scannedAlphabet, input, scannedAlphabet]
  exact ⟨alphabet, by rw [encodedBits, input, alphabet, encodedBits]⟩

/-- Settles O39: the Alphabet, the code bits and whether they fit are functions of the input and the capacities. -/
theorem encodeDependsOnTheInputAlone : Obligations.EncodeDependsOnTheInputAlone := by
  intro s s' t t' legal cfg ilen same run run' done
  obtain ⟨b, pushes, encoded⟩ := exec_encode_done run done
  obtain ⟨alphabet, bits⟩ := encodedBits_congr (inputOf_congr ilen same)
  have legal' : s'.cfg.wellFormed = true := cfg ▸ legal
  have hcap : s'.ilen.toNat ≤ s'.cfg.ibufCap := by
    rw [ilen, cfg]
    refine Nat.le_of_not_lt fun long => ?_
    cases run.symm.trans (exec_encode_of_long long)
    exact done.not_error (raiseError_endedError _ _)
  have fits := (value_of_pushes legal pushes).2
  rw [← bits, ← cfg] at fits
  obtain ⟨_, run'', ends⟩ := exec_encode_of_fits hcap
  cases run'.symm.trans run''
  obtain ⟨b', pushes', -⟩ := (pushes_iff_fits legal').1 fits
  rcases ends with ⟨b', pushes', encoded'⟩ | ⟨_, raised, -⟩
  · have payload := encoded.payload legal pushes
    have payload' := encoded'.payload legal' pushes'
    have plen : t'.plen.toNat = t.plen.toNat := by rw [payload'.plen, payload.plen, bits]
    have k : t'.k.toNat = t.k.toNat := by rw [encoded'.k, encoded.k, alphabet]
    refine ⟨encoded'.ended, ⟨?_, BitVec.eq_of_toNat_eq k, BitVec.eq_of_toNat_eq plen, fun j hj => ?_, fun i hi => ?_⟩,
      BitVec.eq_of_toNat_eq (by rw [payload'.nbits, payload.nbits, bits])⟩
    · rw [encoded'.cnt, encoded.cnt, ilen]
    · have inside : j < (scannedAlphabet s).length := by rwa [← encoded.k]
      rw [encoded'.entries.symbol, encoded'.entries.freq, encoded.entries.symbol, encoded.entries.freq, alphabet,
        List.getElem?_eq_getElem inside]
      exact ⟨rfl, rfl⟩
    · have inside : i < (packBytes s.cfg.packOrder t.plen.toNat (encodedBits s)).length := by simpa using hi
      rw [payload'.bytes, payload.bytes, bits, cfg, plen, List.getElem?_eq_getElem inside]
      rfl
  · cases pushes'.symm.trans raised

/-- The bits of the payload are the codes of the input and the padding behind them. -/
theorem PayloadOf.payloadBits {s t : State} (h : PayloadOf s t) (cfg : t.cfg = s.cfg) :
    ∃ padding, payloadBits t = encodedBits s ++ padding := by
  have whole : (encodedBits s).length ≤ 8 * t.plen.toNat := by rw [h.plen]; omega
  rw [Machine.payloadBits, cfg, h.bytesFrom, flatMap_unpackByte_packBytes, Table.first_eq_append false whole]
  exact ⟨_, rfl⟩

/-- The codes of the input decode to the input. -/
theorem decodeOutcome_encodedBits (s : State) (padding : Bits) :
    decodeOutcome (scannedAlphabet s) (encodedBits s ++ padding) (inputOf s).length = (.allOut, inputOf s) := by
  have hK : (scannedAlphabet s).length ≤ 256 := length_wordAlphabet_le _
  cases input : inputOf s with
  | nil => rfl
  | cons c cs =>
    have present : c ∈ inputOf s := by rw [input]; exact List.mem_cons_self
    have entries : (scannedAlphabet s).length ≠ 0 := by
      have := List.length_pos_of_mem (mem_inputOf present)
      rw [List.length_map] at this
      omega
    rw [← input, decodeOutcome, if_neg (by rw [input]; exact Nat.succ_ne_zero _), if_neg entries]
    by_cases h2 : 2 ≤ (scannedAlphabet s).length
    · obtain ⟨L, R, tree⟩ := codeTreeOf_eq_node h2 hK
      rw [tree]
      refine walkTree_codes (fun b hb => ?_) padding
      have code : (b, codeFor (scannedAlphabet s) b) ∈ codesOf (scannedAlphabet s) :=
        mem_codesOf_codeFor (nodup_wordAlphabet _) hK (mem_inputOf hb)
      rwa [codesOf_of_two h2, tree] at code
    · obtain ⟨e, single⟩ := List.length_eq_one_iff.1 (by omega : (scannedAlphabet s).length = 1)
      have copies : inputOf s = List.replicate (inputOf s).length e.1 :=
        List.eq_replicate_iff.2 ⟨rfl, fun b hb => by simpa [single] using mem_inputOf hb⟩
      rw [single]
      exact congrArg (Prod.mk _) copies.symm

/-- Settles O40: the payload's bits begin with the codes of the input, which decode to it. -/
theorem decodeInvertsEncode : Obligations.DecodeInvertsEncode := by
  intro s t legal run done hcap
  obtain ⟨b, pushes, encoded⟩ := exec_encode_done run done
  have payload := encoded.payload legal pushes
  have cfg := encoded.touches.cfg
  have hK : (scannedAlphabet s).length ≤ 256 := length_wordAlphabet_le _
  obtain ⟨padding, bits⟩ := payload.payloadBits cfg
  obtain ⟨v, runV, decoded⟩ := exec_decode_of_fits (s := t) ⟨encoded.k.trans_le hK, by rw [cfg]; exact payload.fits, hcap⟩
  rw [encoded.entries.alphabet encoded.k, bits, encoded.cnt, ← length_inputOf, decodeOutcome_encodedBits] at decoded
  refine ⟨v, runV, decoded.ended, decoded.olen.trans encoded.cnt, fun i hi => ?_⟩
  have inside : i < (inputOf s).length := by rwa [length_inputOf]
  rw [decoded.byteAt_obuf, List.getElem?_eq_getElem inside, Option.getD_some, getElem_inputOf]

/-! ### One distinct byte -/

theorem wordAlphabet_replicate (b : Byte) {n : Nat} (h : n ≠ 0) :
    wordAlphabet (List.replicate n b) = [(b, BitVec.ofNat 32 n)] := by
  have once : firstOccurrences [] (List.replicate n b) = [b] := by
    obtain ⟨m, rfl⟩ := Nat.exists_eq_succ_of_ne_zero h
    have later (m : Nat) : firstOccurrences [b] (List.replicate m b) = [b] := by
      induction m with
      | zero => rfl
      | succ m ih => rw [List.replicate_succ, firstOccurrences, if_pos (List.mem_singleton_self b), ih]
    exact later m
  rw [wordAlphabet_eq, once, List.map_singleton, List.count_replicate_self]

theorem packByte_replicate_false (order : PackOrder) (m : Nat) : packByte order (List.replicate m false) = 0 := by
  simp [packByte]

/-- Settles O33: the only code is one 0 bit. -/
theorem encodeOfOneDistinctByte : Obligations.EncodeOfOneDistinctByte := by
  intro s b legal nonempty hcap hfits same
  have count : s.ilen.toNat ≠ 0 := fun h => nonempty (BitVec.eq_of_toNat_eq h)
  have input : inputOf s = List.replicate s.ilen.toNat b := by
    refine List.eq_replicate_iff.2 ⟨length_inputOf s, fun c hc => ?_⟩
    obtain ⟨i, hi, rfl⟩ := List.mem_iff_getElem.1 hc
    rw [length_inputOf] at hi
    simpa [inputOf] using same i hi
  have alphabet : scannedAlphabet s = [(b, s.ilen)] := by
    rw [scannedAlphabet_eq, input, wordAlphabet_replicate b count, BitVec.ofNat_toNat, BitVec.setWidth_eq]
  have code : codeFor [(b, s.ilen)] b = [false] := by
    simp [codeFor, codesOf, recordAll, entryOf, singleCode]
  have bits : encodedBits s = List.replicate s.ilen.toNat false := by
    have flat (n : Nat) : (List.replicate n b).flatMap (codeFor [(b, s.ilen)]) = List.replicate n false := by
      induction n with
      | zero => rfl
      | succ n ih => rw [List.replicate_succ, List.flatMap_cons, ih, code]; rfl
    rw [encodedBits, input, alphabet, flat]
  have length : (encodedBits s).length = s.ilen.toNat := by rw [bits, List.length_replicate]
  obtain ⟨t, run, ends⟩ := exec_encode_of_fits hcap
  obtain ⟨_, pushes, -⟩ := (pushes_iff_fits legal).1 (length.trans_le hfits)
  rcases ends with ⟨_, pushes', encoded⟩ | ⟨_, raised, -⟩
  · have payload := encoded.payload legal pushes'
    have symbol := encoded.entries.symbol 0
    have freq := encoded.entries.freq 0
    have k := encoded.k
    rw [alphabet] at symbol freq k
    refine ⟨t, run, encoded.ended, BitVec.eq_of_toNat_eq k, symbol, freq, encoded.cnt, payload.nbits.trans length, ?_,
      fun i hi => ?_⟩
    · rw [payload.plen, length]
    · have inside : i < (packBytes s.cfg.packOrder t.plen.toNat (encodedBits s)).length := by simpa using hi
      rw [payload.bytes, List.getElem?_eq_getElem inside, Option.getD_some, getElem_packBytes, bits, List.drop_replicate,
        packByte_replicate_false]
      rfl
  · cases pushes.symm.trans raised

end Sys2Proof.Machine
end

section
/-! PROOFS. The container's frames and round trips (46_container.md, R190 to R199, R207): what SERIALIZE and DESERIALIZE leave alone, the order
of the tests, and that each undoes the other. -/

namespace Sys2Proof.Machine

/-! ### SERIALIZE -/

/-- The fields SERIALIZE can change. -/
def SerializeTouches (s t : State) : Prop :=
  ∃ status cmdr olen poff obuf phase oc j,
    t = { s with
          status := status, cmdr := cmdr, olen := olen, poff := poff, obuf := obuf, phase := phase
          cursors := { s.cursors with oc := oc, j := j } }

theorem exec_serialize_of_overCapacity {s : State} (h : SerializeOverCapacity s) :
    exec .serialize s = .next (raiseError .capacity (accept .serialize s)) :=
  congrArg complete (serializeBody_of_overCapacity (s := accept .serialize s) h)

theorem exec_serialize_of_fits {s : State} (h : ¬ SerializeOverCapacity s) :
    exec .serialize s = .next (finish (serializeWrites (accept .serialize s))) :=
  congrArg complete (serializeBody_of_fits (s := accept .serialize s) h)

theorem exec_serialize_cases {s t : State} (run : exec .serialize s = .next t) :
    (SerializeOverCapacity s ∧ t = raiseError .capacity (accept .serialize s)) ∨
      (¬ SerializeOverCapacity s ∧ t = finish (serializeWrites (accept .serialize s))) := by
  by_cases exceeds : SerializeOverCapacity s
  · cases run.symm.trans (exec_serialize_of_overCapacity exceeds)
    exact .inl ⟨exceeds, rfl⟩
  · cases run.symm.trans (exec_serialize_of_fits exceeds)
    exact .inr ⟨exceeds, rfl⟩

theorem serialize_touches (s : State) : SerializeTouches s (finish (serializeWrites (accept .serialize s))) :=
  ⟨_, _, _, _, _, _, _, _, rfl⟩

theorem serialize_endedDone (s : State) : EndedDone (finish (serializeWrites (accept .serialize s))) :=
  finish_endedDone (by rw [serializeWrites_status, statusErr_setFtrunc, accept_err, errNumber])

theorem serialize_ftrunc (s : State) :
    statusFtrunc (finish (serializeWrites (accept .serialize s))).status = ftruncOf s.alphabet := by
  rw [finish_ftrunc, serializeWrites_status, statusFtrunc_setFtrunc, accept_alphabet]

theorem serialize_zero (s : State) :
    statusZero (finish (serializeWrites (accept .serialize s))).status = statusZero s.status := by
  rw [finish_zero, serializeWrites_status, statusZero_setFtrunc, accept_zero]

/-- An image that fits a buffer has no length that wraps. -/
theorem serialize_holdsImage {s : State} (noWrap : 10 + 2 * s.k.toNat + s.plen.toNat < 2 ^ 32) :
    HoldsImageOf s (finish (serializeWrites (accept .serialize s))) :=
  holdsImageOf_of_accept_finish (serializeWrites_holdsImage (s := accept .serialize s) noWrap)

theorem noWrap_of_fits {s : State} (legal : s.cfg.wellFormed = true) (fits : ¬ SerializeOverCapacity s) :
    10 + 2 * s.k.toNat + s.plen.toNat < 2 ^ 32 := by
  have cap := Config.obufCap_lt_of_wellFormed legal
  rw [SerializeOverCapacity] at fits
  omega

/-- Settles O18: the two ends of the command write the fields of `SerializeTouches` only, and OBUF below the image's end. -/
theorem serializeFrame : Obligations.SerializeFrame := by
  intro s t legal run
  rcases exec_serialize_cases run with ⟨-, rfl⟩ | ⟨fits, rfl⟩
  · have notDone : ¬ EndedDone (raiseError .capacity (accept .serialize s)) := fun done =>
      done.not_error (raiseError_endedError _ _)
    exact ⟨⟨rfl, rfl, rfl, rfl⟩, rfl, rfl, rfl, rfl, fun _ => rfl, fun _ => rfl, fun _ _ => ⟨rfl, rfl⟩, rfl, rfl, rfl, rfl,
      rfl, rfl, by simp, fun done => absurd done notDone,
      fun _ => ⟨fun _ => rfl, rfl, rfl, raiseError_statusRestKept (i := .serialize) rfl⟩⟩
  · obtain ⟨_, _, _, _, _, _, _, _, _, _, _, _, _, _, past⟩ := serialize_holdsImage (noWrap_of_fits legal fits)
    have done := serialize_endedDone s
    have zero := serialize_zero s
    have touches := serialize_touches s
    generalize finish (serializeWrites (accept .serialize s)) = t at *
    obtain ⟨_, _, _, _, _, _, _, _, rfl⟩ := touches
    exact ⟨⟨rfl, rfl, rfl, rfl⟩, rfl, rfl, rfl, rfl, fun _ => rfl, fun _ => rfl, fun _ _ => ⟨rfl, rfl⟩, rfl, rfl, rfl, rfl,
      rfl, rfl, zero, fun _ => past, fun not => absurd done not⟩

/-! ### DESERIALIZE -/

/-- The fields DESERIALIZE can change. -/
def DeserializeTouches (s t : State) : Prop :=
  ∃ status cmdr cnt poff k plen pbuf sym freq phase ip j,
    t = { s with
          status := status, cmdr := cmdr, cnt := cnt, poff := poff, k := k, plen := plen, pbuf := pbuf, alphaSym := sym
          alphaFreq := freq, phase := phase, cursors := { s.cursors with ip := ip, j := j } }

theorem deserialize_touches (s : State) : DeserializeTouches s (finish (commitImage (checking s))) :=
  ⟨_, _, _, _, _, _, _, _, _, _, _, _, rfl⟩

theorem deserialize_endedDone (s : State) : EndedDone (finish (commitImage (checking s))) :=
  finish_endedDone (by rw [commitImage_status]; exact accept_err .deserialize s)

theorem exec_deserialize_cases {s t : State} (run : exec .deserialize s = .next t) :
    (PassesCheck s ∧ t = finish (commitImage (checking s))) ∨
      (¬ PassesCheck s ∧ t = raiseError (checkImage (checking s)) (checking s)) := by
  by_cases passes : PassesCheck s
  · cases run.symm.trans (exec_deserialize_of_passes passes)
    exact .inl ⟨passes, rfl⟩
  · rcases deserializeBody_cases (accept .deserialize s) with ⟨e, _, found, body⟩ | ⟨passed, _⟩
    · have failed : exec .deserialize s = _ := congrArg complete body
      subst found
      cases run.symm.trans failed
      exact .inr ⟨passes, rfl⟩
    · exact absurd ((passesCheck_checking s).1 ((checkImage_eq_none_iff _).1 passed)) passes

/-- A command ended with outcome `e`: DONE when there is no error, ERROR with the code when there is one. -/
def EndsWith : ErrCode → State → Prop
  | .none => EndedDone
  | e => EndedError e

theorem endsWith_of_isError {e : ErrCode} (isError : e ≠ .none) (t : State) : EndsWith e t = EndedError e t := by
  rw [EndsWith.eq_2 _ isError]

theorem endsWith_ite (c : Prop) [Decidable c] (e rest : ErrCode) (t : State) :
    EndsWith (if c then e else rest) t = if c then EndsWith e t else EndsWith rest t :=
  apply_ite (EndsWith · t) c e rest

/-- DESERIALIZE ends with what CHECK found. -/
theorem exec_deserialize_endsWith (s : State) :
    ∃ t, exec .deserialize s = .next t ∧ EndsWith (checkImage (checking s)) t := by
  rcases deserializeBody_cases (accept .deserialize s) with ⟨e, isError, found, body⟩ | ⟨passed, body⟩
  · have found' : checkImage (checking s) = e := found
    refine ⟨_, congrArg complete body, ?_⟩
    rw [found', endsWith_of_isError isError]
    exact raiseError_endedError _ _
  · have passed' : checkImage (checking s) = .none := passed
    refine ⟨_, congrArg complete body, ?_⟩
    rw [passed']
    exact deserialize_endedDone s

/-- CHECK's six tests in their order (R196), over the bytes of IBUF. -/
def testsInOrder (s : State) : ErrCode :=
  if s.cfg.ibufCap < s.ilen.toNat then .capacity
  else if s.ilen.toNat < 4 ∨ s.byteAt .ibuf 0 ≠ 0x48#8 ∨ s.byteAt .ibuf 1 ≠ 0x55#8 ∨ s.byteAt .ibuf 2 ≠ 0x46#8 ∨
      s.byteAt .ibuf 3 ≠ 0x46#8 then .fmtMagic
  else if s.ilen.toNat < 10 then .fmtRange
  else if ¬ (10 < namedOffset s ∧ namedOffset s < s.ilen.toNat) then .fmtRange
  else if (namedOffset s - 10) % 2 = 1 then .fmtOdd
  else if 256 < (namedOffset s - 10) / 2 ∨ s.cfg.pbufCap < s.ilen.toNat - namedOffset s then .capacity
  else .none

theorem checkImage_eq_testsInOrder (s : State) : checkImage s = testsInOrder s := by
  have tag : s.bytesFrom .ibuf 0 4 = magicTag ↔ ¬ (s.byteAt .ibuf 0 ≠ 0x48#8 ∨ s.byteAt .ibuf 1 ≠ 0x55#8 ∨
      s.byteAt .ibuf 2 ≠ 0x46#8 ∨ s.byteAt .ibuf 3 ≠ 0x46#8) := by
    rw [bytesFrom_eq_magicTag_iff]
    tauto
  unfold checkImage testsInOrder
  simp only [ne_eq, tag, imageEntries, imageOffset_eq_namedOffset, Config.alphaCap]
  by_cases short : s.ilen.toNat < 4
  · simp only [short, true_or, if_true]
  · simp only [short, false_or, if_false, not_not]

theorem testsInOrder_checking (s : State) : testsInOrder (checking s) = testsInOrder s :=
  rfl

/-- Settles O19: the command ends with the code of the first failing test. -/
theorem deserializeTestsInOrder : Obligations.DeserializeTestsInOrder := by
  intro s
  obtain ⟨t, run, ends⟩ := exec_deserialize_endsWith s
  refine ⟨t, run, ?_⟩
  rw [checkImage_eq_testsInOrder, testsInOrder_checking] at ends
  simp only [testsInOrder, endsWith_ite] at ends
  exact ends

/-- Settles O21: COMMIT writes the fields of `DeserializeTouches` only, and a failing CHECK only STATUS, CMDR and PHASE. -/
theorem deserializeFrame : Obligations.DeserializeFrame := by
  intro s t run
  rcases exec_deserialize_cases run with ⟨passes, rfl⟩ | ⟨-, rfl⟩
  · have done := deserialize_endedDone s
    have statusRest : StatusRestKept s (finish (commitImage (checking s))) :=
      finish_statusRestKept (i := .deserialize) (commitImage_status (checking s))
    have entries : SameEntriesFrom (finish (commitImage (checking s))).k.toNat s (finish (commitImage (checking s))) := by
      obtain ⟨_, _, _, _, _, _, _, _, _, _, hk, _⟩ := (passesCheck_checking s).2 passes
      intro j hj
      rw [finish_k, commitImage_k hk] at hj
      rw [finish_byteAt, finish_freqAt, commitImage_byteAt_alphaSym, commitImage_freqAt, if_neg (Nat.not_lt.2 hj),
        if_neg (Nat.not_lt.2 hj)]
      exact ⟨rfl, rfl⟩
    have payload : SameBytesFrom .pbuf (finish (commitImage (checking s))).plen.toNat s (finish (commitImage (checking s))) := by
      intro i hi
      rw [finish_plen, commitImage_plen] at hi
      rw [finish_byteAt, commitImage_byteAt_pbuf, if_neg (Nat.not_lt.2 hi)]
      rfl
    have touches := deserialize_touches s
    generalize finish (commitImage (checking s)) = t at *
    obtain ⟨_, _, _, _, _, _, _, _, _, _, _, _, rfl⟩ := touches
    exact ⟨⟨rfl, rfl, rfl, rfl⟩, rfl, rfl, statusRest, fun _ => rfl, fun _ => rfl, rfl, rfl, rfl, rfl, rfl, rfl,
      fun _ => ⟨entries, payload⟩, fun not => absurd done not⟩
  · have notDone : ¬ EndedDone (raiseError (checkImage (checking s)) (checking s)) := fun done =>
      done.not_error (raiseError_endedError _ _)
    exact ⟨⟨rfl, rfl, rfl, rfl⟩, rfl, rfl, raiseError_statusRestKept (i := .deserialize) rfl, fun _ => rfl, fun _ => rfl, rfl,
      rfl, rfl, rfl, rfl, rfl, fun done => absurd done notDone,
      fun _ => ⟨rfl, rfl, rfl, rfl, fun _ => rfl, fun _ _ => ⟨rfl, rfl⟩⟩⟩

/-! ### What COMMIT leaves of an image that passes -/

/-- The Container `t` holds is the one the image in IBUF of `s` names (R197). -/
structure CommittedImage (s t : State) : Prop where
  cnt : t.cnt = be32 (s.byteAt .ibuf 4) (s.byteAt .ibuf 5) (s.byteAt .ibuf 6) (s.byteAt .ibuf 7)
  poff : t.poff.toNat = namedOffset s
  k : t.k.toNat = (namedOffset s - 10) / 2
  plen : t.plen.toNat = s.ilen.toNat - namedOffset s
  entry : ∀ j, j < t.k.toNat →
    t.byteAt .alphaSym j = s.byteAt .ibuf (10 + 2 * j) ∧ (t.freqAt j).toNat = (s.byteAt .ibuf (11 + 2 * j)).toNat
  payload : ∀ i, i < t.plen.toNat → t.byteAt .pbuf i = s.byteAt .ibuf (namedOffset s + i)

theorem committedImage_of_passes {s : State} (passes : PassesCheck s) :
    ∃ t, exec .deserialize s = .next t ∧ EndedDone t ∧ t.cfg = s.cfg ∧ CommittedImage s t := by
  obtain ⟨t, run, done, -, cnt, poff, k, plen, entry, payload, -⟩ := (deserializeCommitsTheImage s).1 passes
  have cfg : t.cfg = s.cfg := by
    cases run.symm.trans (exec_deserialize_of_passes passes)
    obtain ⟨_, _, _, _, _, _, _, _, _, _, _, _, same⟩ := deserialize_touches s
    rw [same]
  exact ⟨t, run, done, cfg, BitVec.eq_of_toNat_eq (cnt.trans (be32_toNat _ _ _ _).symm), poff, k, plen,
    fun j hj => entry j (k ▸ hj), fun i hi => payload i (plen ▸ hi)⟩

theorem passesCheck_of_done {s t : State} (run : exec .deserialize s = .next t) (done : EndedDone t) : PassesCheck s := by
  rcases exec_deserialize_cases run with ⟨passes, -⟩ | ⟨-, rfl⟩
  · exact passes
  · exact absurd (raiseError_endedError _ _) done.not_error

theorem committedImage_of_done {s t : State} (run : exec .deserialize s = .next t) (done : EndedDone t) :
    PassesCheck s ∧ t.cfg = s.cfg ∧ CommittedImage s t := by
  have passes := passesCheck_of_done run done
  obtain ⟨_, run', -, cfg, image⟩ := committedImage_of_passes passes
  cases run.symm.trans run'
  exact ⟨passes, cfg, image⟩

/-- Settles O52, for each command by what it leaves when it succeeds. -/
theorem successfulCommandsMeetTheInvariants : Obligations.SuccessfulCommandsMeetTheInvariants := by
  refine ⟨fun s t run done => ?_, fun s t legal run done => ?_, fun s t run done => ?_⟩
  · obtain ⟨passes, -, image⟩ := committedImage_of_done run done
    obtain ⟨_, _, _, _, _, _, _, low, high, even, hk, _⟩ := passes
    have k := image.k
    have plen := image.plen
    have poff := image.poff
    refine ⟨by omega, by omega, by omega, by omega, fun j hj => ?_⟩
    have byte := (s.byteAt .ibuf (11 + 2 * j)).isLt
    rw [(image.entry j hj).2]
    omega
  · rcases exec_serialize_cases run with ⟨-, rfl⟩ | ⟨fits, rfl⟩
    · exact absurd (raiseError_endedError _ _) done.not_error
    · obtain ⟨poff, olen, -⟩ := serialize_holdsImage (noWrap_of_fits legal fits)
      have touches := serialize_touches s
      generalize finish (serializeWrites (accept .serialize s)) = t at *
      obtain ⟨_, _, _, _, _, _, _, _, rfl⟩ := touches
      exact ⟨poff, olen.trans (by rw [← poff])⟩
  · obtain ⟨-, decoded⟩ := exec_decode_done run done
    have olen := decoded.olen
    rw [if_pos (decoded.ended.allOut_of_done done)] at olen
    obtain ⟨_, _, _, _, _, _, _, _, _, rfl⟩ := decoded.touches
    exact olen

/-! ### The round trips -/

/-- The image in OBUF of `t` names the payload offset `10 + 2K` (R64). -/
theorem HoldsImageOf.namedOffset {s t u : State} (image : HoldsImageOf s t) (b8 : u.byteAt .ibuf 8 = t.byteAt .obuf 8)
    (b9 : u.byteAt .ibuf 9 = t.byteAt .obuf 9) : namedOffset u = 10 + 2 * s.k.toNat := by
  obtain ⟨poff, _, _, _, _, _, _, _, _, _, h8, h9, _⟩ := image
  rw [← imageOffset_eq_namedOffset, imageOffset, b8, b9, h8, h9, be16_bytes16, poff]

/-- Settles O22: the image names the Container's own sizes, so CHECK passes and COMMIT reads back what was written. -/
theorem containerRoundTrip : Obligations.ContainerRoundTrip := by
  intro s legal k1 k256 plen1 plenFits freqs obufFits ibufFits
  have fits : ¬ SerializeOverCapacity s := by rw [SerializeOverCapacity]; omega
  have image := serialize_holdsImage (noWrap_of_fits legal fits)
  have noTrunc : ftruncOf s.alphabet = false := by
    refine Bool.eq_false_iff.2 fun trunc => ?_
    obtain ⟨j, hj, big⟩ := (ftruncOf_alphabet_iff s).1 trunc
    have := freqs j hj
    omega
  refine ⟨_, exec_serialize_of_fits fits, serialize_endedDone s, (serialize_ftrunc s).trans noTrunc, fun u cfg ilen bytes => ?_⟩
  generalize finish (serializeWrites (accept .serialize s)) = t at *
  have offset (h9 : 9 < t.olen.toNat) := image.namedOffset (bytes 8 (by omega)) (bytes 9 h9)
  obtain ⟨-, olen, m0, m1, m2, m3, c0, c1, c2, c3, -, -, entries, payload, -⟩ := image
  have read {i : Nat} (hi : i < 10 + 2 * s.k.toNat + s.plen.toNat) : u.byteAt .ibuf i = t.byteAt .obuf i :=
    bytes i (olen ▸ hi)
  have named : namedOffset u = 10 + 2 * s.k.toNat := offset (by omega)
  have length : u.ilen.toNat = 10 + 2 * s.k.toNat + s.plen.toNat := by rw [ilen, olen]
  have passes : PassesCheck u := by
    rw [PassesCheck, named, length, cfg, read (by omega), read (by omega), read (by omega), read (by omega)]
    exact ⟨ibufFits, by omega, m0, m1, m2, m3, by omega, by omega, by omega, by omega, by omega, by omega⟩
  obtain ⟨v, run, done, -, committed⟩ := committedImage_of_passes passes
  have k : v.k.toNat = s.k.toNat := by rw [committed.k, named]; omega
  have plen : v.plen.toNat = s.plen.toNat := by rw [committed.plen, named, length]; omega
  refine ⟨v, run, done, ?_, BitVec.eq_of_toNat_eq k, BitVec.eq_of_toNat_eq plen, fun j hj => ?_, fun i hi => ?_⟩
  · rw [committed.cnt, read (by omega), read (by omega), read (by omega), read (by omega), c0, c1, c2, c3, be32_bytes32]
  · obtain ⟨symbol, freq⟩ := committed.entry j (k ▸ hj)
    obtain ⟨symbolByte, freqByte⟩ := entries j hj
    have small := freqs j hj
    rw [read (by omega)] at symbol freq
    exact ⟨symbol.trans symbolByte, BitVec.eq_of_toNat_eq (by omega)⟩
  · rw [committed.payload i (plen ▸ hi), named, read (by omega), payload i hi]

/-- Settles O23: the Container COMMIT left is written out as the image it came from. -/
theorem imageRoundTrip : Obligations.ImageRoundTrip := by
  intro s t run done obufFits
  obtain ⟨⟨_, _, m0, m1, m2, m3, _, low, high, even, kFits, plenFits⟩, cfg, committed⟩ := committedImage_of_done run done
  have k := committed.k
  have plen := committed.plen
  have length : 10 + 2 * t.k.toNat + t.plen.toNat = s.ilen.toNat := by omega
  have offset : 10 + 2 * t.k.toNat = namedOffset s := by omega
  have fits : ¬ SerializeOverCapacity t := by rw [SerializeOverCapacity, cfg]; omega
  have small := s.ilen.isLt
  refine ⟨_, exec_serialize_of_fits fits, serialize_endedDone t, ?_⟩
  have image := serialize_holdsImage (s := t) (by omega)
  generalize finish (serializeWrites (accept .serialize t)) = v at *
  obtain ⟨poff, olen, w0, w1, w2, w3, c0, c1, c2, c3, p0, p1, entries, payload, -⟩ := image
  have cntBytes := bytes32_be32 (s.byteAt .ibuf 4) (s.byteAt .ibuf 5) (s.byteAt .ibuf 6) (s.byteAt .ibuf 7)
  have poffBytes := bytes16_be16 (s.byteAt .ibuf 8) (s.byteAt .ibuf 9)
  have poffSame : v.poff = be16 (s.byteAt .ibuf 8) (s.byteAt .ibuf 9) :=
    BitVec.eq_of_toNat_eq (by rw [poff, offset, be16_toNat, namedOffset])
  rw [← committed.cnt] at cntBytes
  rw [← poffSame] at poffBytes
  simp only [bytes32, bytes16, List.cons.injEq, and_true] at cntBytes poffBytes
  refine ⟨BitVec.eq_of_toNat_eq (olen.trans length), fun i hi => ?_⟩
  by_cases header : i < 10
  · match i, header with
    | 0, _ => exact w0.trans m0.symm
    | 1, _ => exact w1.trans m1.symm
    | 2, _ => exact w2.trans m2.symm
    | 3, _ => exact w3.trans m3.symm
    | 4, _ => exact c0.trans cntBytes.1
    | 5, _ => exact c1.trans cntBytes.2.1
    | 6, _ => exact c2.trans cntBytes.2.2.1
    | 7, _ => exact c3.trans cntBytes.2.2.2
    | 8, _ => exact p0.trans poffBytes.1
    | 9, _ => exact p1.trans poffBytes.2
  · by_cases entry : i < 10 + 2 * t.k.toNat
    · have hj : (i - 10) / 2 < t.k.toNat := by omega
      obtain ⟨symbol, freq⟩ := entries _ hj
      obtain ⟨symbolRead, freqRead⟩ := committed.entry _ hj
      rcases Nat.mod_two_eq_zero_or_one (i - 10) with isEven | isOdd
      · have here : 10 + 2 * ((i - 10) / 2) = i := by omega
        rw [here] at symbol symbolRead
        exact symbol.trans symbolRead
      · have here : 11 + 2 * ((i - 10) / 2) = i := by omega
        rw [here] at freq freqRead
        have byte := (s.byteAt .ibuf i).isLt
        exact BitVec.eq_of_toNat_eq (by omega)
    · have inPayload : i - (10 + 2 * t.k.toNat) < t.plen.toNat := by omega
      have here : 10 + 2 * t.k.toNat + (i - (10 + 2 * t.k.toNat)) = i := by omega
      have written := payload _ inPayload
      have read := committed.payload _ inPayload
      rw [← offset, here] at read
      rw [here] at written
      exact written.trans read

end Sys2Proof.Machine
end

section
/-! PROOFS. The command word (R70, R71), acceptance and completion (R216, R218), and which agent's move a step is (R215). -/

namespace Sys2Proof.Machine

/-! ### The decoder on all words -/

theorem decodeEncode_statement (i : Instr) : Laws.DecodeEncode.Statement i := by
  cases i
  · exact Laws.DecodeEncode.encode
  · exact Laws.DecodeEncode.decode
  · exact Laws.DecodeEncode.serialize
  · exact Laws.DecodeEncode.deserialize

theorem decodeWord_encodeWord (i : Instr) : decodeWord (encodeWord i) = .ok i := (decodeEncode_statement i).2.1

theorem commandWordWellFormed_encodeWord (i : Instr) : commandWordWellFormed (encodeWord i) = true :=
  (decodeEncode_statement i).1

theorem encodeWord_toNat (i : Instr) : (encodeWord i).toNat = (opcodeOf i).toNat := (decodeEncode_statement i).2.2.1

theorem commandOfOpcode_opcodeOf (i : Instr) : commandOfOpcode (opcodeOf i) = some i := (decodeEncode_statement i).2.2.2.1

theorem encodeWord_setWidth (i : Instr) : (encodeWord i).setWidth 8 = opcodeOf i := by cases i <;> decide

theorem decodeWord_eq_ok_iff (w : Word) (i : Instr) : decodeWord w = .ok i ↔ w = encodeWord i :=
  ⟨decodeWord_eq_ok, fun h => h ▸ decodeWord_encodeWord i⟩

/-- A well-formed word is one of the numbers 1 to 4, the words of R71. -/
theorem exists_encodeWord_of_wellFormed {w : Word} (h : commandWordWellFormed w = true) : ∃ i, w = encodeWord i := by
  simp only [commandWordWellFormed, Bool.and_eq_true, beq_iff_eq, decide_eq_true_eq] at h
  have number : w.toNat = 1 ∨ w.toNat = 2 ∨ w.toNat = 3 ∨ w.toNat = 4 := by omega
  rcases number with h | h | h | h
  · exact ⟨.encode, BitVec.eq_of_toNat_eq h⟩
  · exact ⟨.decode, BitVec.eq_of_toNat_eq h⟩
  · exact ⟨.serialize, BitVec.eq_of_toNat_eq h⟩
  · exact ⟨.deserialize, BitVec.eq_of_toNat_eq h⟩

theorem tableWord_of_fits {nbits : Nat} {v : Word} (fits : v.toNat < 2 ^ nbits) : tableWord nbits v.toNat = some v := by
  rw [tableWord, Nat.mod_eq_of_lt fits, if_pos v.isLt, BitVec.ofNat_toNat, BitVec.setWidth_eq]

theorem decodeTableWord_eq_some {nbits w : Nat} {i : Instr} (h : decodeTableWord nbits w = some i) :
    tableWord nbits w = some (encodeWord i) := by
  unfold decodeTableWord at h
  split at h
  · next v word =>
    split at h
    · next j decoded =>
      cases h
      rw [word, decodeWord_eq_ok decoded]
    · cases h
  · cases h

theorem decodeTableWord_of_tableWord {nbits w : Nat} {i : Instr} (h : tableWord nbits w = some (encodeWord i)) :
    decodeTableWord nbits w = some i := by
  unfold decodeTableWord
  simp only [h, decodeWord_encodeWord]

/-- Settles O3: a word that decodes is the word of its command, and the well-formed words are the four commands' words. -/
theorem decodeInvertsEncodeOnAllWords : Obligations.DecodeInvertsEncodeOnAllWords := by
  refine ⟨decodeWord_eq_ok_iff, fun w => ⟨?_, fun legal => ?_⟩, fun i nbits wide => ?_⟩
  · rintro ⟨i, decoded⟩
    exact decodeWord_eq_ok decoded ▸ commandWordWellFormed_encodeWord i
  · obtain ⟨i, rfl⟩ := exists_encodeWord_of_wellFormed legal
    exact ⟨i, decodeWord_encodeWord i⟩
  · have fits : (encodeWord i).toNat < 2 ^ nbits :=
      encodeWord_toNat i ▸ Nat.lt_of_lt_of_le (opcodeOf i).isLt (Nat.pow_le_pow_right (by decide) wide)
    exact decodeTableWord_of_tableWord (tableWord_of_fits fits)

/-- Settles O2, word by word. -/
theorem commandWordsReadAsTheMapSays : Obligations.CommandWordsReadAsTheMapSays := by
  refine ⟨decodeWord_encode, decodeWord_decode, decodeWord_serialize, decodeWord_deserialize, ?_⟩
  decide

/-! ### Acceptance and completion -/

theorem accept_accept (i : Instr) (s : State) : accept i (accept i s) = accept i s := by
  have status : (accept i (accept i s)).status = (accept i s).status := status_ext (by simp) (by simp) (by simp) (by simp)
  exact congrArg (State.withStatus (s.withCmdr (opcodeOf i))) status

theorem exec_accept (i : Instr) (s : State) : exec i (accept i s) = exec i s := by
  rw [exec_eq_complete, exec_eq_complete, accept_accept]

/-- Settles O9, from the ends of a command. -/
theorem everyCommandEnds : Obligations.EveryCommandEnds := by
  intro i s
  obtain ⟨t, run, done | ⟨e, isError, -, error⟩⟩ := exec_ends i s
  · exact ⟨t, run, .inl done⟩
  · exact ⟨t, run, .inr ⟨e, isError, error⟩⟩

/-! ### Whose move a step is -/

theorem issue_zero_of_decodes {w : Word} {i : Instr} {s : State} (notBusy : s.isBusy = false) (decoded : decodeWord w = .ok i) :
    issue w 0 s = exec i s := by
  rw [issue, notBusy, decoded]
  rfl

theorem issue_succ_of_decodes {w : Word} {i : Instr} {s : State} {n : Nat} (notBusy : s.isBusy = false)
    (decoded : decodeWord w = .ok i) :
    issue w (n + 1) s = .next ((accept i s).withHost { s.host with turns := n + 1 }) := by
  rw [issue, notBusy, decoded]
  rfl

theorem issue_of_busy {s : State} (busy : s.isBusy = true) (w : Word) (n : Nat) : issue w n s = .next s := by
  rw [issue, busy]
  rfl

theorem engineTurn_of_opcode {s : State} {i : Instr} (h : s.cmdr = opcodeOf i) : engineTurn s = exec i s := by
  rw [engineTurn, h, commandOfOpcode_opcodeOf]

theorem step_of_idle {s : State} (notBusy : s.isBusy = false) (script : s.host.script = []) : step s = .next s := by
  rw [step, nextMove, notBusy, script]
  rfl

theorem step_of_engineMoves {s : State} (engine : EngineMoves s) :
    step s = engineTurn (s.withHost { s.host with turns := 0 }) := by
  obtain ⟨busy, noMove⟩ := engine
  rcases nextMove_cases s with ⟨-, a, rest, n, script, turns, -⟩ | ⟨-, -, run⟩ | ⟨notBusy, -⟩ | ⟨notBusy, -⟩
  · rcases noMove with empty | zero
    · cases empty.symm.trans script
    · cases zero.symm.trans turns
  · exact run
  · cases busy.symm.trans notBusy
  · cases busy.symm.trans notBusy

/-- Settles O4: the host's move is an issue at once, and a placed word is such a move. -/
theorem stepRunsTheDecodedCommand : Obligations.StepRunsTheDecodedCommand := by
  have issued (s : State) (a : HostAct) (w : Word) (i : Instr) (rest : List HostAct) (notBusy : s.isBusy = false)
      (script : s.host.script = a :: rest) (atOnce : IssuesAtOnce a w) (decoded : decodeWord w = .ok i) :
      step s = exec i (s.withHost { s.host with script := rest }) := by
    rw [step_of_hostsMove notBusy script, hostMove_issuesAtOnce atOnce]
    exact issue_zero_of_decodes notBusy decoded
  refine ⟨issued, fun s nbits w i notBusy decoded => ?_⟩
  have placed : s.withFetchWord nbits w =
      s.withHost { s.host with script := .cmd (encodeWord i) 0 :: s.host.script } := by
    rw [State.withFetchWord, decodeTableWord_eq_some decoded, placeWord, notBusy]
    rfl
  rw [placed]
  exact issued _ _ _ i s.host.script notBusy rfl (.inl rfl) (decodeWord_encodeWord i)

/-- Settles O6: acceptance writes STATUS and CMDR only. -/
theorem acceptanceSetsBusy : Obligations.AcceptanceSetsBusy := by
  intro s i n rest notBusy script
  have run := (step_of_hostsMove notBusy script).trans
    (issue_succ_of_decodes (n := n) (s := s.withHost { s.host with script := rest }) notBusy (decodeWord_encodeWord i))
  exact ⟨_, run, accept_state i _, accept_err i _, ⟨accept_zero i _, accept_ftrunc i _⟩, (encodeWord_setWidth i).symm, rfl⟩

/-- Settles O7: the engine runs the command CMDR names, and a command begins with its own acceptance. -/
theorem engineCompletesTheAcceptedCommand : Obligations.EngineCompletesTheAcceptedCommand :=
  ⟨fun _ _ busy opcode noMove => (step_of_engineMoves ⟨busy, noMove⟩).trans (engineTurn_of_opcode opcode),
    fun s i => exec_accept i s⟩

/-- Settles O8. -/
theorem idleBlockHoldsItsState : Obligations.IdleBlockHoldsItsState := fun _ => step_of_idle

end Sys2Proof.Machine
end

section
/-! PROOFS. The host's moves (47_host_interface.md, R41, R46, R48, R77, R219, R265), each by what the port does in the STATE the block is in. -/

namespace Sys2Proof.Machine

/-! ### The register numbers (R11) -/

theorem regOfNumber_eq_none {n : Nat} (large : 9 ≤ n) : regOfNumber n = none := by
  obtain ⟨m, rfl⟩ := Nat.exists_eq_add_of_le' large
  rfl

theorem exists_regOfNumber {n : Nat} (small : n < 9) : ∃ r, regOfNumber n = some r := by
  interval_cases n <;> exact ⟨_, rfl⟩

theorem regOfNumber_lt {n : Nat} {r : Reg} (h : regOfNumber n = some r) : n < 9 := by
  by_contra large
  cases (regOfNumber_eq_none (Nat.le_of_not_lt large)).symm.trans h

theorem regOfNumber_eq_status {n : Nat} (h : regOfNumber n = some .status) : n = 1 := by
  have small := regOfNumber_lt h
  interval_cases n <;> cases h
  rfl

theorem regOfNumber_eq_cmd {n : Nat} (h : regOfNumber n = some .cmd) : n = 0 := by
  have small := regOfNumber_lt h
  interval_cases n <;> cases h
  rfl

/-! ### The ports while BUSY and while not -/

/-- What an unspecified read of a `w`-bit element returns (R41). -/
def busyValue (w : Nat) (s : State) : Datum := ((Config.busyRead s.draws).setWidth w).setWidth 35

theorem busyValue_lt (w : Nat) (s : State) : (busyValue w s).toNat < 2 ^ w :=
  Nat.lt_of_le_of_lt (by rw [busyValue, BitVec.toNat_setWidth]; exact Nat.mod_le _ _)
    ((Config.busyRead s.draws).setWidth w).isLt

section
variable {s : State}

theorem portRead_of_busy (busy : s.isBusy = true) (w : Nat) (v : Datum) :
    portRead w v s = (busyValue w s, s.withDraws (s.draws + 1)) := if_pos busy

theorem portRead_of_notBusy (notBusy : s.isBusy = false) (w : Nat) (v : Datum) : portRead w v s = (v, s) :=
  if_neg (by simp [notBusy])

theorem portWrite_of_busy (busy : s.isBusy = true) (f : State → State) : portWrite f s = s := if_pos busy

theorem portWrite_of_notBusy (notBusy : s.isBusy = false) (f : State → State) : portWrite f s = f s :=
  if_neg (by simp [notBusy])

theorem readReg_status (s : State) : readReg .status s = (s.regValue .status, s) := rfl

theorem readReg_of_notStatus {r : Reg} (h : r ≠ .status) (s : State) : readReg r s = portRead (regWidth r) (s.regValue r) s :=
  readReg.eq_2 r s h

theorem readReg_of_notBusy (notBusy : s.isBusy = false) (r : Reg) : readReg r s = (s.regValue r, s) := by
  by_cases h : r = .status
  · rw [h, readReg_status]
  · rw [readReg_of_notStatus h, portRead_of_notBusy notBusy]

end

/-! ### The moves, at elements that exist and at others -/

section
variable {s : State}

theorem hostMove_rd {n : Nat} {r : Reg} (h : regOfNumber n = some r) :
    hostMove (.rd n) s = .next (logRead (readReg r s).1 (readReg r s).2) := by
  rw [hostMove, h]

theorem hostMove_wr {n : Nat} {r : Reg} (h : regOfNumber n = some r) (notCmd : r ≠ .cmd) (v : Nat) :
    hostMove (.wr n v) s = .next (portWrite (fun s => s.putReg r v) s) := by
  unfold hostMove
  cases r with
  | cmd => exact absurd rfl notCmd
  | _ => simp only [h]

theorem hostMove_rd_outside {n : Nat} (h : regOfNumber n = none) : hostMove (.rd n) s = .refused .noSuchElement := by
  rw [hostMove, h]

theorem hostMove_wr_outside {n : Nat} (h : regOfNumber n = none) (v : Nat) :
    hostMove (.wr n v) s = .refused .noSuchElement := by
  rw [hostMove, h]

theorem hostMove_rdb {sp : ByteSpace} {i : Nat} (h : i < sp.size s.cfg) :
    hostMove (.rdb sp i) s =
      .next (logRead (portRead 8 ((s.byteAt sp i).setWidth 35) s).1 (portRead 8 ((s.byteAt sp i).setWidth 35) s).2) :=
  if_pos (decide_eq_true h)

theorem hostMove_wrb {sp : ByteSpace} {i : Nat} (h : i < sp.size s.cfg) (v : Byte) :
    hostMove (.wrb sp i v) s = .next (portWrite (fun s => s.putByte sp i v) s) :=
  if_pos (decide_eq_true h)

theorem hostMove_rdf {j : Nat} (h : j < 256) :
    hostMove (.rdf j) s =
      .next (logRead (portRead 32 ((s.freqAt j).setWidth 35) s).1 (portRead 32 ((s.freqAt j).setWidth 35) s).2) :=
  if_pos h

theorem hostMove_wrf {j : Nat} (h : j < 256) (v : Word) :
    hostMove (.wrf j v) s = .next (portWrite (fun s => s.putFreq j v) s) :=
  if_pos h

theorem hostMove_move {i : Nat} (hObuf : i < s.cfg.obufCap) (hIbuf : i < s.cfg.ibufCap) :
    hostMove (.move i) s =
      .next (portWrite (fun t => t.putByte .ibuf i ((portRead 8 ((s.byteAt .obuf i).setWidth 35) s).1.setWidth 8))
        (logRead (portRead 8 ((s.byteAt .obuf i).setWidth 35) s).1 (portRead 8 ((s.byteAt .obuf i).setWidth 35) s).2)) :=
  if_pos (by rw [Bool.and_eq_true]; exact ⟨decide_eq_true hObuf, decide_eq_true hIbuf⟩)

end

/-- Settles O14: the port finds no element there. -/
theorem movesOutsideASpaceAreRefused : Obligations.MovesOutsideASpaceAreRefused := by
  intro s
  refine ⟨fun n h => ?_, fun n v h => ?_, fun sp i h => ?_, fun sp i v h => ?_, fun j h => ?_, fun j v h => ?_⟩
  · exact hostMove_rd_outside (regOfNumber_eq_none h)
  · exact hostMove_wr_outside (regOfNumber_eq_none h) v
  · exact if_neg (by simp [ByteSpace.indexWellFormed, h])
  · exact if_neg (by simp [ByteSpace.indexWellFormed, h])
  · exact if_neg (Nat.not_lt.2 h)
  · exact if_neg (Nat.not_lt.2 h)

/-- Settles O10: while BUSY a write leaves the state and a read of anything but STATUS returns `busyValue`. -/
theorem busyBlockIgnoresTheHost : Obligations.BusyBlockIgnoresTheHost := by
  intro s busy
  refine ⟨fun n v h => ?_, fun sp i v h => ?_, fun j v h => ?_, issue_of_busy busy, rfl, fun n h notStatus => ?_,
    fun sp i h => ⟨(Config.busyRead s.draws).setWidth 8, ?_⟩, fun j h => ⟨(Config.busyRead s.draws).setWidth 32, ?_⟩⟩
  · obtain ⟨r, register⟩ := exists_regOfNumber h
    by_cases isCmd : r = .cmd
    · rw [hostMove, register, isCmd]
      exact issue_of_busy busy _ _
    · rw [hostMove_wr register isCmd, portWrite_of_busy busy]
  · rw [hostMove_wrb h, portWrite_of_busy busy]
  · rw [hostMove_wrf h, portWrite_of_busy busy]
  · obtain ⟨r, register⟩ := exists_regOfNumber h
    have other : r ≠ .status := fun isStatus => notStatus (regOfNumber_eq_status (isStatus ▸ register))
    refine ⟨r, busyValue (regWidth r) s, register, busyValue_lt _ _, ?_⟩
    rw [hostMove_rd register, readReg_of_notStatus other, portRead_of_busy busy]
  · rw [hostMove_rdb h, portRead_of_busy busy]
    rfl
  · rw [hostMove_rdf h, portRead_of_busy busy]
    rfl

/-- Settles O11: the port returns the element and leaves the state. -/
theorem hostReadsReturnTheElement : Obligations.HostReadsReturnTheElement := by
  intro s notBusy
  have register (r : Reg) {n : Nat} (h : regOfNumber n = some r) : hostMove (.rd n) s = .next (logRead (s.regValue r) s) := by
    rw [hostMove_rd h, readReg_of_notBusy notBusy]
  refine ⟨register .cmd rfl, register .status rfl, register .ilen rfl, register .olen rfl, register .cnt rfl,
    register .poff rfl, register .k rfl, register .plen rfl, register .nbits rfl, fun sp i h => ?_, fun j h => ?_⟩
  · rw [hostMove_rdb h, portRead_of_notBusy notBusy]
  · rw [hostMove_rdf h, portRead_of_notBusy notBusy]

/-- Settles O12: the port hands the value to the register, which cuts it or ignores it. -/
theorem hostRegisterWritesAreCutToWidth : Obligations.HostRegisterWritesAreCutToWidth := by
  intro s v notBusy
  have written {n : Nat} {r : Reg} (h : regOfNumber n = some r) (notCmd : r ≠ .cmd) :
      hostMove (.wr n v) s = .next (s.putReg r v) := by
    rw [hostMove_wr h notCmd, portWrite_of_notBusy notBusy]
  refine ⟨⟨_, written (r := .ilen) rfl (by decide), BitVec.toNat_ofNat _ _, rfl⟩,
    ⟨_, written (r := .cnt) rfl (by decide), BitVec.toNat_ofNat _ _, rfl⟩,
    ⟨_, written (r := .k) rfl (by decide), BitVec.toNat_ofNat _ _, rfl⟩,
    ⟨_, written (r := .plen) rfl (by decide), BitVec.toNat_ofNat _ _, rfl⟩, ?_⟩
  rintro n (rfl | rfl | rfl | rfl)
  · exact written (r := .status) rfl (by decide)
  · exact written (r := .olen) rfl (by decide)
  · exact written (r := .poff) rfl (by decide)
  · exact written (r := .nbits) rfl (by decide)

theorem State.putByte_regValue (s : State) (sp : ByteSpace) (i : Nat) (v : Byte) (r : Reg) :
    (s.putByte sp i v).regValue r = s.regValue r := by
  cases sp <;> cases r <;> rfl

theorem State.putByte_sameWorld (s : State) (sp : ByteSpace) (i : Nat) (v : Byte) : SameWorld s (s.putByte sp i v) := by
  cases sp <;> exact ⟨rfl, rfl, rfl, rfl⟩

theorem State.putFreq_regValue (s : State) (j : Nat) (v : Word) (r : Reg) : (s.putFreq j v).regValue r = s.regValue r := by
  cases r <;> rfl

/-- Settles O13: read after write, at the element written and at the others. -/
theorem hostElementWritesMoveOneElement : Obligations.HostElementWritesMoveOneElement := by
  intro s notBusy
  refine ⟨fun sp i v h => ⟨s.putByte sp i v, ?_, State.byteAt_putByte_same s sp i v,
      fun sq j => State.byteAt_putByte_other s sp sq i j v, State.freqAt_putByte s sp i (v := v),
      State.putByte_regValue s sp i v, State.putByte_sameWorld s sp i v⟩,
    fun j v h => ⟨s.putFreq j v, ?_, ?_, fun n other => ?_, fun sp i => State.byteAt_putFreq s sp i j v,
      State.putFreq_regValue s j v, ⟨rfl, rfl, rfl, rfl⟩⟩⟩
  · rw [hostMove_wrb h, portWrite_of_notBusy notBusy]
  · rw [hostMove_wrf h, portWrite_of_notBusy notBusy]
  · rw [State.freqAt_putFreq, if_pos rfl]
  · rw [State.freqAt_putFreq, if_neg other]

/-! ### The script's composite moves (R77) and RESET (R265) -/

theorem logRead_byteAt (v : Datum) (s : State) (sp : ByteSpace) (i : Nat) : (logRead v s).byteAt sp i = s.byteAt sp i :=
  State.withHost_byteAt s _ sp i

theorem logRead_freqAt (v : Datum) (s : State) (j : Nat) : (logRead v s).freqAt j = s.freqAt j := rfl

theorem logRead_regValue (v : Datum) (s : State) (r : Reg) : (logRead v s).regValue r = s.regValue r := by cases r <;> rfl

/-- A byte keeps its value through the host's wider read datum. -/
theorem byte_of_datum (v : Byte) : (v.setWidth 35).setWidth 8 = v :=
  BitVec.setWidth_setWidth_of_le v (by decide) |>.trans (BitVec.setWidth_eq v)

theorem hostMove_move_of_notBusy {s : State} {i : Nat} (notBusy : s.isBusy = false) (hObuf : i < s.cfg.obufCap)
    (hIbuf : i < s.cfg.ibufCap) :
    hostMove (.move i) s = .next ((logRead ((s.byteAt .obuf i).setWidth 35) s).putByte .ibuf i (s.byteAt .obuf i)) := by
  rw [hostMove_move hObuf hIbuf, portRead_of_notBusy notBusy, portWrite_of_notBusy ((logRead_isBusy _ _).trans notBusy),
    byte_of_datum]

/-- Settles O15: WAIT and COPY read a register and extend the script; one byte's move is a read and a write. -/
theorem waitAndCopyFollowTheScriptNotation : Obligations.WaitAndCopyFollowTheScriptNotation := by
  refine ⟨fun s busy => ?_, fun s notBusy => ?_, fun s notBusy => ?_, fun s i notBusy hObuf hIbuf => ?_⟩
  · exact congrArg Host.Outcome.next (if_pos busy)
  · exact congrArg Host.Outcome.next (if_neg (Bool.eq_false_iff.1 notBusy))
  · have olen : (s.regValue .olen).toNat = s.olen.toNat := by
      rw [State.regValue, BitVec.toNat_setWidth, Nat.mod_eq_of_lt (Nat.lt_trans s.olen.isLt (by decide))]
    simp only [hostMove, readReg_of_notBusy notBusy, olen]
    rfl
  · have other (sq : ByteSpace) (j : Nat) (h : ¬ (sq = .ibuf ∧ j = i)) :
        ((logRead ((s.byteAt .obuf i).setWidth 35) s).putByte .ibuf i (s.byteAt .obuf i)).byteAt sq j = s.byteAt sq j := by
      rw [State.byteAt_putByte_other _ _ _ _ _ _ h, logRead_byteAt]
    refine ⟨_, hostMove_move_of_notBusy notBusy hObuf hIbuf, State.byteAt_putByte_same _ _ _ _,
      fun j h => other .ibuf j fun ⟨_, same⟩ => h same, fun j => other .obuf j (by simp), fun j => other .pbuf j (by simp),
      fun j _ => ⟨other .alphaSym j (by simp), ?_⟩, fun r => ?_⟩
    · rw [State.freqAt_putByte, logRead_freqAt]
    · rw [State.putByte_regValue, logRead_regValue]

/-- Settles O16. -/
theorem resetEventInAnyState : Obligations.ResetEventInAnyState := fun s =>
  ⟨resetEvent s, rfl, rfl, rfl, rfl, rfl, rfl, rfl, rfl, rfl, rfl, rfl, fun sp _ => by cases sp <;> rfl, fun _ => rfl⟩

/-- Settles O1. -/
theorem resetLeavesTheStatedValues : Obligations.ResetLeavesTheStatedValues :=
  ⟨rfl, rfl, rfl, rfl, rfl, rfl, rfl, rfl, fun sp _ => by cases sp <;> rfl, fun _ => rfl⟩

end Sys2Proof.Machine
end

section
/-! PROOFS. What every step keeps. A step is a change the host's port makes, RESET, or a whole command (`KeptByPort.of_step`), so a property
is kept by every step once it is kept by each of these (`KeptBySteps.step`). With it: the parameters, STATUS, the sequencer and FTRUNC. -/

namespace Sys2Proof.Machine

/-! ### The changes a step is made of -/

/-- `P` is kept by the host's own data and by every change the port makes short of RESET and of running a command (R41, R216, R217). -/
structure KeptByPort (P : State → Prop) : Prop where
  host : ∀ s h, P s → P (s.withHost h)
  draws : ∀ s n, P s → P (s.withDraws n)
  putReg : ∀ s r v, P s → P (s.putReg r v)
  putByte : ∀ s sp i v, i < ByteSpace.size s.cfg sp → P s → P (s.putByte sp i v)
  putFreq : ∀ s j v, j < Config.alphaCap → P s → P (s.putFreq j v)
  badCmd : ∀ s, P s → P (raiseError .badCmd s)
  accept : ∀ i s, P s → P (accept i s)

/-- The move issues the command `i` and `t` is that command's end. -/
def RunsAtOnce (a : HostAct) (i : Instr) (s t : State) : Prop :=
  s.isBusy = false ∧ IssuesAtOnce a (encodeWord i) ∧ exec i s = .next t

/-- A move guarded by "the element exists" that is not refused: the element exists, and the move is made. -/
theorem next_of_guard {c : Prop} [Decidable c] {t u : State} {r : Refusal}
    (run : (if c then .next u else .refused r : Host.Outcome State Fault Refusal) = .next t) : c ∧ t = u := by
  split at run
  · next holds =>
    cases run
    exact ⟨holds, rfl⟩
  · cases run

theorem of_portWrite {P : State → Prop} {s : State} {f : State → State} (h : P s) (hf : P (f s)) : P (portWrite f s) := by
  rw [portWrite_eq]
  split
  · exact h
  · exact hf

section
variable {P : State → Prop} (kept : KeptByPort P)
include kept

theorem KeptByPort.of_portRead {s : State} (h : P s) (w : Nat) (v : Datum) : P (portRead w v s).2 := by
  rw [portRead_state]
  split
  · exact kept.draws _ _ h
  · exact h

theorem KeptByPort.of_readReg {s : State} (h : P s) (r : Reg) : P (readReg r s).2 := by
  by_cases isStatus : r = .status
  · rwa [isStatus, readReg_status]
  · rw [readReg_of_notStatus isStatus]
    exact kept.of_portRead h _ _

/-- A write to CMD keeps `P`, unless it runs a command. -/
theorem KeptByPort.of_issue {s t : State} (h : P s) {w : Word} {n : Nat} (run : issue w n s = .next t) :
    P t ∨ (n = 0 ∧ s.isBusy = false ∧ ∃ i, w = encodeWord i ∧ exec i s = .next t) := by
  rcases issue_cases w n s with ⟨-, ignored⟩ | ⟨-, -, refused⟩ | ⟨notBusy, i, decoded, ⟨rfl, runs⟩ | ⟨m, -, accepted⟩⟩
  · cases run.symm.trans ignored
    exact .inl h
  · cases run.symm.trans refused
    exact .inl (kept.badCmd _ h)
  · exact .inr ⟨rfl, notBusy, i, decodeWord_eq_ok decoded, runs.symm.trans run⟩
  · cases run.symm.trans accepted
    exact .inl (kept.host _ _ (kept.accept i s h))

/-- A host move keeps `P`, unless it is RESET or runs a command. -/
theorem KeptByPort.of_hostMove {s t : State} (h : P s) {a : HostAct} (run : hostMove a s = .next t) :
    P t ∨ (a = .reset ∧ t = resetEvent s) ∨ ∃ i, RunsAtOnce a i s t := by
  have logged {u : State} (hu : P u) (v : Datum) : P (logRead v u) := kept.host _ _ hu
  cases a with
  | rd n =>
    cases register : regOfNumber n with
    | none => cases run.symm.trans (hostMove_rd_outside register)
    | some r =>
      cases run.symm.trans (hostMove_rd register)
      exact .inl (logged (kept.of_readReg h r) _)
  | wr n v =>
    cases register : regOfNumber n with
    | none => cases run.symm.trans (hostMove_wr_outside register v)
    | some r =>
      by_cases isCmd : r = .cmd
      · obtain rfl : n = 0 := regOfNumber_eq_cmd (isCmd ▸ register)
        rcases kept.of_issue (w := BitVec.ofNat 32 v) (n := 0) h run with same | ⟨-, notBusy, i, word, runs⟩
        · exact .inl same
        · exact .inr (.inr ⟨i, notBusy, .inr ⟨v, rfl, word⟩, runs⟩)
      · cases run.symm.trans (hostMove_wr register isCmd v)
        exact .inl (of_portWrite h (kept.putReg _ _ _ h))
  | rdb sp i =>
    obtain ⟨-, rfl⟩ := next_of_guard run
    exact .inl (logged (kept.of_portRead h _ _) _)
  | wrb sp i v =>
    obtain ⟨inside, rfl⟩ := next_of_guard run
    exact .inl (of_portWrite h (kept.putByte _ _ _ _ (of_decide_eq_true inside) h))
  | rdf j =>
    obtain ⟨-, rfl⟩ := next_of_guard run
    exact .inl (logged (kept.of_portRead h _ _) _)
  | wrf j v =>
    obtain ⟨inside, rfl⟩ := next_of_guard run
    exact .inl (of_portWrite h (kept.putFreq _ _ _ inside h))
  | cmd w n =>
    rcases kept.of_issue h run with same | ⟨rfl, notBusy, i, rfl, runs⟩
    · exact .inl same
    · exact .inr (.inr ⟨i, notBusy, .inl rfl, runs⟩)
  | wait =>
    cases run
    split
    · exact .inl (kept.host _ _ (logged h _))
    · exact .inl (logged h _)
  | copy =>
    cases run
    exact .inl (kept.host _ _ (logged (kept.of_readReg h _) _))
  | move i =>
    obtain ⟨inside, rfl⟩ := next_of_guard run
    obtain ⟨-, inIbuf⟩ := (Bool.and_eq_true _ _).mp inside
    have read := logged (kept.of_portRead h 8 ((s.byteAt .obuf i).setWidth 35)) (portRead 8 ((s.byteAt .obuf i).setWidth 35) s).1
    refine .inl (of_portWrite read (kept.putByte _ .ibuf i _ ?_ read))
    rw [portRead_state]
    split <;> exact of_decide_eq_true inIbuf
  | reset =>
    cases run
    exact .inr (.inl ⟨rfl, rfl⟩)

/-- A step keeps `P`, unless it is RESET, or runs a command that the host issues or the engine completes. -/
theorem KeptByPort.of_step {s t : State} (h : P s) (run : step s = .next t) :
    P t ∨ (HostMakes .reset s ∧ ∃ g, t = resetEvent (s.withHost g)) ∨
      ∃ i g, exec i (s.withHost g) = .next t ∧
        ((s.isBusy = false ∧ ∃ a, HostMakes a s ∧ IssuesAtOnce a (encodeWord i)) ∨ (EngineMoves s ∧ s.cmdr = opcodeOf i)) := by
  rcases step_moves s with ⟨a, g, makes, moves⟩ | ⟨engine, moves⟩ | ⟨-, -, idles⟩
  · rcases kept.of_hostMove (kept.host s g h) (moves.symm.trans run) with same | ⟨rfl, reset⟩ | ⟨i, notBusy, issues, runs⟩
    · exact .inl same
    · exact .inr (.inl ⟨makes, g, reset⟩)
    · exact .inr (.inr ⟨i, g, runs, .inl ⟨notBusy, a, makes, issues⟩⟩)
  · have turn := moves.symm.trans run
    unfold engineTurn at turn
    split at turn
    · next i opcode => exact .inr (.inr ⟨i, _, turn, .inr ⟨engine, commandOfOpcode_eq_some opcode⟩⟩)
    · cases turn
  · cases run.symm.trans idles
    exact .inl h

end

/-- `P` is kept by everything a step can be. -/
structure KeptBySteps (P : State → Prop) : Prop extends KeptByPort P where
  reset : ∀ s, P s → P (resetEvent s)
  exec : ∀ i s t, P s → exec i s = .next t → P t

theorem KeptBySteps.step {P : State → Prop} (kept : KeptBySteps P) {s t : State} (h : P s) (run : step s = .next t) : P t := by
  rcases kept.of_step h run with same | ⟨-, g, rfl⟩ | ⟨i, g, runs, -⟩
  · exact same
  · exact kept.reset _ (kept.host s g h)
  · exact kept.exec i _ t (kept.host s g h) runs

/-! ### What a command leaves of the parameters and of STATUS -/

theorem exec_sameWorld {i : Instr} {s t : State} (run : exec i s = .next t) : SameWorld s t := by
  cases i with
  | encode =>
    rcases exec_encode_cases run with ⟨-, rfl⟩ | ⟨_, -, encoded⟩ | overflowed
    · exact ⟨rfl, rfl, rfl, rfl⟩
    · obtain ⟨_, _, _, _, _, _, _, _, _, _, _, _, _, _, _, rfl⟩ := encoded.touches
      exact ⟨rfl, rfl, rfl, rfl⟩
    · obtain ⟨_, _, _, _, _, _, _, _, _, _, _, _, _, _, _, rfl⟩ := overflowed.touches
      exact ⟨rfl, rfl, rfl, rfl⟩
  | decode =>
    obtain ⟨⟨_, _, _, _, _, _, _, _, _, rfl⟩, -⟩ := exec_decode_touches run
    exact ⟨rfl, rfl, rfl, rfl⟩
  | serialize =>
    rcases exec_serialize_cases run with ⟨-, rfl⟩ | ⟨-, rfl⟩
    · exact ⟨rfl, rfl, rfl, rfl⟩
    · obtain ⟨_, _, _, _, _, _, _, _, touched⟩ := serialize_touches s
      rw [touched]
      exact ⟨rfl, rfl, rfl, rfl⟩
  | deserialize =>
    rcases exec_deserialize_cases run with ⟨-, rfl⟩ | ⟨-, rfl⟩
    · obtain ⟨_, _, _, _, _, _, _, _, _, _, _, _, touched⟩ := deserialize_touches s
      rw [touched]
      exact ⟨rfl, rfl, rfl, rfl⟩
    · exact ⟨rfl, rfl, rfl, rfl⟩

/-- A command leaves the rest of STATUS alone (R14), but for the FTRUNC of a SERIALIZE that ends DONE (R192). -/
theorem exec_statusRest {i : Instr} {s t : State} (run : exec i s = .next t) :
    StatusRestKept s t ∨ (i = .serialize ∧ EndedDone t ∧ statusZero t.status = statusZero s.status) := by
  cases i with
  | encode =>
    rcases exec_encode_cases run with ⟨-, rfl⟩ | ⟨_, -, encoded⟩ | overflowed
    · exact .inl (raiseError_statusRestKept (i := .encode) rfl)
    · exact .inl encoded.statusRest
    · exact .inl overflowed.statusRest
  | decode => exact .inl (exec_decode_touches run).2
  | serialize =>
    rcases exec_serialize_cases run with ⟨-, rfl⟩ | ⟨-, rfl⟩
    · exact .inl (raiseError_statusRestKept (i := .serialize) rfl)
    · exact .inr ⟨rfl, serialize_endedDone s, serialize_zero s⟩
  | deserialize =>
    rcases exec_deserialize_cases run with ⟨-, rfl⟩ | ⟨-, rfl⟩
    · exact .inl (finish_statusRestKept (i := .deserialize) (commitImage_status (checking s)))
    · exact .inl (raiseError_statusRestKept (i := .deserialize) rfl)

theorem errNumber_ne_zero {e : ErrCode} (h : e ≠ .none) : errNumber e ≠ 0#4 := by
  cases e with
  | none => exact absurd rfl h
  | _ => decide

/-- A command ends with STATE = ERROR exactly when ERR is not 0. -/
theorem exec_error_iff {i : Instr} {s t : State} (run : exec i s = .next t) :
    t.isBusy = false ∧ (statusState t.status = stError ↔ statusErr t.status ≠ 0#4) := by
  obtain ⟨_, run', ⟨state, err⟩ | ⟨e, isError, -, state, err⟩⟩ := exec_ends i s <;> cases run.symm.trans run'
  · rw [State.isBusy, state, err]
    decide
  · rw [State.isBusy, state, err]
    exact ⟨by decide, fun _ => errNumber_ne_zero isError, fun _ => rfl⟩

/-! ### The obligations -/

theorem keptBySteps_cfg (c : Config) : KeptBySteps (fun s => s.cfg = c) where
  host _ _ := id
  draws _ _ := id
  putReg _ r _ h := by cases r <;> exact h
  putByte _ sp _ _ _ h := by cases sp <;> exact h
  putFreq _ _ _ _ := id
  badCmd _ := id
  accept _ _ := id
  reset _ := id
  exec _ _ _ h run := (exec_sameWorld run).1.trans h

/-- Settles O58. -/
theorem stepKeepsTheInstance : Obligations.StepKeepsTheInstance := fun s _ run => (keptBySteps_cfg s.cfg).step rfl run

theorem keptBySteps_statusInv : KeptBySteps StatusInv where
  host _ _ := id
  draws _ _ := id
  putReg _ r _ h := by cases r <;> exact h
  putByte s sp i v _ h := by rwa [StatusInv, State.putByte_status]
  putFreq _ _ _ _ := id
  badCmd s h := ⟨(raiseError_zero _ s).trans h.1, fun _ => by rw [raiseError_err]; decide, fun _ => raiseError_state _ s⟩
  accept i s h := by
    refine ⟨(accept_zero i s).trans h.1, ?_⟩
    rw [accept_state, accept_err]
    decide
  reset _ _ := by
    rw [StatusInv, resetEvent_status]
    decide
  exec _ _ _ h run := by
    refine ⟨?_, (exec_error_iff run).2⟩
    rcases exec_statusRest run with ⟨zero, -⟩ | ⟨-, -, zero⟩ <;> exact zero.trans h.1

/-- Settles O53: a port's change keeps STATE and ERR or sets both, and a command ends as R218 says. -/
theorem stepKeepsStatusLegal : Obligations.StepKeepsStatusLegal := fun _ _ => keptBySteps_statusInv.step

theorem keptBySteps_sequencerInv : KeptBySteps SequencerInv where
  host _ _ := id
  draws _ _ := id
  putReg _ r _ h := by cases r <;> exact h
  putByte s sp i v _ h := by cases sp <;> exact h
  putFreq _ _ _ _ := id
  badCmd s _ busy := by simp at busy
  accept i _ _ _ := ⟨i, rfl⟩
  reset _ _ busy := by simp at busy
  exec _ _ _ _ run busy := by simp [(exec_error_iff run).1] at busy

theorem exec_ne_fault (i : Instr) (s : State) (f : Fault) : exec i s ≠ .fault f := by
  obtain ⟨_, run, -⟩ := exec_ends i s
  rw [run]
  exact nofun

theorem issue_ne_fault (w : Word) (n : Nat) (s : State) (f : Fault) : issue w n s ≠ .fault f := by
  rcases issue_cases w n s with ⟨-, run⟩ | ⟨-, -, run⟩ | ⟨-, i, -, ⟨-, run⟩ | ⟨m, -, run⟩⟩ <;> rw [run]
  · exact nofun
  · exact nofun
  · exact exec_ne_fault i s f
  · exact nofun

theorem ne_fault_of_guard {c : Prop} [Decidable c] {u : State} {r : Refusal} (f : Fault) :
    (if c then .next u else .refused r : Host.Outcome State Fault Refusal) ≠ .fault f := by
  split <;> exact nofun

theorem hostMove_ne_fault (a : HostAct) (s : State) (f : Fault) : hostMove a s ≠ .fault f := by
  cases a with
  | rd n =>
    cases register : regOfNumber n with
    | none => rw [hostMove_rd_outside register]; exact nofun
    | some r => rw [hostMove_rd register]; exact nofun
  | wr n v =>
    cases register : regOfNumber n with
    | none => rw [hostMove_wr_outside register]; exact nofun
    | some r =>
      by_cases isCmd : r = .cmd
      · obtain rfl : n = 0 := regOfNumber_eq_cmd (isCmd ▸ register)
        exact issue_ne_fault _ 0 s f
      · rw [hostMove_wr register isCmd]
        exact nofun
  | rdb sp i => exact ne_fault_of_guard f
  | wrb sp i v => exact ne_fault_of_guard f
  | rdf j => exact ne_fault_of_guard f
  | wrf j v => exact ne_fault_of_guard f
  | cmd w n => exact issue_ne_fault w n s f
  | wait => exact nofun
  | copy => exact nofun
  | move i => exact ne_fault_of_guard f
  | reset => exact nofun

/-- Settles O56: only the engine's turn can fault, and then CMDR holds no opcode. -/
theorem stepNeverFaults : Obligations.StepNeverFaults := by
  intro s inv
  refine ⟨fun f => ?_, fun t => keptBySteps_sequencerInv.step inv⟩
  rcases step_moves s with ⟨a, g, -, moves⟩ | ⟨⟨busy, -⟩, moves⟩ | ⟨-, -, idles⟩
  · rw [moves]
    exact hostMove_ne_fault a _ f
  · obtain ⟨i, opcode⟩ := inv busy
    rw [moves, engineTurn_of_opcode (s := s.withHost { s.host with turns := 0 }) opcode]
    exact exec_ne_fault i _ f
  · rw [idles]
    exact nofun

theorem keptByPort_ftrunc (b : Bool) : KeptByPort (fun s => statusFtrunc s.status = b) where
  host _ _ := id
  draws _ _ := id
  putReg _ r _ h := by cases r <;> exact h
  putByte s sp i v _ h := by rwa [State.putByte_status]
  putFreq _ _ _ _ := id
  badCmd s h := (raiseError_ftrunc _ s).trans h
  accept i s h := (accept_ftrunc i s).trans h

/-- Settles O59: the port keeps FTRUNC, and of the commands only SERIALIZE ending DONE does not. -/
theorem onlySerializeAndResetMoveFtrunc : Obligations.OnlySerializeAndResetMoveFtrunc := by
  intro s t run changed
  rcases (keptByPort_ftrunc (statusFtrunc s.status)).of_step rfl run with same | ⟨reset, -⟩ | ⟨i, g, runs, whose⟩
  · exact absurd same changed
  · exact .inl reset
  · rcases exec_statusRest runs with ⟨-, same⟩ | ⟨rfl, done, -⟩
    · exact absurd same changed
    · exact .inr ⟨done, ⟨g, run.trans runs.symm⟩, whose⟩

end Sys2Proof.Machine
end

section
/-! PROOFS. Every step keeps the memories canonical and inside their capacities (R40, R48), and the registers only the engine writes within
their legal values (R11, R21). -/

namespace Sys2Proof.Machine

/-! ### Canonical memories -/

/-- The memory is in canonical form and lists only indices below `cap`. -/
def CanonicalBelow {α : Type} (m : List (Nat × α)) (cap : Nat) : Prop := Memory.wf m ∧ Memory.below m cap

theorem CanonicalBelow.write {α : Type} {m : List (Nat × α)} {cap i : Nat} (h : CanonicalBelow m cap) (inside : i < cap) (v : α) :
    CanonicalBelow (Memory.write m i v) cap :=
  ⟨Memory.write_wf i v h.1, Memory.write_below v h.2 inside⟩

theorem CanonicalBelow.writeMany {α : Type} {m : List (Nat × α)} {cap : Nat} {vs : List α} (h : CanonicalBelow m cap)
    (inside : vs.length ≤ cap) : CanonicalBelow (Memory.writeMany m 0 vs) cap :=
  ⟨Memory.writeMany_wf 0 vs h.1, Memory.writeMany_below vs h.2 ((Nat.zero_add _).trans_le inside)⟩

theorem CanonicalBelow.nil {α : Type} (cap : Nat) : CanonicalBelow ([] : List (Nat × α)) cap :=
  ⟨List.Pairwise.nil, nofun⟩

/-- The invariant, memory by memory. -/
theorem memoriesInv_iff (s : State) :
    MemoriesInv s ↔ CanonicalBelow s.ibuf s.cfg.ibufCap ∧ CanonicalBelow s.obuf s.cfg.obufCap ∧
      CanonicalBelow s.pbuf s.cfg.pbufCap ∧ CanonicalAlphabet s :=
  Iff.rfl

/-! ### The BitBuffer after pushes -/

/-- Pushes stop at the capacity and leave RP (R92, R98). -/
theorem bbPushSeq_nbits_le {cap : Nat} {bits : Bits} {b b' : BitBuffer} (h : bbPushSeq cap bits b = .ok b')
    (inside : b.nbits.toNat ≤ cap) : b'.nbits.toNat ≤ cap ∧ b'.rp = b.rp := by
  induction bits generalizing b with
  | nil =>
    cases h
    exact ⟨inside, rfl⟩
  | cons v vs ih =>
    rcases bbPushBit_cases cap v b with ⟨-, full⟩ | ⟨room, pushed⟩
    · rw [bbPushSeq, full] at h
      cases h
    · rw [bbPushSeq, pushed] at h
      have advanced : (bbAppend v b).nbits.toNat ≤ b.nbits.toNat + 1 :=
        (BitVec.toNat_add b.nbits 1#35).trans_le (Nat.mod_le _ _)
      exact ih (b := bbAppend v b) h (by omega)

theorem encoded_nbits_le {s : State} {b : BitBuffer}
    (pushes : bbPushSeq s.cfg.bitbufCap (encodedBits s) (bbClear s.bb) = .ok b) :
    b.nbits.toNat ≤ 8 * s.cfg.pbufCap ∧ b.rp = 0 :=
  bbPushSeq_nbits_le pushes (Nat.zero_le _)

/-! ### The memories after a command -/

theorem length_imageSyms (s : State) : (imageSyms s).length = (namedOffset s - 10) / 2 := by
  rw [imageSyms, List.length_map, List.length_range, imageEntries, imageOffset_eq_namedOffset]

theorem length_imageFreqs (s : State) : (imageFreqs s).length = (namedOffset s - 10) / 2 := by
  rw [imageFreqs, List.length_map, List.length_range, imageEntries, imageOffset_eq_namedOffset]

theorem exec_memories {i : Instr} {s t : State} (inv : MemoriesInv s) (run : exec i s = .next t) : MemoriesInv t := by
  obtain ⟨ibuf, obuf, pbuf, alphabet⟩ := (memoriesInv_iff s).1 inv
  rw [memoriesInv_iff, (exec_sameWorld run).1]
  cases i with
  | encode =>
    rcases exec_encode_cases run with ⟨-, rfl⟩ | ⟨b, pushes, encoded⟩ | overflowed
    · exact ⟨ibuf, obuf, pbuf, alphabet⟩
    · have nbits := (encoded_nbits_le pushes).1
      have payload := pbuf.writeMany (vs := packBytes s.cfg.packOrder (ceil8 b.nbits.toNat) (bbValue b))
        (by rw [length_packBytes, ceil8]; omega)
      rw [← encoded.pbuf] at payload
      have entries := encoded.entries.canonical alphabet
      obtain ⟨_, _, _, _, _, _, _, _, _, _, _, _, _, _, _, rfl⟩ := encoded.touches
      exact ⟨ibuf, obuf, payload, entries⟩
    · have payload := overflowed.pbuf ▸ pbuf
      have entries := overflowed.entries.canonical alphabet
      obtain ⟨_, _, _, _, _, _, _, _, _, _, _, _, _, _, _, rfl⟩ := overflowed.touches
      exact ⟨ibuf, obuf, payload, entries⟩
  | decode =>
    have output : CanonicalBelow t.obuf s.cfg.obufCap := by
      rcases exec_decode_cases run with ⟨fits, decoded⟩ | ⟨-, refused⟩
      · rw [decoded.obuf]
        exact obuf.writeMany ((length_decodeOutcome _ _ _).1.trans fits.cnt_le)
      · rwa [refused.obuf]
    obtain ⟨⟨_, _, _, _, _, _, _, _, _, rfl⟩, -⟩ := exec_decode_touches run
    exact ⟨ibuf, output, pbuf, alphabet⟩
  | serialize =>
    rcases exec_serialize_cases run with ⟨-, rfl⟩ | ⟨fits, rfl⟩
    · exact ⟨ibuf, obuf, pbuf, alphabet⟩
    · have image : CanonicalBelow (serializeWrites (accept .serialize s)).obuf s.cfg.obufCap :=
        obuf.writeMany (vs := imageBytes (accept .serialize s)) (by
          rw [SerializeOverCapacity] at fits
          rw [length_imageBytes, accept_k, accept_plen]
          omega)
      exact ⟨ibuf, image, pbuf, alphabet⟩
  | deserialize =>
    rcases exec_deserialize_cases run with ⟨passes, rfl⟩ | ⟨-, rfl⟩
    · obtain ⟨_, _, _, _, _, _, _, _, _, _, kFits, plenFits⟩ := (passesCheck_checking s).2 passes
      obtain ⟨sym, freq⟩ := alphabet
      have symbols : CanonicalBelow (commitImage (checking s)).alphaSym Config.alphaCap :=
        CanonicalBelow.writeMany sym ((length_imageSyms _).trans_le kFits)
      have frequencies : CanonicalBelow (commitImage (checking s)).alphaFreq Config.alphaCap :=
        CanonicalBelow.writeMany freq ((length_imageFreqs _).trans_le kFits)
      have payload : CanonicalBelow (commitImage (checking s)).pbuf s.cfg.pbufCap :=
        pbuf.writeMany (by rw [State.length_bytesFrom, imageOffset_eq_namedOffset]; exact plenFits)
      exact ⟨ibuf, obuf, payload, symbols, frequencies⟩
    · exact ⟨ibuf, obuf, pbuf, alphabet⟩

theorem keptBySteps_memoriesInv : KeptBySteps MemoriesInv where
  host _ _ := id
  draws _ _ := id
  putReg _ r _ h := by cases r <;> exact h
  putByte s sp i v inside h := by
    obtain ⟨ibuf, obuf, pbuf, sym, freq⟩ := (memoriesInv_iff s).1 h
    cases sp with
    | ibuf => exact ⟨ibuf.write inside v, obuf, pbuf, sym, freq⟩
    | obuf => exact ⟨ibuf, obuf.write inside v, pbuf, sym, freq⟩
    | pbuf => exact ⟨ibuf, obuf, pbuf.write inside v, sym, freq⟩
    | alphaSym => exact ⟨ibuf, obuf, pbuf, CanonicalBelow.write sym inside v, freq⟩
  putFreq s j v inside h := by
    obtain ⟨ibuf, obuf, pbuf, sym, freq⟩ := (memoriesInv_iff s).1 h
    exact ⟨ibuf, obuf, pbuf, sym, CanonicalBelow.write freq inside v⟩
  badCmd _ := id
  accept _ _ := id
  reset _ _ := ⟨CanonicalBelow.nil _, CanonicalBelow.nil _, CanonicalBelow.nil _, CanonicalBelow.nil _, CanonicalBelow.nil _⟩
  exec _ _ _ := exec_memories

/-- Settles O54: the port writes at an index that exists, and a command writes within the capacities it has checked. -/
theorem stepKeepsMemoriesCanonical : Obligations.StepKeepsMemoriesCanonical := fun _ _ => keptBySteps_memoriesInv.step

/-! ### The engine's registers after a command -/

/-- The BitBuffer DECODE leaves is the one before, or the unpacked payload. -/
theorem BufferAfterDecode.bounds {s : State} {b : BitBuffer} {cap : Nat} (h : BufferAfterDecode s b)
    (payload : 8 * s.plen.toNat ≤ cap) (nbits : s.bb.nbits.toNat ≤ cap) (rp : s.bb.rp.toNat ≤ s.bb.nbits.toNat) :
    b.nbits.toNat ≤ cap ∧ b.rp.toNat ≤ b.nbits.toNat := by
  unfold BufferAfterDecode at h
  split at h
  · rw [h]
    exact ⟨nbits, rp⟩
  · obtain ⟨unpacked, inside⟩ := h
    exact ⟨by rwa [unpacked, toNat_unpacked], inside⟩

theorem exec_registers {i : Instr} {s t : State} (inv : RegistersInv s) (run : exec i s = .next t) : RegistersInv t := by
  obtain ⟨legal, olen, poff, nbits, rp⟩ := inv
  rw [RegistersInv, (exec_sameWorld run).1]
  refine ⟨legal, ?_⟩
  cases i with
  | encode =>
    rcases exec_encode_cases run with ⟨-, rfl⟩ | ⟨b, pushes, encoded⟩ | overflowed
    · exact ⟨olen, poff, nbits, rp⟩
    · obtain ⟨nbits', rp'⟩ := encoded_nbits_le pushes
      rw [encoded.bb]
      obtain ⟨_, _, _, _, _, _, _, _, _, _, _, _, _, _, _, rfl⟩ := encoded.touches
      exact ⟨olen, poff, nbits', by rw [rp']; exact Nat.zero_le _⟩
    · rw [overflowed.nbits, overflowed.rp]
      obtain ⟨_, _, _, _, _, _, _, _, _, _, _, _, _, _, _, rfl⟩ := overflowed.touches
      exact ⟨olen, poff, Nat.zero_le _, Nat.zero_le _⟩
  | decode =>
    have facts : t.olen.toNat ≤ s.cfg.obufCap ∧ t.bb.nbits.toNat ≤ s.cfg.bitbufCap ∧ t.bb.rp.toNat ≤ t.bb.nbits.toNat := by
      rcases exec_decode_cases run with ⟨fits, decoded⟩ | ⟨-, refused⟩
      · refine ⟨?_, decoded.bb.bounds (Nat.mul_le_mul_left 8 fits.plen_le) nbits rp⟩
        rw [decoded.olen]
        split
        · exact fits.cnt_le
        · exact Nat.zero_le _
      · rw [refused.olen, refused.bb]
        exact ⟨Nat.zero_le _, nbits, rp⟩
    obtain ⟨⟨_, _, _, _, _, _, _, _, _, rfl⟩, -⟩ := exec_decode_touches run
    exact ⟨facts.1, poff, facts.2⟩
  | serialize =>
    rcases exec_serialize_cases run with ⟨-, rfl⟩ | ⟨fits, rfl⟩
    · exact ⟨olen, poff, nbits, rp⟩
    · obtain ⟨offset, length, -⟩ := serialize_holdsImage (noWrap_of_fits legal fits)
      rw [SerializeOverCapacity] at fits
      exact ⟨by rw [length]; omega, by rw [offset]; omega, nbits, rp⟩
  | deserialize =>
    rcases exec_deserialize_cases run with ⟨passes, rfl⟩ | ⟨-, rfl⟩
    · obtain ⟨_, _, _, _, _, _, _, _, _, even, kFits, _⟩ := (passesCheck_checking s).2 passes
      refine ⟨olen, ?_, nbits, rp⟩
      rw [finish_poff, commitImage_poff]
      omega
    · exact ⟨olen, poff, nbits, rp⟩

theorem keptBySteps_registersInv : KeptBySteps RegistersInv where
  host _ _ := id
  draws _ _ := id
  putReg _ r _ h := by cases r <;> exact h
  putByte _ sp _ _ _ h := by cases sp <;> exact h
  putFreq _ _ _ _ := id
  badCmd _ := id
  accept _ _ := id
  reset _ h := ⟨h.1, Nat.zero_le _, Nat.zero_le _, Nat.zero_le _, Nat.zero_le _⟩
  exec _ _ _ := exec_registers

/-- Settles O55: of the moves only RESET and commands write these registers. -/
theorem stepKeepsEngineRegistersLegal : Obligations.StepKeepsEngineRegistersLegal := fun _ _ => keptBySteps_registersInv.step

/-- Settles O57. -/
theorem resetHasTheInvariants : Obligations.ResetHasTheInvariants := by
  refine ⟨?_, ⟨CanonicalBelow.nil _, CanonicalBelow.nil _, CanonicalBelow.nil _, CanonicalBelow.nil _, CanonicalBelow.nil _⟩,
    ?_, fun busy => ?_⟩
  · rw [StatusInv]
    decide
  · rw [RegistersInv]
    decide
  · exact absurd busy (by decide)

end Sys2Proof.Machine
end

section
/-! PROOFS. A command is a function of what the host sees (R24, R221): each command, from two states the host cannot tell apart, ends in
states it cannot tell apart. -/

namespace Sys2Proof.Machine

/-! ### Acceptance and completion -/

theorem SameHostView.accept {s s' : State} (h : SameHostView s s') (i : Instr) : SameHostView (accept i s) (accept i s') := by
  obtain ⟨status, rest⟩ := h
  exact ⟨congrArg (fun w => setStatusState (setStatusErr w 0#4) stBusy) status, rest⟩

theorem SameHostView.raiseError {s s' : State} (h : SameHostView s s') (e : ErrCode) :
    SameHostView (raiseError e s) (raiseError e s') := by
  obtain ⟨status, rest⟩ := h
  exact ⟨congrArg (fun w => setStatusState (setStatusErr w (errNumber e)) stError) status, rest⟩

theorem SameHostView.finish {s s' : State} (h : SameHostView s s') : SameHostView (finish s) (finish s') := by
  obtain ⟨status, rest⟩ := h
  exact ⟨congrArg (fun w => setStatusState w stDone) status, rest⟩

/-- STATUS after a command is STATUS before it with STATE and ERR as the command ended. -/
theorem status_eq_of_ended {s s' t t' : State} (before : s'.status = s.status) (rest : StatusRestKept s t)
    (rest' : StatusRestKept s' t') (state : statusState t'.status = statusState t.status)
    (err : statusErr t'.status = statusErr t.status) : t'.status = t.status := by
  obtain ⟨zero, ftrunc⟩ := rest
  obtain ⟨zero', ftrunc'⟩ := rest'
  exact status_ext state err (by rw [ftrunc', before, ftrunc]) (by rw [zero', before, zero])

theorem EndedDone.same {t t' : State} (h : EndedDone t) (h' : EndedDone t') :
    statusState t'.status = statusState t.status ∧ statusErr t'.status = statusErr t.status :=
  ⟨h'.1.trans h.1.symm, h'.2.trans h.2.symm⟩

theorem EndedError.same {e : ErrCode} {t t' : State} (h : EndedError e t) (h' : EndedError e t') :
    statusState t'.status = statusState t.status ∧ statusErr t'.status = statusErr t.status :=
  ⟨h'.1.trans h.1.symm, h'.2.trans h.2.symm⟩

theorem EndedAs.same {w : WalkEnd} {t t' : State} (h : EndedAs w t) (h' : EndedAs w t') :
    statusState t'.status = statusState t.status ∧ statusErr t'.status = statusErr t.status := by
  cases w with
  | allOut => exact EndedDone.same h h'
  | exhausted => exact EndedError.same h h'
  | badNode => exact EndedError.same h h'

/-! ### ENCODE -/

theorem bbValue_bbAppend_congr {b b' : BitBuffer} (same : bbValue b = bbValue b') (v : Bool) :
    bbValue (bbAppend v b) = bbValue (bbAppend v b') := by
  have nbits : b.nbits.toNat = b'.nbits.toNat := by rw [← length_bbValue, same, length_bbValue]
  by_cases noWrap : b.nbits.toNat + 1 < 2 ^ 35
  · rw [bbValue_bbAppend noWrap, bbValue_bbAppend (nbits ▸ noWrap), same]
  · have wraps {c : BitBuffer} (h : ¬ c.nbits.toNat + 1 < 2 ^ 35) : bbValue (bbAppend v c) = [] := by
      have zero : (bbAppend v c).nbits.toNat = 0 := by
        have small := c.nbits.isLt
        have sum : (c.nbits + 1#35).toNat = (c.nbits.toNat + 1) % 2 ^ 35 := BitVec.toNat_add _ _
        exact sum.trans (by omega)
      rw [bbValue, zero, Table.first]
    rw [wraps noWrap, wraps (nbits ▸ noWrap)]

/-- What a pushed sequence gives depends on the buffer's value alone, and not on the cells past NBITS. -/
theorem map_bbValue_bbPushSeq {cap : Nat} (bits : Bits) {b b' : BitBuffer} (same : bbValue b = bbValue b') :
    (bbPushSeq cap bits b).map bbValue = (bbPushSeq cap bits b').map bbValue := by
  induction bits generalizing b b' with
  | nil => exact congrArg Run.ok same
  | cons v vs ih =>
    have nbits : b.nbits.toNat = b'.nbits.toNat := by rw [← length_bbValue, same, length_bbValue]
    rw [bbPushSeq, bbPushSeq]
    by_cases full : b.nbits.toNat = cap
    · rw [bbPushBit_of_full full, bbPushBit_of_full (nbits ▸ full)]
      exact congrArg (Run.raised ErrCode.capacity) same
    · have pushed {c : BitBuffer} (h : c.nbits.toNat ≠ cap) : bbPushBit cap v c = .ok (bbAppend v c) := if_neg h
      rw [pushed full, pushed (nbits ▸ full)]
      exact ih (bbValue_bbAppend_congr same v)

theorem EncodeTouches.kept {s t : State} (h : EncodeTouches s t) :
    t.ilen = s.ilen ∧ t.olen = s.olen ∧ t.poff = s.poff ∧ SameBytes .ibuf s t ∧ SameBytes .obuf s t := by
  obtain ⟨_, _, _, _, _, _, _, _, _, _, _, _, _, _, _, rfl⟩ := h
  exact ⟨rfl, rfl, rfl, fun _ => rfl, fun _ => rfl⟩

theorem EntriesWritten.sameEntries {a : List (Byte × Word)} {s s' t t' : State} (h : EntriesWritten a s t)
    (h' : EntriesWritten a s' t') (sym : SameBytes .alphaSym s s') (freq : ∀ j, s'.freqAt j = s.freqAt j) :
    SameBytes .alphaSym t t' ∧ ∀ j, t'.freqAt j = t.freqAt j :=
  ⟨fun j => by rw [h'.symbol, h.symbol, sym j], fun j => by rw [h'.freq, h.freq, freq j]⟩

section
variable {s s' t t' : State}

/-- Bytes written from index 0 on, over memories that read the same. -/
theorem sameBytes_of_writeMany {sp : ByteSpace} {vs : List Byte} (before : SameBytes sp s s')
    (written : t.bytesOf sp = Memory.writeMany (s.bytesOf sp) 0 vs) (epoch : t.epoch = s.epoch)
    (written' : t'.bytesOf sp = Memory.writeMany (s'.bytesOf sp) 0 vs) (epoch' : t'.epoch = s'.epoch) :
    SameBytes sp t t' := fun i => by
  rw [State.byteAt_of_writeMany_zero written epoch, State.byteAt_of_writeMany_zero written' epoch', before i]

theorem Encoded.sameHostView {b b' : BitBuffer} (cfg : s'.cfg = s.cfg) (view : SameHostView s s') (encoded : Encoded s t b)
    (encoded' : Encoded s' t' b') (value : bbValue b' = bbValue b) : SameHostView t t' := by
  obtain ⟨status, ilen, olen, -, poff, -, -, -, bytes, freqs⟩ := view
  obtain ⟨alphabet, -⟩ := encodedBits_congr (inputOf_congr ilen fun i _ => bytes .ibuf i)
  obtain ⟨ilenKept, olenKept, poffKept, ibufKept, obufKept⟩ := encoded.touches.kept
  obtain ⟨ilenKept', olenKept', poffKept', ibufKept', obufKept'⟩ := encoded'.touches.kept
  obtain ⟨state, err⟩ := encoded.ended.same encoded'.ended
  obtain ⟨symbols, frequencies⟩ := encoded.entries.sameEntries (alphabet ▸ encoded'.entries) (bytes .alphaSym) freqs
  have nbits : b'.nbits.toNat = b.nbits.toNat := by rw [← length_bbValue, value, length_bbValue]
  have payload := encoded'.pbuf
  rw [cfg, nbits, value] at payload
  refine ⟨status_eq_of_ended status encoded.statusRest encoded'.statusRest state err, ?_, ?_, ?_, ?_, ?_, ?_, ?_, fun sp => ?_,
    frequencies⟩
  · rw [ilenKept', ilen, ilenKept]
  · rw [olenKept', olen, olenKept]
  · rw [encoded'.cnt, ilen, encoded.cnt]
  · rw [poffKept', poff, poffKept]
  · exact BitVec.eq_of_toNat_eq (by rw [encoded'.k, alphabet, encoded.k])
  · rw [encoded'.plen, nbits, encoded.plen]
  · rw [encoded'.bb, encoded.bb]
    exact BitVec.eq_of_toNat_eq nbits
  · cases sp with
    | ibuf => exact fun i => (ibufKept' i).trans ((bytes .ibuf i).trans (ibufKept i).symm)
    | obuf => exact fun i => (obufKept' i).trans ((bytes .obuf i).trans (obufKept i).symm)
    | pbuf => exact sameBytes_of_writeMany (bytes .pbuf) encoded.pbuf encoded.touches.epoch payload encoded'.touches.epoch
    | alphaSym => exact symbols

theorem EncodeOverflowed.sameHostView (view : SameHostView s s') (failed : EncodeOverflowed s t)
    (failed' : EncodeOverflowed s' t') : SameHostView t t' := by
  obtain ⟨status, ilen, olen, -, poff, -, -, -, bytes, freqs⟩ := view
  obtain ⟨alphabet, -⟩ := encodedBits_congr (inputOf_congr ilen fun i _ => bytes .ibuf i)
  obtain ⟨ilenKept, olenKept, poffKept, ibufKept, obufKept⟩ := failed.touches.kept
  obtain ⟨ilenKept', olenKept', poffKept', ibufKept', obufKept'⟩ := failed'.touches.kept
  obtain ⟨state, err⟩ := failed.ended.same failed'.ended
  obtain ⟨symbols, frequencies⟩ := failed.entries.sameEntries (alphabet ▸ failed'.entries) (bytes .alphaSym) freqs
  refine ⟨status_eq_of_ended status failed.statusRest failed'.statusRest state err, ?_, ?_, failed'.cnt.trans failed.cnt.symm, ?_,
    failed'.k.trans failed.k.symm, failed'.plen.trans failed.plen.symm, failed'.nbits.trans failed.nbits.symm, fun sp => ?_,
    frequencies⟩
  · rw [ilenKept', ilen, ilenKept]
  · rw [olenKept', olen, olenKept]
  · rw [poffKept', poff, poffKept]
  · cases sp with
    | ibuf => exact fun i => (ibufKept' i).trans ((bytes .ibuf i).trans (ibufKept i).symm)
    | obuf => exact fun i => (obufKept' i).trans ((bytes .obuf i).trans (obufKept i).symm)
    | pbuf =>
      exact sameBytes_of_writeMany (vs := []) (bytes .pbuf) failed.pbuf failed.touches.epoch failed'.pbuf failed'.touches.epoch
    | alphaSym => exact symbols

theorem exec_encode_sameHostView (cfg : s'.cfg = s.cfg) (view : SameHostView s s') (run : exec .encode s = .next t)
    (run' : exec .encode s' = .next t') : SameHostView t t' := by
  have ilen : s'.ilen = s.ilen := view.2.1
  by_cases long : s.cfg.ibufCap < s.ilen.toNat
  · cases run.symm.trans (exec_encode_of_long long)
    cases run'.symm.trans (exec_encode_of_long (s := s') (by rwa [cfg, ilen]))
    exact (view.accept .encode).raiseError .capacity
  · obtain ⟨_, ran, ends⟩ := exec_encode_of_fits (Nat.le_of_not_lt long)
    obtain ⟨_, ran', ends'⟩ := exec_encode_of_fits (s := s') (by rw [cfg, ilen]; exact Nat.le_of_not_lt long)
    cases run.symm.trans ran
    cases run'.symm.trans ran'
    obtain ⟨-, -, -, -, -, -, -, -, bytes, -⟩ := id view
    obtain ⟨-, bits⟩ := encodedBits_congr (inputOf_congr ilen fun i _ => bytes .ibuf i)
    have pushes := map_bbValue_bbPushSeq (cap := s.cfg.bitbufCap) (encodedBits s)
      (b := bbClear s.bb) (b' := bbClear s'.bb) rfl
    rw [bits, cfg] at ends'
    rcases ends with ⟨b, pushed, encoded⟩ | ⟨b, raised, failed⟩ <;>
      rcases ends' with ⟨b', pushed', encoded'⟩ | ⟨b', raised', failed'⟩
    · rw [pushed, pushed'] at pushes
      exact encoded.sameHostView cfg view encoded' (Run.ok.inj pushes).symm
    · rw [pushed, raised'] at pushes
      cases pushes
    · rw [raised, pushed'] at pushes
      cases pushes
    · exact failed.sameHostView view failed'

end

/-! ### DECODE -/

theorem DecodeTouches.kept {s t : State} (h : DecodeTouches s t) :
    t.ilen = s.ilen ∧ t.cnt = s.cnt ∧ t.poff = s.poff ∧ t.k = s.k ∧ t.plen = s.plen ∧
      (∀ sp, sp ≠ .obuf → SameBytes sp s t) ∧ ∀ j, t.freqAt j = s.freqAt j := by
  obtain ⟨_, _, _, _, _, _, _, _, _, rfl⟩ := h
  refine ⟨rfl, rfl, rfl, rfl, rfl, fun sp other _ => ?_, fun _ => rfl⟩
  cases sp with
  | obuf => exact absurd rfl other
  | _ => rfl

theorem BufferAfterDecode.nbits {s : State} {b : BitBuffer} (h : BufferAfterDecode s b) :
    b.nbits = if s.cnt = 0 ∨ s.k.toNat ≤ 1 then s.bb.nbits else BitVec.ofNat 35 (8 * s.plen.toNat) := by
  unfold BufferAfterDecode at h
  split
  · next noWalk => rw [if_pos noWalk] at h; rw [h]
  · next walks => rw [if_neg walks] at h; exact h.1

theorem DecodeFits.congr {s s' : State} (cfg : s'.cfg = s.cfg) (view : SameHostView s s') (fits : DecodeFits s) :
    DecodeFits s' := by
  obtain ⟨-, -, -, cnt, -, k, plen, -⟩ := view
  obtain ⟨k_le, plen_le, cnt_le⟩ := fits
  exact ⟨by rwa [k], by rwa [plen, cfg], by rwa [cnt, cfg]⟩

theorem SameHostView.symm {s s' : State} (h : SameHostView s s') : SameHostView s' s := by
  obtain ⟨status, ilen, olen, cnt, poff, k, plen, nbits, bytes, freqs⟩ := h
  exact ⟨status.symm, ilen.symm, olen.symm, cnt.symm, poff.symm, k.symm, plen.symm, nbits.symm,
    fun sp i => (bytes sp i).symm, fun j => (freqs j).symm⟩

theorem SameHostView.alphabet {s s' : State} (h : SameHostView s s') : s'.alphabet = s.alphabet := by
  obtain ⟨-, -, -, -, -, k, -, -, bytes, freqs⟩ := h
  exact State.alphabet_congr k fun j _ => ⟨bytes .alphaSym j, freqs j⟩

theorem SameHostView.payload {s s' : State} (h : SameHostView s s') :
    s'.bytesFrom .pbuf 0 s'.plen.toNat = s.bytesFrom .pbuf 0 s.plen.toNat := by
  obtain ⟨-, -, -, -, -, -, plen, -, bytes, -⟩ := h
  rw [plen]
  exact State.bytesFrom_congr fun j _ => bytes .pbuf _

section
variable {s s' t t' : State}

/-- Two DECODEs that write the same bytes and end the same way, from states the host cannot tell apart. -/
theorem sameHostView_of_decode {vs : List Byte} (view : SameHostView s s') (touches : DecodeTouches s t)
    (touches' : DecodeTouches s' t') (status : t'.status = t.status) (olen : t'.olen = t.olen)
    (nbits : t'.bb.nbits = t.bb.nbits) (obuf : t.obuf = Memory.writeMany s.obuf 0 vs)
    (obuf' : t'.obuf = Memory.writeMany s'.obuf 0 vs) : SameHostView t t' := by
  obtain ⟨-, ilen, -, cnt, poff, k, plen, -, bytes, freqs⟩ := view
  obtain ⟨ilenKept, cntKept, poffKept, kKept, plenKept, bytesKept, freqKept⟩ := touches.kept
  obtain ⟨ilenKept', cntKept', poffKept', kKept', plenKept', bytesKept', freqKept'⟩ := touches'.kept
  refine ⟨status, by rw [ilenKept', ilen, ilenKept], olen, by rw [cntKept', cnt, cntKept], by rw [poffKept', poff, poffKept],
    by rw [kKept', k, kKept], by rw [plenKept', plen, plenKept], nbits, fun sp => ?_,
    fun j => by rw [freqKept', freqs, freqKept]⟩
  by_cases isObuf : sp = .obuf
  · subst isObuf
    exact sameBytes_of_writeMany (bytes .obuf) obuf touches.epoch obuf' touches'.epoch
  · exact fun i => by rw [bytesKept' sp isObuf i, bytes sp i, bytesKept sp isObuf i]

theorem exec_decode_sameHostView (cfg : s'.cfg = s.cfg) (view : SameHostView s s') (run : exec .decode s = .next t)
    (run' : exec .decode s' = .next t') : SameHostView t t' := by
  have payload : payloadBits s' = payloadBits s := by rw [payloadBits, payloadBits, view.payload, cfg]
  have alphabet := view.alphabet
  obtain ⟨status, -, -, cnt, -, k, plen, nbits, -⟩ := id view
  rcases exec_decode_cases run with ⟨fits, decoded⟩ | ⟨notFits, refused⟩ <;>
    rcases exec_decode_cases run' with ⟨fits', decoded'⟩ | ⟨notFits', refused'⟩
  · rw [alphabet, payload, cnt] at decoded'
    obtain ⟨state, err⟩ := decoded.ended.same decoded'.ended
    exact sameHostView_of_decode view decoded.touches decoded'.touches
      (status_eq_of_ended status decoded.statusRest decoded'.statusRest state err)
      (by rw [decoded'.olen, cnt, decoded.olen]) (by rw [decoded'.bb.nbits, cnt, k, plen, nbits, decoded.bb.nbits]) decoded.obuf
      decoded'.obuf
  · exact absurd (fits.congr cfg view) notFits'
  · exact absurd (fits'.congr cfg.symm view.symm) notFits
  · obtain ⟨state, err⟩ := refused.ended.same refused'.ended
    exact sameHostView_of_decode (vs := []) view refused.touches refused'.touches
      (status_eq_of_ended status refused.statusRest refused'.statusRest state err)
      (by rw [refused'.olen, refused.olen]) (by rw [refused'.bb, nbits, refused.bb]) refused.obuf refused'.obuf

end

end Sys2Proof.Machine
end

section
/-! PROOFS. The container commands as functions of what the host sees (R24, R221), and the four commands together. -/

namespace Sys2Proof.Machine

section
variable {s s' : State}

/-! ### SERIALIZE -/

theorem SerializeOverCapacity.congr (cfg : s'.cfg = s.cfg) (view : SameHostView s s') (h : SerializeOverCapacity s) :
    SerializeOverCapacity s' := by
  obtain ⟨-, -, -, -, -, k, plen, -⟩ := view
  rwa [SerializeOverCapacity, cfg, k, plen]

theorem SameHostView.imageBytes (view : SameHostView s s') : imageBytes s' = imageBytes s := by
  have header : headerBytes s' = headerBytes s := by
    obtain ⟨-, -, -, cnt, -, k, -⟩ := view
    rw [headerBytes, cnt, k, headerBytes]
  rw [Machine.imageBytes, Machine.imageBytes, header, alphabetBytes, alphabetBytes, view.alphabet, view.payload]

theorem serializeWrites_kept (s : State) :
    (serializeWrites s).ilen = s.ilen ∧ (serializeWrites s).cnt = s.cnt ∧ (serializeWrites s).k = s.k ∧
      (serializeWrites s).plen = s.plen ∧ (serializeWrites s).bb = s.bb ∧ SameBytes .ibuf s (serializeWrites s) ∧
      SameBytes .pbuf s (serializeWrites s) ∧ SameBytes .alphaSym s (serializeWrites s) ∧
      ∀ j, (serializeWrites s).freqAt j = s.freqAt j := by
  simp [serializeWrites, SameBytes]

theorem serializeWrites_olen_eq (s : State) :
    (serializeWrites s).olen = BitVec.ofNat 32 (payloadOffsetOf s.k.toNat + s.plen.toNat) := by
  simp [serializeWrites]

theorem SameHostView.serializeWrites (view : SameHostView s s') :
    SameHostView (serializeWrites s) (serializeWrites s') := by
  have alphabet := view.alphabet
  have image := view.imageBytes
  obtain ⟨status, ilen, olen, cnt, poff, k, plen, nbits, bytes, freqs⟩ := view
  obtain ⟨ilenKept, cntKept, kKept, plenKept, bbKept, ibufKept, pbufKept, symKept, freqKept⟩ := serializeWrites_kept s
  obtain ⟨ilenKept', cntKept', kKept', plenKept', bbKept', ibufKept', pbufKept', symKept', freqKept'⟩ := serializeWrites_kept s'
  refine ⟨?_, by rw [ilenKept', ilen, ilenKept], ?_, by rw [cntKept', cnt, cntKept], BitVec.eq_of_toNat_eq ?_,
    by rw [kKept', k, kKept], by rw [plenKept', plen, plenKept], by rw [bbKept', nbits, bbKept], fun sp i => ?_,
    fun j => by rw [freqKept', freqs, freqKept]⟩
  · rw [serializeWrites_status, serializeWrites_status, status, alphabet]
  · rw [serializeWrites_olen_eq, serializeWrites_olen_eq, k, plen]
  · rw [serializeWrites_poff, serializeWrites_poff, k]
  · cases sp with
    | ibuf => rw [ibufKept', bytes .ibuf, ibufKept]
    | obuf => rw [serializeWrites_byteAt_obuf, serializeWrites_byteAt_obuf, image, bytes .obuf]
    | pbuf => rw [pbufKept', bytes .pbuf, pbufKept]
    | alphaSym => rw [symKept', bytes .alphaSym, symKept]

theorem exec_serialize_sameHostView {t t' : State} (cfg : s'.cfg = s.cfg) (view : SameHostView s s')
    (run : exec .serialize s = .next t) (run' : exec .serialize s' = .next t') : SameHostView t t' := by
  have accepted := view.accept .serialize
  rcases exec_serialize_cases run with ⟨exceeds, rfl⟩ | ⟨fits, rfl⟩ <;>
    rcases exec_serialize_cases run' with ⟨exceeds', rfl⟩ | ⟨fits', rfl⟩
  · exact accepted.raiseError .capacity
  · exact absurd (exceeds.congr cfg view) fits'
  · exact absurd (exceeds'.congr cfg.symm view.symm) fits
  · exact accepted.serializeWrites.finish

/-! ### DESERIALIZE -/

theorem SameHostView.namedOffset (view : SameHostView s s') : namedOffset s' = namedOffset s := by
  obtain ⟨-, -, -, -, -, -, -, -, bytes, -⟩ := view
  rw [Machine.namedOffset, bytes .ibuf 8, bytes .ibuf 9, Machine.namedOffset]

theorem SameHostView.testsInOrder (cfg : s'.cfg = s.cfg) (view : SameHostView s s') : testsInOrder s' = testsInOrder s := by
  have offset := view.namedOffset
  obtain ⟨-, ilen, -, -, -, -, -, -, bytes, -⟩ := view
  rw [Machine.testsInOrder, cfg, ilen, offset, bytes .ibuf 0, bytes .ibuf 1, bytes .ibuf 2, bytes .ibuf 3, Machine.testsInOrder]

theorem SameHostView.checking (view : SameHostView s s') : SameHostView (checking s) (checking s') := view.accept .deserialize

theorem commitImage_kept (s : State) :
    (commitImage s).ilen = s.ilen ∧ (commitImage s).olen = s.olen ∧ (commitImage s).bb = s.bb ∧
      SameBytes .ibuf s (commitImage s) ∧ SameBytes .obuf s (commitImage s) := by
  simp [commitImage, SameBytes]

theorem commitImage_k_eq (s : State) : (commitImage s).k = BitVec.ofNat 9 ((namedOffset s - 10) / 2) := by
  simp [commitImage, imageEntries, imageOffset_eq_namedOffset]

theorem SameHostView.commitImage (view : SameHostView s s') : SameHostView (commitImage s) (commitImage s') := by
  have offset := view.namedOffset
  obtain ⟨status, ilen, olen, -, -, -, -, nbits, bytes, freqs⟩ := view
  obtain ⟨ilenKept, olenKept, bbKept, ibufKept, obufKept⟩ := commitImage_kept s
  obtain ⟨ilenKept', olenKept', bbKept', ibufKept', obufKept'⟩ := commitImage_kept s'
  refine ⟨by rw [commitImage_status, commitImage_status, status], by rw [ilenKept', ilen, ilenKept],
    by rw [olenKept', olen, olenKept], BitVec.eq_of_toNat_eq ?_, BitVec.eq_of_toNat_eq ?_, ?_, BitVec.eq_of_toNat_eq ?_,
    by rw [bbKept', nbits, bbKept], fun sp i => ?_, fun j => ?_⟩
  · rw [commitImage_cnt, commitImage_cnt, bytes .ibuf 4, bytes .ibuf 5, bytes .ibuf 6, bytes .ibuf 7]
  · rw [commitImage_poff, commitImage_poff, offset]
  · rw [commitImage_k_eq, commitImage_k_eq, offset]
  · rw [commitImage_plen, commitImage_plen, offset, ilen]
  · cases sp with
    | ibuf => rw [ibufKept', bytes .ibuf, ibufKept]
    | obuf => rw [obufKept', bytes .obuf, obufKept]
    | pbuf => rw [commitImage_byteAt_pbuf, commitImage_byteAt_pbuf, offset, ilen, bytes .ibuf, bytes .pbuf]
    | alphaSym => rw [commitImage_byteAt_alphaSym, commitImage_byteAt_alphaSym, offset, bytes .ibuf, bytes .alphaSym]
  · rw [commitImage_freqAt, commitImage_freqAt, offset, bytes .ibuf, freqs]

theorem PassesCheck.congr (cfg : s'.cfg = s.cfg) (view : SameHostView s s') (passes : PassesCheck s) : PassesCheck s' := by
  have offset := view.namedOffset
  obtain ⟨-, ilen, -, -, -, -, -, -, bytes, -⟩ := view
  rwa [PassesCheck, cfg, ilen, offset, bytes .ibuf 0, bytes .ibuf 1, bytes .ibuf 2, bytes .ibuf 3]

theorem exec_deserialize_sameHostView {t t' : State} (cfg : s'.cfg = s.cfg) (view : SameHostView s s')
    (run : exec .deserialize s = .next t) (run' : exec .deserialize s' = .next t') : SameHostView t t' := by
  have checked := view.checking
  rcases exec_deserialize_cases run with ⟨passes, rfl⟩ | ⟨fails, rfl⟩ <;>
    rcases exec_deserialize_cases run' with ⟨passes', rfl⟩ | ⟨fails', rfl⟩
  · exact checked.commitImage.finish
  · exact absurd (passes.congr cfg view) fails'
  · exact absurd (passes'.congr cfg.symm view.symm) fails
  · have sameCode : checkImage (Machine.checking s') = checkImage (Machine.checking s) := by
      rw [checkImage_eq_testsInOrder, checkImage_eq_testsInOrder, testsInOrder_checking, testsInOrder_checking,
        view.testsInOrder cfg]
    rw [sameCode]
    exact checked.raiseError _

end

/-- Settles O60, command by command. -/
theorem hiddenStateReachesNoResult : Obligations.HiddenStateReachesNoResult := by
  intro i s s' t t' cfg _ view run run'
  cases i with
  | encode => exact exec_encode_sameHostView cfg view run run'
  | decode => exact exec_decode_sameHostView cfg view run run'
  | serialize => exact exec_serialize_sameHostView cfg view run run'
  | deserialize => exact exec_deserialize_sameHostView cfg view run run'

end Sys2Proof.Machine
end
